-- ==== Sys2Proof/Word.lean ====
section
/-! DEFINITION. The word types of the frame-synthesis block (R9): bytes of `PBUF`, `OUT` and of every frame, the 32-bit
command word and registers, and the 64-bit clock, delay and generator values. -/

namespace Sys2Proof

/-- One byte of a frame, of the payload buffer or of the output stream. -/
abbrev Byte := BitVec 8

/-- A command word or a 32-bit register (R80, R44). -/
abbrev Word := BitVec 32

/-- A 64-bit register: clock, delay, seed, generator state (R9). -/
abbrev Dword := BitVec 64

end Sys2Proof
end

