-- ==== Sys2Proof/Config.lean ====
section
/-! DEFINITION. The implementation parameters of R8, the constraints a model may assume of them, the values the spec
decides for them, and the free values the spec leaves open. -/

namespace Sys2Proof

/-- The parameters of R8. `NSTREAM` is 8 in every FSB (R8's constraint), so it is a type index and not a field.
`REG_BASE` is `Config.regBase`: no rule uses it. -/
structure Params where
  /-- `NCTX`, the number of connection contexts. -/
  nctx : Nat
  /-- `VLAN_MAX`, the maximum number of VLAN tags per connection. -/
  vlanMax : Nat
  /-- `PAYLOAD_MAX`, the bytes of the payload buffer. -/
  payloadMax : Nat
  /-- `OUT_MAX`, the capacity of the output stream; `none` is unbounded. -/
  outMax : Option Nat
  /-- `IPV4_TTL`. -/
  ipv4Ttl : Byte
  /-- `IPV6_HOP_LIMIT`. -/
  ipv6HopLimit : Byte
  /-- `TCP_WINDOW`. -/
  tcpWindow : BitVec 16
  /-- `LCG_A`, the generator multiplier. -/
  lcgA : Dword
  /-- `LCG_C`, the generator increment. -/
  lcgC : Dword
  /-- `SEED_DEFAULT(s)` for the eight streams. -/
  seedDefault : Vector Dword 8
  /-- `MTU_DEFAULT`. -/
  mtuDefault : BitVec 16
  /-- `DELAY_DEFAULT_US`. -/
  delayDefaultUs : Dword
  /-- The seconds of `TS_DEFAULT`. -/
  tsDefaultSec : Word
  /-- The microseconds of `TS_DEFAULT`. -/
  tsDefaultUsec : Word
  deriving DecidableEq, Repr

/-- The values R8 decides "when no other value is given". -/
def Params.default : Params where
  nctx := 4
  vlanMax := 4
  payloadMax := 65536
  outMax := none
  ipv4Ttl := 64#8
  ipv6HopLimit := 64#8
  tcpWindow := 0xFFFF#16
  lcgA := 6364136223846793005#64
  lcgC := 1442695040888963407#64
  seedDefault := #v[0#64, 1#64, 2#64, 3#64, 4#64, 5#64, 6#64, 7#64]
  mtuDefault := 1500#16
  delayDefaultUs := 10000#64
  tsDefaultSec := 0#32
  tsDefaultUsec := 0#32

/-- The constraints R8 lets a model assume of any argument. The bounds on the TTL, the hop limit, the window and the
generator constants are their field widths. DESIGN CHOICE (log entry 22): the bound on the microseconds of `TS_DEFAULT`
is the model's, R8 lists none. -/
def Params.valid (p : Params) : Bool :=
  decide (1 ≤ p.nctx) && decide (p.nctx ≤ 16) && decide (p.vlanMax ≤ 15) && decide (p.tsDefaultUsec.toNat < 1000000)

/-- FREE VALUE (R47, R230, I12, I14; log entry 4). The byte that `PBUF[a]` holds after the `epoch`-th reset while the
host has not written it: "unspecified (a model takes any values)". Nothing constrains it. -/
opaque Config.pbufInit (epoch : Nat) (a : Nat) : Byte

/-- FREE VALUE (R8, D53; log entry 14). `REG_BASE`, "OPEN (no rule uses it)". -/
opaque Config.regBase : Nat

end Sys2Proof
end

