-- ==== Sys2Proof/Syntax.lean ====
section
/-! DEFINITION. The command set FSB-CMD v1 (R80 to R86): one constructor of `Instr` per row of the opcode table, with its
operands already taken out of the command word, and the fault codes of R210 that decoding and execution can raise. -/

namespace Sys2Proof

/-- A connection context index, the 4-bit `CTX` field (R81). Whether it is below `NCTX` is a check (WellFormed). -/
abbrev CtxIdx := Fin 16

/-- A generator stream index, the 3-bit `STREAM` field (R81). -/
abbrev StreamIdx := Fin 8

/-- Direction of an emission (R14, R84): `client` is client to server. -/
inductive Dir where
  | client
  | server
  deriving DecidableEq, Repr

/-- The builder's transport flag set (R15, R84); the empty set means plain `ACK`. -/
structure Flags where
  syn : Bool
  synAck : Bool
  fin : Bool
  rst : Bool
  deriving DecidableEq, Repr

/-- The empty flag set, "plain `ACK`". -/
abbrev Flags.none : Flags := ⟨false, false, false, false⟩
/-- {`SYN`} -/
abbrev Flags.SYN : Flags := ⟨true, false, false, false⟩
/-- {`SYN_ACK`} -/
abbrev Flags.SYN_ACK : Flags := ⟨false, true, false, false⟩
/-- {`FIN`} -/
abbrev Flags.FIN : Flags := ⟨false, false, true, false⟩
/-- {`RST`} -/
abbrev Flags.RST : Flags := ⟨false, false, false, true⟩

/-- The faults a command can raise (R210), each reported in `STATUS.CODE`. They are ordinary next states of the machine
(R213, R214), not stops of it. -/
inductive FaultCode where
  | optionInvalid
  | addressFormat
  | badState
  | segImpossible
  | badCtx
  | badOpcode
  | badCommand
  | payloadLen
  | outOverflow
  deriving DecidableEq, Repr

/-- The eleven commands of R82, in the table's order. -/
inductive Instr where
  | sessionInit
  | seed (k : StreamIdx)
  | draw (k : StreamIdx)
  | insertDelay
  | render
  | create (c : CtxIdx)
  | emitClient (c : CtxIdx)
  | emitServer (c : CtxIdx)
  | close (c : CtxIdx)
  | reset (c : CtxIdx)
  | build (c : CtxIdx) (dir : Dir) (flags : Flags)
  deriving DecidableEq, Repr

/-- `OPC`, bits [7:0] of a command's word (R82). -/
def Instr.opc : Instr → Byte
  | .sessionInit => 0x01#8
  | .seed _ => 0x02#8
  | .draw _ => 0x03#8
  | .insertDelay => 0x04#8
  | .render => 0x05#8
  | .create _ => 0x10#8
  | .emitClient _ => 0x11#8
  | .emitServer _ => 0x12#8
  | .close _ => 0x13#8
  | .reset _ => 0x14#8
  | .build _ _ _ => 0x15#8

/-- The context a command names, for the commands that have a `CTX` field (R81). -/
def Instr.ctx? : Instr → Option CtxIdx
  | .sessionInit => none
  | .seed _ => none
  | .draw _ => none
  | .insertDelay => none
  | .render => none
  | .create c => some c
  | .emitClient c => some c
  | .emitServer c => some c
  | .close c => some c
  | .reset c => some c
  | .build c _ _ => some c

end Sys2Proof
end

