-- ==== Sys2Proof/WellFormed.lean ====
section
/-! DEFINITION. Which terms of `Instr` are commands of an FSB with given parameters: the only check beyond the field
widths is `0 <= CTX < NCTX` (R81, R83). -/

namespace Sys2Proof

/-- `CTX < NCTX` where the command has a `CTX` field (R81). -/
def Instr.wf (p : Params) (i : Instr) : Bool :=
  match i.ctx? with
  | none => true
  | some c => decide (c.val < p.nctx)

end Sys2Proof
end

