-- ==== Sys2Proof/Decode.lean ====
section
/-! DEFINITION. The decoder of R83, total on all 2^32 words, and the encoder written from the same field table (R81, R82). -/

namespace Sys2Proof

/-- Bits [7:0] of a command word (R81). -/
def opcOf (w : Word) : Byte := w.extractLsb' 0 8

/-- `c = w[11:8]` (R84). -/
def ctxOf (w : Word) : CtxIdx := (w.extractLsb' 8 4).toFin

/-- `s = w[14:12]` (R84). -/
def streamOf (w : Word) : StreamIdx := (w.extractLsb' 12 3).toFin

/-- `flags` from `w[16]`, `w[17]`, `w[18]`, `w[19]` (R84). -/
def flagsOf (w : Word) : Flags := ⟨w.getLsbD 16, w.getLsbD 17, w.getLsbD 18, w.getLsbD 19⟩

/-- `dir = client if w[20] = 0 else server` (R84). -/
def dirOf (w : Word) : Dir := if w.getLsbD 20 then .server else .client

/-- The command a word's opcode selects, with the operands R84 assembles; `none` where the opcode is not one of R82. -/
def assemble (w : Word) : Option Instr :=
  match (opcOf w).toNat with
  | 0x01 => some .sessionInit
  | 0x02 => some (.seed (streamOf w))
  | 0x03 => some (.draw (streamOf w))
  | 0x04 => some .insertDelay
  | 0x05 => some .render
  | 0x10 => some (.create (ctxOf w))
  | 0x11 => some (.emitClient (ctxOf w))
  | 0x12 => some (.emitServer (ctxOf w))
  | 0x13 => some (.close (ctxOf w))
  | 0x14 => some (.reset (ctxOf w))
  | 0x15 => some (.build (ctxOf w) (dirOf w) (flagsOf w))
  | _ => none

/-- The free-field bits of a command's opcode (R83): STREAM, CTX, and F_* with DIR. -/
def Instr.freeBits : Instr → Word
  | .sessionInit => 0x00000000#32
  | .seed _ => 0x00007000#32
  | .draw _ => 0x00007000#32
  | .insertDelay => 0x00000000#32
  | .render => 0x00000000#32
  | .create _ => 0x00000F00#32
  | .emitClient _ => 0x00000F00#32
  | .emitServer _ => 0x00000F00#32
  | .close _ => 0x00000F00#32
  | .reset _ => 0x00000F00#32
  | .build _ _ _ => 0x00000F00#32 ||| 0x001F0000#32

/-- Decoding (R83): the opcode first, then the bits outside the free fields, then the context index. -/
def decode (p : Params) (w : Word) : Except FaultCode Instr :=
  match assemble w with
  | none => .error .badOpcode
  | some i =>
    if w &&& ~~~(0x000000FF#32 ||| i.freeBits) ≠ 0#32 then .error .badCommand
    else if i.wf p then .ok i
    else .error .badCtx

/-- The one command format of R81, most significant field first. -/
def packWord (dir : Bool) (fl : Flags) (stream : BitVec 3) (ctx : BitVec 4) (opc : Byte) : Word :=
  0#11 ++ BitVec.ofBool dir ++ BitVec.ofBool fl.rst ++ BitVec.ofBool fl.fin ++ BitVec.ofBool fl.synAck ++
    BitVec.ofBool fl.syn ++ 0#1 ++ stream ++ ctx ++ opc

/-- The command word of a command: a field the opcode does not use is 0 (R81). -/
def encode (i : Instr) : Word :=
  match i with
  | .sessionInit => packWord false .none 0#3 0#4 i.opc
  | .seed k => packWord false .none (BitVec.ofFin k) 0#4 i.opc
  | .draw k => packWord false .none (BitVec.ofFin k) 0#4 i.opc
  | .insertDelay => packWord false .none 0#3 0#4 i.opc
  | .render => packWord false .none 0#3 0#4 i.opc
  | .create c => packWord false .none 0#3 (BitVec.ofFin c) i.opc
  | .emitClient c => packWord false .none 0#3 (BitVec.ofFin c) i.opc
  | .emitServer c => packWord false .none 0#3 (BitVec.ofFin c) i.opc
  | .close c => packWord false .none 0#3 (BitVec.ofFin c) i.opc
  | .reset c => packWord false .none 0#3 (BitVec.ofFin c) i.opc
  | .build c dir fl => packWord (dir == .server) fl 0#3 (BitVec.ofFin c) i.opc

/-- One row of the opcode table (R82): mnemonic, `match` and `mask`. -/
structure OpcodeRow where
  mnemonic : String
  matchWord : Word
  mask : Word
  deriving DecidableEq, Repr

/-- The opcode table (R82); a word `w` selects a row when `(w & mask) = match`. -/
def opcodeTable : List OpcodeRow := [
  ⟨"SESSION_INIT", 0x00000001#32, 0xFFFFFFFF#32⟩,
  ⟨"SEED", 0x00000002#32, 0xFFFF8FFF#32⟩,
  ⟨"DRAW", 0x00000003#32, 0xFFFF8FFF#32⟩,
  ⟨"INSERT_DELAY", 0x00000004#32, 0xFFFFFFFF#32⟩,
  ⟨"RENDER", 0x00000005#32, 0xFFFFFFFF#32⟩,
  ⟨"CREATE", 0x00000010#32, 0xFFFFF0FF#32⟩,
  ⟨"EMIT_CLIENT", 0x00000011#32, 0xFFFFF0FF#32⟩,
  ⟨"EMIT_SERVER", 0x00000012#32, 0xFFFFF0FF#32⟩,
  ⟨"CLOSE", 0x00000013#32, 0xFFFFF0FF#32⟩,
  ⟨"RESET", 0x00000014#32, 0xFFFFF0FF#32⟩,
  ⟨"BUILD", 0x00000015#32, 0xFFE0F0FF#32⟩]

/-- A command's row of the opcode table (R82). -/
def Instr.row : Instr → OpcodeRow
  | .sessionInit => ⟨"SESSION_INIT", 0x00000001#32, 0xFFFFFFFF#32⟩
  | .seed _ => ⟨"SEED", 0x00000002#32, 0xFFFF8FFF#32⟩
  | .draw _ => ⟨"DRAW", 0x00000003#32, 0xFFFF8FFF#32⟩
  | .insertDelay => ⟨"INSERT_DELAY", 0x00000004#32, 0xFFFFFFFF#32⟩
  | .render => ⟨"RENDER", 0x00000005#32, 0xFFFFFFFF#32⟩
  | .create _ => ⟨"CREATE", 0x00000010#32, 0xFFFFF0FF#32⟩
  | .emitClient _ => ⟨"EMIT_CLIENT", 0x00000011#32, 0xFFFFF0FF#32⟩
  | .emitServer _ => ⟨"EMIT_SERVER", 0x00000012#32, 0xFFFFF0FF#32⟩
  | .close _ => ⟨"CLOSE", 0x00000013#32, 0xFFFFF0FF#32⟩
  | .reset _ => ⟨"RESET", 0x00000014#32, 0xFFFFF0FF#32⟩
  | .build _ _ _ => ⟨"BUILD", 0x00000015#32, 0xFFE0F0FF#32⟩

/-- The instruction this decoder reads, under the parameters' decided values, from a row of the opcode table whose
`nbits` bits are `w`: every command is exactly 32 bits (R80, R86), so a longer one is none. -/
def decodeTableWord (nbits w : Nat) : Option Instr :=
  if nbits ≤ 32 then
    match decode Params.default (BitVec.ofNat 32 (w % 2 ^ nbits)) with
    | .ok i => some i
    | .error _ => none
  else none

end Sys2Proof
end

