-- ==== Sys2Proof/Machine/Bytes.lean ====
section
/-! DEFINITION. The byte-order encoders and decoders of R100. -/

namespace Sys2Proof.Machine

/-- `be16(v)` (R100). -/
def be16 (v : BitVec 16) : List Byte := [v.extractLsb' 8 8, v.extractLsb' 0 8]

/-- `be32(v)` (R100). -/
def be32 (v : BitVec 32) : List Byte :=
  [v.extractLsb' 24 8, v.extractLsb' 16 8, v.extractLsb' 8 8, v.extractLsb' 0 8]

/-- `beN(v, k)`: the low `8·k` bits of `v`, most significant byte first (R12, R100). -/
def beN {w : Nat} (v : BitVec w) : Nat → List Byte
  | 0 => []
  | k + 1 => v.extractLsb' (8 * k) 8 :: beN v k

/-- `le16(v)` (R100). -/
def le16 (v : BitVec 16) : List Byte := [v.extractLsb' 0 8, v.extractLsb' 8 8]

/-- `le32(v)` (R100). -/
def le32 (v : BitVec 32) : List Byte :=
  [v.extractLsb' 0 8, v.extractLsb' 8 8, v.extractLsb' 16 8, v.extractLsb' 24 8]

/-- Byte `i` of a sequence as an integer; R100's decoders read no byte past the end. -/
def byteAt (b : List Byte) (i : Nat) : Nat := (b.getD i 0#8).toNat

/-- `be16dec(b)` (R100). -/
def be16dec (b : List Byte) : Nat := byteAt b 0 * 2 ^ 8 + byteAt b 1

/-- `be32dec(b)` (R100). -/
def be32dec (b : List Byte) : Nat :=
  byteAt b 0 * 2 ^ 24 + byteAt b 1 * 2 ^ 16 + byteAt b 2 * 2 ^ 8 + byteAt b 3

/-- `le16dec(b)` (R100). -/
def le16dec (b : List Byte) : Nat := byteAt b 1 * 2 ^ 8 + byteAt b 0

/-- `le32dec(b)` (R100). -/
def le32dec (b : List Byte) : Nat :=
  byteAt b 3 * 2 ^ 24 + byteAt b 2 * 2 ^ 16 + byteAt b 1 * 2 ^ 8 + byteAt b 0

/-- `b[i:j]` (R12). -/
def slice (b : List Byte) (i j : Nat) : List Byte := (b.drop i).take (j - i)

end Sys2Proof.Machine
end

