-- ==== Sys2Proof/Machine/Checksum.lean ====
section
/-! DEFINITION. The one's-complement checksum engine (R101 to R103). -/

namespace Sys2Proof.Machine

/-- The sum of the 16-bit big-endian words of a range, its words counted from its first byte and a last odd byte padded
with a zero byte (R101, R103). -/
def wordSum : List Byte → Nat
  | [] => 0
  | [x] => x.toNat * 2 ^ 8
  | x :: y :: rest => x.toNat * 2 ^ 8 + y.toNat + wordSum rest

/-- R101's loop `while acc > 0xFFFF: acc <- (acc & 0xFFFF) + (acc >> 16)`, with as much fuel as `acc` at the start: the
loop makes `acc` strictly smaller, so the fuel never runs out (`Laws.foldCarry_le`). -/
def foldCarry : Nat → Nat → Nat
  | 0, acc => acc
  | fuel + 1, acc => if acc > 0xFFFF then foldCarry fuel ((acc &&& 0xFFFF) + (acc >>> 16)) else acc

/-- `osum(bytes, seed)`, the folded one's-complement sum (R101). -/
def osum (b : List Byte) (seed : Nat) : Nat := foldCarry (seed + wordSum b) (seed + wordSum b)

/-- `cks(bytes, seed) = (~osum(bytes, seed)) & 0xFFFF` (R102). -/
def cks (b : List Byte) (seed : Nat) : BitVec 16 := ~~~(BitVec.ofNat 16 (osum b seed))

end Sys2Proof.Machine
end

