-- ==== Sys2Proof/Machine/State.lean ====
section
/-! DEFINITION. The state of the frame-synthesis block (10_state.md), the host's moves that drive it (R20, R90), the two
ways a step can stop, and the state after reset (R230). -/

namespace Sys2Proof.Machine

/-- `transport` of a context (R26): 0 = TCP, 1 = UDP. -/
inductive Transport where
  | tcp
  | udp
  deriving DecidableEq, Repr

/-- `ipver` of a context (R26): 0 = IPv4, 1 = IPv6. CREATE faults on 2 and 3 (R127), so no context holds them. -/
inductive IpVer where
  | v4
  | v6
  deriving DecidableEq, Repr

/-- `lstate` of a context (R27): the values 0 to 5; 6 and 7 "are never held". -/
inductive LState where
  | init
  | handshaking
  | established
  | closing
  | reset
  | closed
  deriving DecidableEq, Repr

/-- One endpoint `ep[i]` (R28). -/
structure Endpoint where
  mac : BitVec 48
  addr : BitVec 128
  port : BitVec 16
  seq : Word
  deriving DecidableEq, Repr

/-- The reset value of an endpoint: every field 0 (R26). -/
def Endpoint.zero : Endpoint := ⟨0#48, 0#128, 0#16, 0#32⟩

/-- One connection context (R26). `server` is `ep[0]` and `client` is `ep[1]` (R14). The tag slots are the most that
`VLAN_MAX` can be (R8); a slot at or above `VLAN_MAX` is never used. -/
structure Context where
  transport : Transport
  ipver : IpVer
  mtu : BitVec 16
  vlanCnt : BitVec 4
  vlan : Vector (BitVec 16) 15
  lstate : LState
  server : Endpoint
  client : Endpoint
  deriving DecidableEq, Repr

/-- The reset value of a context: "every field 0, `lstate = INIT`" (R26, R195). -/
def Context.zero : Context :=
  ⟨.tcp, .v4, 0#16, 0#4, Vector.replicate 15 0#16, .init, .zero, .zero⟩

/-- What the host may do (R90): whole-register accesses of the register space, `PBUF` and `OUT` byte accesses, and the
reset input. Issuing a command is the write of its word to `CMD` (R80). -/
inductive HostMove where
  /-- `MemWrite(addr, n, v)`: `n` bytes at `addr`, the value in the low `8·n` bits of `v` (R62). -/
  | write (addr : BitVec 12) (n : Nat) (v : BitVec 128)
  /-- `MemRead(addr, n)` (R62). -/
  | read (addr : BitVec 12) (n : Nat)
  /-- A host write of one payload-buffer byte (R60, R90). -/
  | writePbuf (a : Nat) (b : Byte)
  /-- A host read of one payload-buffer byte (R60). -/
  | readPbuf (a : Nat)
  /-- A host read of one output byte by index (R64). -/
  | readOut (a : Nat)
  /-- The reset input (R90, R230). -/
  | reset
  deriving DecidableEq, Repr

/-- What the host got back from the last move that answers it (R90's last column). MODEL'S OWN, log entry 3. -/
inductive HostReply where
  | none
  /-- A register's whole value, zero-extended. -/
  | register (v : BitVec 128)
  /-- A byte of `PBUF` or `OUT`. -/
  | byte (b : Byte)
  /-- The container bytes of RENDER (R199). -/
  | container (bytes : List Byte)
  deriving DecidableEq, Repr

/-- Where a host move stops the model. No command ends in one of these: a command's faults are next states (R213). -/
inductive Fault where
  /-- Raised by a host access of a payload-buffer byte at or above `PAYLOAD_MAX`: R60 gives `PBUF` no such byte. Safe
  (log entry 7). -/
  | noSuchPbufByte (a : Nat)
  /-- Raised by a host register access that runs past 0xFFF, the last byte of the 12-bit register space (R60). Safe
  (log entry 7). -/
  | noSuchRegisterByte (addr : BitVec 12) (n : Nat)
  deriving DecidableEq, Repr

/-- What the model has no move for. -/
inductive Refusal where
  /-- An instruction without a meaning in `exec`; none is left. Safe. -/
  | notModelled (mnemonic : String)
  /-- Raised by a host access at another width than the register's, or at an offset inside one: "refused by the model"
  (R62, R68, R232). Safe (log entry 6). -/
  | partialRegisterAccess (addr : BitVec 12) (n : Nat)
  deriving DecidableEq, Repr

/-- The FSB and the host moves still to come. Every register of R44 is here but `CMD`, which "holds no state" (R33),
`OUT_LEN`, which "is `len(OUT)`" (R25), and the context blocks, which mirror `ctxs` (R45). -/
structure State where
  /-- The implementation parameters (R8), fixed for a machine: no step changes them. MODEL'S OWN, log entry 1. -/
  params : Params
  /-- `STATUS` (R36). -/
  status : Word
  /-- `RESULT` (R37). -/
  result : Dword
  /-- `ARG` (R34). -/
  arg : Dword
  /-- `PLEN` (R34). -/
  plen : Word
  /-- `PBUF`: the bytes the host has written since reset, by rising index (R34; log entries 4 and 5). -/
  pbuf : List Host.Cell
  /-- How many resets came before, for the free values of unwritten `PBUF` bytes. MODEL'S OWN, log entry 4. -/
  epoch : Nat
  /-- `CFG_TS_SEC` (R43). -/
  cfgTsSec : Word
  /-- `CFG_TS_USEC` (R43). -/
  cfgTsUsec : Word
  /-- `CFG_DELAY_US` (R43). -/
  cfgDelayUs : Dword
  /-- `CFG_CTRL` (R38). -/
  cfgCtrl : Word
  /-- `CFG_MTU` (R39). -/
  cfgMtu : Word
  /-- `CFG_PORTS` (R40). -/
  cfgPorts : Word
  /-- `CFG_SRC_SEQ` (R40). -/
  cfgSrcSeq : Word
  /-- `CFG_DST_SEQ` (R40). -/
  cfgDstSeq : Word
  /-- `CFG_SRC_MAC` (R41). -/
  cfgSrcMac : Dword
  /-- `CFG_DST_MAC` (R41). -/
  cfgDstMac : Dword
  /-- `CFG_SRC_ADDR` (R41). -/
  cfgSrcAddr : BitVec 128
  /-- `CFG_DST_ADDR` (R41). -/
  cfgDstAddr : BitVec 128
  /-- `CFG_VLAN[i]` (R42); only `i < VLAN_MAX` is mapped. -/
  cfgVlan : Vector Word 15
  /-- `CLK_US` (R23). -/
  clkUs : Dword
  /-- `DELAY_US` (R24). -/
  delayUs : Dword
  /-- `OUT` (R25). -/
  out : List Byte
  /-- `REC_COUNT` (R25). -/
  recCount : Dword
  /-- `SEED[s]` (R31). -/
  seed : Vector Dword 8
  /-- `GEN[s]` (R31). -/
  gen : Vector Dword 8
  /-- `ctx[c]` (R26); only `c < NCTX` is reachable (log entry 12). -/
  ctxs : Vector Context 16
  /-- The host's moves still to come, the next first (R20, R21). MODEL'S OWN, log entry 2. -/
  moves : List HostMove
  /-- What the host last got back (R90). MODEL'S OWN, log entry 3. -/
  reply : HostReply
  deriving DecidableEq, Repr

/-- The state after a reset of an FSB with parameters `p` (R230), after `epoch` earlier resets. -/
def State.resetWith (p : Params) (epoch : Nat) : State where
  params := p
  status := 0#32
  result := 0#64
  arg := 0#64
  plen := 0#32
  pbuf := []
  epoch := epoch
  cfgTsSec := p.tsDefaultSec
  cfgTsUsec := p.tsDefaultUsec
  cfgDelayUs := p.delayDefaultUs
  cfgCtrl := 0#32
  cfgMtu := p.mtuDefault.setWidth 32
  cfgPorts := 0#32
  cfgSrcSeq := 0#32
  cfgDstSeq := 0#32
  cfgSrcMac := 0#64
  cfgDstMac := 0#64
  cfgSrcAddr := 0#128
  cfgDstAddr := 0#128
  cfgVlan := Vector.replicate 15 0#32
  clkUs := p.tsDefaultSec.setWidth 64 * 1000000#64 + p.tsDefaultUsec.setWidth 64
  delayUs := p.delayDefaultUs
  out := []
  recCount := 0#64
  seed := p.seedDefault
  gen := p.seedDefault
  ctxs := Vector.replicate 16 Context.zero
  moves := []
  reply := .none

/-- The machine right after its first reset, with the parameter values R8 decides (R230). -/
def State.reset : State := State.resetWith Params.default 0

end Sys2Proof.Machine
end

