-- ==== Sys2Proof/Machine/Flags.lean ====
section
/-! DEFINITION. The FSB's flags: the fields of `STATUS` (R36) with the fault codes of R210, and the TCP flag byte (R173)
with the sequence increment (R172) of a flag set. -/

namespace Sys2Proof.Machine

/-- The code of a fault (R210). -/
def faultByte : FaultCode → Byte
  | .optionInvalid => 0x01#8
  | .addressFormat => 0x02#8
  | .badState => 0x03#8
  | .segImpossible => 0x04#8
  | .badCtx => 0x05#8
  | .badOpcode => 0x06#8
  | .badCommand => 0x07#8
  | .payloadLen => 0x08#8
  | .outOverflow => 0x09#8

/-- `STATUS.CODE`, bits [7:0] (R36). -/
def statusCode (st : Word) : Byte := st.extractLsb' 0 8

/-- `STATUS.STICKY`, bit 8 (R36). -/
def statusSticky (st : Word) : Bool := st.getLsbD 8

/-- `STATUS.LAST_OPC`, bits [23:16] (R36). -/
def statusLastOpc (st : Word) : Byte := st.extractLsb' 16 8

/-- A `STATUS` word with the given fields; its other bits read as 0 (R36). -/
def statusWord (lastOpc : Byte) (sticky : Bool) (code : Byte) : Word :=
  0#8 ++ lastOpc ++ 0#7 ++ BitVec.ofBool sticky ++ code

/-- `STATUS` after a command that completes: `CODE = OK`, `LAST_OPC`, and `STICKY` kept (R36, R214). -/
def statusOk (old : Word) (opc : Byte) : Word := statusWord opc (statusSticky old) 0x00#8

/-- `STATUS` after a command that faults: the code, `LAST_OPC` and `STICKY = 1` (R36, R212). -/
def statusFault (opc : Byte) (e : FaultCode) : Word := statusWord opc true (faultByte e)

/-- `flagbyte(flags)`: an integer sum, not an OR (R173). -/
def flagByte (fl : Flags) : Byte :=
  (if fl.syn then 0x02#8 else 0x10#8) + (if fl.synAck then 0x02#8 else 0#8) + (if fl.fin then 0x01#8 else 0#8)
    + (if fl.rst then 0x04#8 else 0#8)

/-- "plus 1 more if any of `SYN`, `SYN_ACK`, or `FIN` is set" (R172). -/
def seqIncrement (fl : Flags) : Nat := if fl.syn || fl.synAck || fl.fin then 1 else 0

end Sys2Proof.Machine
end

