-- ==== Sys2Proof/Machine/Ops.lean ====
section
/-! DEFINITION. The shared operations on the state: the payload buffer, the output stream, the contexts, the generator
streams, and ending a command, by completing or by the one fault operation of R212 and R213. -/

namespace Sys2Proof.Machine

/-- The byte the host wrote last at an index, `none` where it has written none since reset: what an unlisted index reads
as (R61; log entry 5). -/
def Memory.lookup : List Host.Cell → Nat → Option Byte
  | [], _ => none
  | (x, v) :: rest, a => if a = x then some v else Memory.lookup rest a

/-- A byte write, in rising order of the indices. -/
def Memory.store : List Host.Cell → Nat → Byte → List Host.Cell
  | [], a, b => [(a, b)]
  | (x, v) :: rest, a, b =>
    if a < x then (a, b) :: (x, v) :: rest
    else if a = x then (a, b) :: rest
    else (x, v) :: Memory.store rest a b

/-- The canonical form: indices strictly rising. An unlisted index reads as `none`, which no entry holds. -/
def Memory.wf : List Host.Cell → Bool
  | [] => true
  | [_] => true
  | (x, _) :: (y, v) :: rest => decide (x < y) && Memory.wf ((y, v) :: rest)

/-- The byte `PBUF[a]` holds: what the host wrote, or the unspecified byte of the last reset (R47, I14). -/
def State.pbufByte (s : State) (a : Nat) : Byte :=
  (Memory.lookup s.pbuf a).getD (Config.pbufInit s.epoch a)

/-- A host write of one payload-buffer byte (R34, R60). -/
def State.storePbuf (s : State) (a : Nat) (b : Byte) : State := { s with pbuf := Memory.store s.pbuf a b }

/-- `PbufRead(i, n)` (R61). -/
def pbufRead (s : State) (i n : Nat) : List Byte := (List.range n).map fun j => s.pbufByte (i + j)

/-- `OUT_LEN = len(OUT)`, a 64-bit register (R25; log entry 9). -/
def State.outLen (s : State) : Dword := BitVec.ofNat 64 s.out.length

/-- Whether an append of `n` bytes would exceed `OUT_MAX` (R63). -/
def State.outFull (s : State) (n : Nat) : Bool :=
  match s.params.outMax with
  | none => false
  | some m => decide (m < s.out.length + n)

/-- `OutAppend(b)` (R63). -/
def outAppend (b : List Byte) (s : State) : Except FaultCode State :=
  if s.outFull b.length then .error .outOverflow else .ok { s with out := s.out ++ b }

/-- `ctx[c]` (R26). -/
def State.ctx (s : State) (c : CtxIdx) : Context := s.ctxs.get c

/-- `ctx[c] <- x` (R13). -/
def State.setCtx (s : State) (c : CtxIdx) (x : Context) : State := { s with ctxs := s.ctxs.set c.val x c.isLt }

/-- `ctx[c].lstate <- l` (R13). -/
def State.setLstate (s : State) (c : CtxIdx) (l : LState) : State := s.setCtx c { s.ctx c with lstate := l }

/-- One step of the linear-congruential generator: `(LCG_A * g + LCG_C) mod 2^64` (R110). -/
def lcgNext (p : Params) (g : Dword) : Dword := p.lcgA * g + p.lcgC

/-- `draw(s)` (R110). -/
def draw (k : StreamIdx) (s : State) : Dword × State :=
  let v := lcgNext s.params (s.gen.get k)
  (v, { s with gen := s.gen.set k.val v k.isLt })

/-- `field(s, w)`: the top `w` bits of one output, or for `w > 64` two outputs, the first high (R111). -/
def fieldDraw (k : StreamIdx) (w : Nat) (s : State) : BitVec w × State :=
  if w ≤ 64 then
    let d := draw k s
    (d.1.extractLsb' (64 - w) w, d.2)
  else
    let hi := draw k s
    let lo := draw k hi.2
    ((hi.1 ++ lo.1).setWidth w, lo.2)

/-- RAISING A FAULT (R212, R213): "every state change the command made is discarded and only STATUS is written". `s` is
the state before the command. -/
def State.raise (s : State) (opc : Byte) (e : FaultCode) : State := { s with status := statusFault opc e }

/-- Completing a command: `STATUS.CODE <- OK` (R36). -/
def State.complete (s : State) (opc : Byte) : State := { s with status := statusOk s.status opc }

/-- How every command ends: the state it made, completed, or the state before it, with the fault raised (R213). -/
def finish (opc : Byte) (s : State) (r : Except FaultCode State) : Host.Outcome State Fault Refusal :=
  match r with
  | .ok t => .next (t.complete opc)
  | .error e => .next (s.raise opc e)

/-- The check of R83 that a command's context exists, before the command's own rule. Decoding makes it too; here it
covers a command that did not come through the decoder (log entry 10). -/
def withCtx (c : CtxIdx) (s : State) (r : Except FaultCode State) : Except FaultCode State :=
  if c.val < s.params.nctx then r else .error .badCtx

end Sys2Proof.Machine
end

