-- ==== Sys2Proof/Machine/Operands.lean ====
section
/-! DEFINITION. Operand assembly (R84) beyond the command word, and the direction's endpoints (R157). -/

namespace Sys2Proof.Machine

/-- `data = PbufRead(0, PLEN)`, the payload of EMIT_CLIENT, EMIT_SERVER and BUILD (R61, R84). -/
def State.payload (s : State) : List Byte := pbufRead s 0 s.plen.toNat

/-- The check `PLEN > PAYLOAD_MAX` that precedes a read of the payload (R61, R210 code `PAYLOAD_LEN`). -/
def State.payloadTooLong (s : State) : Bool := decide (s.params.payloadMax < s.plen.toNat)

/-- `S`, the sending endpoint (R157). -/
def Context.sender (x : Context) : Dir → Endpoint
  | .client => x.client
  | .server => x.server

/-- `D`, the receiving endpoint (R157). -/
def Context.receiver (x : Context) : Dir → Endpoint
  | .client => x.server
  | .server => x.client

/-- A write of the sending endpoint (R157, R172). -/
def Context.setSender (x : Context) (dir : Dir) (e : Endpoint) : Context :=
  match dir with
  | .client => { x with client := e }
  | .server => { x with server := e }

/-- The tags in use, outer to inner: the first `vlan_cnt` (R26). -/
def Context.tags (x : Context) : List (BitVec 16) := x.vlan.toList.take x.vlanCnt.toNat

end Sys2Proof.Machine
end

