-- ==== Sys2Proof/Machine/FrameBuilder.lean ====
section
/-! DEFINITION. The frame builder (42_frame_builder.md): header-length probe, segmentation, direction, link, network and
transport layers, checksums, sequence advance and record framing, in the spec's step order. -/

namespace Sys2Proof.Machine

/-- `IPH` (42_frame_builder.md's opening). -/
def Context.ipHeaderLen (x : Context) : Nat :=
  match x.ipver with
  | .v4 => 20
  | .v6 => 40

/-- `TH` (42_frame_builder.md's opening). -/
def Context.transportHeaderLen (x : Context) : Nat :=
  match x.transport with
  | .tcp => 20
  | .udp => 8

/-- `proto`: 6 for TCP and 17 for UDP (R166). -/
def Context.protocol (x : Context) : Byte :=
  match x.transport with
  | .tcp => 6#8
  | .udp => 17#8

/-- `E = 14 + 4·V`, the offset of the network header in the frame. -/
def Context.linkLen (x : Context) : Nat := 14 + 4 * x.vlanCnt.toNat

/-- `OH(c) = 14 + 4·V + IPH + TH` (R150). -/
def Context.overhead (x : Context) : Nat := x.linkLen + x.ipHeaderLen + x.transportHeaderLen

/-- The tags after the MAC pair: 0x8100 before the first, 0x9100 before each nested one, outer first (R158). -/
def tagBytes : List (BitVec 16) → List Byte
  | [] => []
  | t :: ts => be16 0x8100#16 ++ be16 t ++ ts.flatMap fun u => be16 0x9100#16 ++ be16 u

/-- The EtherType (R158). -/
def Context.etherType (x : Context) : BitVec 16 :=
  match x.ipver with
  | .v4 => 0x0800#16
  | .v6 => 0x86DD#16

/-- Ethernet header and VLAN tags (R158). -/
def linkHeader (x : Context) (dir : Dir) : List Byte :=
  beN (x.receiver dir).mac 6 ++ beN (x.sender dir).mac 6 ++ tagBytes x.tags ++ be16 x.etherType

/-- The source and destination addresses as they stand in the network header, immediately before the transport header:
`be32` of bits [31:0] for IPv4 (R160), 16 bytes each for IPv6 (R164). -/
def addressBytes (x : Context) (dir : Dir) : List Byte :=
  match x.ipver with
  | .v4 => be32 ((x.sender dir).addr.setWidth 32) ++ be32 ((x.receiver dir).addr.setWidth 32)
  | .v6 => beN (x.sender dir).addr 16 ++ beN (x.receiver dir).addr 16

/-- The IPv4 header with a given checksum field, for a chunk of `n` bytes (R160, R161, R163). -/
def ipv4HeaderWith (p : Params) (x : Context) (dir : Dir) (ident : BitVec 16) (n : Nat) (ck : BitVec 16) : List Byte :=
  [0x45#8, 0x00#8] ++ be16 (BitVec.ofNat 16 (20 + x.transportHeaderLen + n)) ++ be16 ident ++ be16 0#16
    ++ [p.ipv4Ttl, x.protocol] ++ be16 ck ++ addressBytes x dir

/-- The IPv4 header: laid out with a placeholder of 0, then its checksum stored (R160). -/
def ipv4Header (p : Params) (x : Context) (dir : Dir) (ident : BitVec 16) (n : Nat) : List Byte :=
  ipv4HeaderWith p x dir ident n (cks (ipv4HeaderWith p x dir ident n 0#16) 0)

/-- The IPv6 header for a chunk of `n` bytes (R164, R165). -/
def ipv6Header (p : Params) (x : Context) (dir : Dir) (n : Nat) : List Byte :=
  be32 0x60000000#32 ++ be16 (BitVec.ofNat 16 (x.transportHeaderLen + n)) ++ [x.protocol, p.ipv6HopLimit]
    ++ addressBytes x dir

/-- The network header (R156). `ident` is the drawn identification, which only IPv4 carries (R162). -/
def networkHeader (p : Params) (x : Context) (dir : Dir) (ident : BitVec 16) (n : Nat) : List Byte :=
  match x.ipver with
  | .v4 => ipv4Header p x dir ident n
  | .v6 => ipv6Header p x dir n

/-- The acknowledgment number: 0 if `SYN ∈ flags`, else the peer's running sequence (R171). -/
def ackNumber (x : Context) (dir : Dir) (fl : Flags) : Word := if fl.syn then 0#32 else (x.receiver dir).seq

/-- The TCP header with a given checksum field, followed by the chunk (R170). -/
def tcpSegmentWith (p : Params) (x : Context) (dir : Dir) (fl : Flags) (pay : List Byte) (ck : BitVec 16) : List Byte :=
  be16 (x.sender dir).port ++ be16 (x.receiver dir).port ++ be32 (x.sender dir).seq ++ be32 (ackNumber x dir fl)
    ++ [0x50#8, flagByte fl] ++ be16 p.tcpWindow ++ be16 ck ++ be16 0#16 ++ pay

/-- The TCP checksum: over the addresses through the end of the segment, its own field at 0, seeded with
`6 + tcp_segment_length` (R175). The addresses stand immediately before the segment, so this is R175's range
`F[a0 : T + L]`. -/
def tcpChecksum (p : Params) (x : Context) (dir : Dir) (fl : Flags) (pay : List Byte) : BitVec 16 :=
  cks (addressBytes x dir ++ tcpSegmentWith p x dir fl pay 0#16) (6 + (20 + pay.length))

/-- The TCP segment as delivered (R170, R175). -/
def tcpSegment (p : Params) (x : Context) (dir : Dir) (fl : Flags) (pay : List Byte) : List Byte :=
  tcpSegmentWith p x dir fl pay (tcpChecksum p x dir fl pay)

/-- The UDP header followed by the chunk; the checksum field is 0 (R177, R178). -/
def udpSegment (x : Context) (dir : Dir) (pay : List Byte) : List Byte :=
  be16 (x.sender dir).port ++ be16 (x.receiver dir).port ++ be16 (BitVec.ofNat 16 (8 + pay.length)) ++ be16 0#16 ++ pay

/-- The transport header and the chunk (R156). -/
def transportSegment (p : Params) (x : Context) (dir : Dir) (fl : Flags) (pay : List Byte) : List Byte :=
  match x.transport with
  | .tcp => tcpSegment p x dir fl pay
  | .udp => udpSegment x dir pay

/-- One frame (R156, R179): Ethernet, network header, transport header, payload. -/
def frameBytes (p : Params) (x : Context) (dir : Dir) (fl : Flags) (ident : BitVec 16) (pay : List Byte) : List Byte :=
  linkHeader x dir ++ networkHeader p x dir ident pay.length ++ transportSegment p x dir fl pay

/-- The sender's sequence number after a frame of `n` payload bytes, modulo 2^32 (R172). -/
def seqAfter (seq : Word) (fl : Flags) (n : Nat) : Word := seq + BitVec.ofNat 32 n + BitVec.ofNat 32 (seqIncrement fl)

/-- The context after a frame: for TCP the sender's sequence advances (R172); for UDP nothing changes (R177). -/
def Context.advance (x : Context) (dir : Dir) (fl : Flags) (n : Nat) : Context :=
  match x.transport with
  | .tcp => x.setSender dir { x.sender dir with seq := seqAfter (x.sender dir).seq fl n }
  | .udp => x

/-- The IPv4 identification of the next frame, drawn on stream 4; an IPv6 frame draws nothing (R162). -/
def drawIdent (x : Context) (s : State) : BitVec 16 × State :=
  match x.ipver with
  | .v4 => fieldDraw 4 16 s
  | .v6 => (0#16, s)

/-- The record header (R182): seconds, microseconds and twice the frame's length, little-endian. -/
def recordHeader (clk : Dword) (len : Nat) : List Byte :=
  le32 (BitVec.ofNat 32 (clk.toNat / 1000000)) ++ le32 (BitVec.ofNat 32 (clk.toNat % 1000000))
    ++ le32 (BitVec.ofNat 32 len) ++ le32 (BitVec.ofNat 32 len)

/-- A record: a frame preceded by its 16-byte record header (R15, R182). -/
def recordBytes (clk : Dword) (f : List Byte) : List Byte := recordHeader clk f.length ++ f

/-- Record framing (R181 to R183): the clock advances, the record is appended, the record count goes up. -/
def emitRecord (f : List Byte) (s : State) : Except FaultCode State :=
  match outAppend (recordBytes (s.clkUs + s.delayUs) f) s with
  | .error e => .error e
  | .ok t => .ok { t with clkUs := s.clkUs + s.delayUs, recCount := s.recCount + 1#64 }

/-- `BuildFrame(c, dir, flags, p)` (R156), its effects in the order of R184. -/
def buildFrame (c : CtxIdx) (dir : Dir) (fl : Flags) (pay : List Byte) (s : State) : Except FaultCode State :=
  let x := s.ctx c
  let d := drawIdent x s
  let f := frameBytes s.params x dir fl d.1 pay
  emitRecord f (d.2.setCtx c (x.advance dir fl pay.length))

/-- Chunk `i` is `data[i·k : min(n, (i+1)·k)]`, for `i` below `ceil(n / k)` (R152, R153). -/
def chunks (k : Nat) (data : List Byte) : List (List Byte) :=
  (List.range ((data.length + k - 1) / k)).map fun i => slice data (i * k) (min data.length ((i + 1) * k))

/-- The header-length probe and segmentation (R152, R154): the chunks a payload is carried in, for overhead `oh` and
MTU `m`. -/
def segments (oh m : Nat) (data : List Byte) : Except FaultCode (List (List Byte)) :=
  if oh + data.length ≤ m then .ok [data]
  else if m ≤ oh then .error .segImpossible
  else .ok (chunks (m - oh) data)

/-- One frame per chunk, in order, with the same flags (R152, R155). -/
def emitChunks (c : CtxIdx) (dir : Dir) (fl : Flags) : List (List Byte) → State → Except FaultCode State
  | [], s => .ok s
  | pay :: rest, s =>
    match buildFrame c dir fl pay s with
    | .error e => .error e
    | .ok t => emitChunks c dir fl rest t

/-- `Emit(c, dir, flags, data)` (R152). -/
def emit (c : CtxIdx) (dir : Dir) (fl : Flags) (data : List Byte) (s : State) : Except FaultCode State :=
  match segments (s.ctx c).overhead (s.ctx c).mtu.toNat data with
  | .error e => .error e
  | .ok pays => emitChunks c dir fl pays s

/-- An emission whose state is then emitted into again: the second starts where the first ended, and a fault of either
is the fault of both (R128, R133, R213). -/
def andThen (r : Except FaultCode State) (f : State → Except FaultCode State) : Except FaultCode State :=
  match r with
  | .error e => .error e
  | .ok s => f s

/-- The payload commands' common part (R130, R131, R185): `PAYLOAD_LEN`, then `BAD_STATE`, then `Emit`. -/
def emitPayload (c : CtxIdx) (dir : Dir) (fl : Flags) (s : State) : Except FaultCode State :=
  if s.payloadTooLong then .error .payloadLen
  else if (s.ctx c).lstate ≠ .established then .error .badState
  else emit c dir fl s.payload s

end Sys2Proof.Machine
end

