-- ==== Sys2Proof/Machine/Builder.lean ====
section
/-! DEFINITION. BUILD, the frame builder's own command (R185). -/

namespace Sys2Proof.Machine

/-- BUILD c, dir, flags (R185): as the payload commands, with the direction and flags of the word; `lstate` is never
changed. -/
def execBuild (c : CtxIdx) (dir : Dir) (fl : Flags) (s : State) : Host.Outcome State Fault Refusal :=
  finish 0x15#8 s (withCtx c s (emitPayload c dir fl s))

end Sys2Proof.Machine
end

