-- ==== Sys2Proof/Machine/Connection.lean ====
section
/-! DEFINITION. The connection commands (41_connection.md): CREATE, EMIT_CLIENT, EMIT_SERVER, CLOSE and RESET. -/

namespace Sys2Proof.Machine

/-- The first check that holds decides the fault (R127, R215). -/
def firstFault : List (Bool × FaultCode) → Option FaultCode
  | [] => none
  | (bad, e) :: rest => if bad then some e else firstFault rest

/-- `validate(k)` with `k = CFG_CTRL`, its checks in R127's order. -/
def validate (s : State) : Option FaultCode :=
  let k := s.cfgCtrl
  firstFault [
    (k.getLsbD 3 || k.extractLsb' 16 16 != 0#16, .optionInvalid),
    (decide (s.params.vlanMax < (k.extractLsb' 4 4).toNat), .optionInvalid),
    (s.cfgMtu.extractLsb' 16 16 != 0#16 || s.cfgMtu.extractLsb' 0 16 == 0#16, .optionInvalid),
    (k.getLsbD 8 && s.cfgSrcMac.extractLsb' 48 16 != 0#16, .optionInvalid),
    (k.getLsbD 9 && s.cfgDstMac.extractLsb' 48 16 != 0#16, .optionInvalid),
    ((s.cfgVlan.toList.take (k.extractLsb' 4 4).toNat).any fun t => t.extractLsb' 16 16 != 0#16, .optionInvalid),
    (decide (2 ≤ (k.extractLsb' 1 2).toNat), .addressFormat),
    (k.extractLsb' 1 2 == 0#2 && k.getLsbD 10 && s.cfgSrcAddr.extractLsb' 32 96 != 0#96, .addressFormat),
    (k.extractLsb' 1 2 == 0#2 && k.getLsbD 11 && s.cfgDstAddr.extractLsb' 32 96 != 0#96, .addressFormat)]

/-- A field of a new context: the configured value where it is given, else the next value of its stream (R126). -/
def resolve (given : Bool) {w : Nat} (v : BitVec w) (k : StreamIdx) (s : State) : BitVec w × State :=
  if given then (v, s) else fieldDraw k w s

/-- An address: `aw` bits, 128 for IPv6 and 32 for IPv4, held zero-extended (R28, R125). -/
def resolveAddr (ver : IpVer) (given : Bool) (v : BitVec 128) (s : State) : BitVec 128 × State :=
  match ver with
  | .v6 => resolve given v 1 s
  | .v4 =>
    let r := resolve given (v.setWidth 32) 1 s
    (r.1.setWidth 128, r.2)

/-- The tag slots of a new context: `CFG_VLAN[i][15:0]` for `i < V`, 0 above (R125). -/
def copyTags (cfg : Vector Word 15) (n : Nat) : Vector (BitVec 16) 15 :=
  cfg.mapFinIdx fun i t _ => if i < n then t.extractLsb' 0 16 else 0#16

/-- The new context of CREATE and the state after its draws (R125): the fields not drawn, then the eight endpoint fields
in R126's fixed order. -/
def newContext (s : State) : Context × State :=
  let k := s.cfgCtrl
  let ver : IpVer := if k.extractLsb' 1 2 == 1#2 then .v6 else .v4
  let cliMac := resolve (k.getLsbD 8) (s.cfgSrcMac.setWidth 48) 0 s
  let srvMac := resolve (k.getLsbD 9) (s.cfgDstMac.setWidth 48) 0 cliMac.2
  let cliAddr := resolveAddr ver (k.getLsbD 10) s.cfgSrcAddr srvMac.2
  let srvAddr := resolveAddr ver (k.getLsbD 11) s.cfgDstAddr cliAddr.2
  let cliPort := resolve (k.getLsbD 12) (s.cfgPorts.extractLsb' 0 16) 2 srvAddr.2
  let srvPort := resolve (k.getLsbD 13) (s.cfgPorts.extractLsb' 16 16) 2 cliPort.2
  let cliSeq := resolve (k.getLsbD 14) s.cfgSrcSeq 3 srvPort.2
  let srvSeq := resolve (k.getLsbD 15) s.cfgDstSeq 3 cliSeq.2
  ({ transport := if k.getLsbD 0 then .udp else .tcp
     ipver := ver
     mtu := s.cfgMtu.extractLsb' 0 16
     vlanCnt := k.extractLsb' 4 4
     vlan := copyTags s.cfgVlan (k.extractLsb' 4 4).toNat
     lstate := .init
     server := ⟨srvMac.1, srvAddr.1, srvPort.1, srvSeq.1⟩
     client := ⟨cliMac.1, cliAddr.1, cliPort.1, cliSeq.1⟩ },
   srvSeq.2)

/-- `handshake(c)` (R128). -/
def handshake (c : CtxIdx) (s : State) : Except FaultCode State :=
  andThen (andThen (emit c .client .SYN [] s) (emit c .server .SYN_ACK [])) (emit c .client .none [])

/-- The part of CREATE after its checks (R125): the context is loaded, and for TCP the handshake is emitted through
`HANDSHAKING`. -/
def openContext (c : CtxIdx) (s : State) : Except FaultCode State :=
  let n := newContext s
  let loaded := n.2.setCtx c n.1
  match n.1.transport with
  | .udp => .ok (loaded.setLstate c .established)
  | .tcp =>
    andThen (handshake c (loaded.setLstate c .handshaking)) fun t => .ok (t.setLstate c .established)

/-- The command part of CREATE (R125): `BAD_STATE`, then `validate`, then the new context. -/
def createContext (c : CtxIdx) (s : State) : Except FaultCode State :=
  if (s.ctx c).lstate ≠ .init ∧ (s.ctx c).lstate ≠ .closed then .error .badState
  else
    match validate s with
    | some e => .error e
    | none => openContext c s

/-- CREATE c (R125). -/
def execCreate (c : CtxIdx) (s : State) : Host.Outcome State Fault Refusal :=
  finish 0x10#8 s (withCtx c s (createContext c s))

/-- EMIT_CLIENT c (R130). -/
def execEmitClient (c : CtxIdx) (s : State) : Host.Outcome State Fault Refusal :=
  finish 0x11#8 s (withCtx c s (emitPayload c .client .none s))

/-- EMIT_SERVER c (R131). -/
def execEmitServer (c : CtxIdx) (s : State) : Host.Outcome State Fault Refusal :=
  finish 0x12#8 s (withCtx c s (emitPayload c .server .none s))

/-- The three frames of a TCP close (R133). -/
def closeFrames (c : CtxIdx) (s : State) : Except FaultCode State :=
  andThen (andThen (emit c .client .FIN [] s) (emit c .server .FIN [])) (emit c .client .none [])

/-- The command part of CLOSE (R133, R136). -/
def closeContext (c : CtxIdx) (s : State) : Except FaultCode State :=
  if (s.ctx c).lstate ≠ .established then .error .badState
  else
    match (s.ctx c).transport with
    | .udp => .ok (s.setLstate c .closed)
    | .tcp => andThen (closeFrames c (s.setLstate c .closing)) fun t => .ok (t.setLstate c .closed)

/-- CLOSE c (R133). -/
def execClose (c : CtxIdx) (s : State) : Host.Outcome State Fault Refusal :=
  finish 0x13#8 s (withCtx c s (closeContext c s))

/-- The command part of RESET (R135, R136). -/
def resetContext (c : CtxIdx) (s : State) : Except FaultCode State :=
  if (s.ctx c).lstate ≠ .established then .error .badState
  else
    match (s.ctx c).transport with
    | .udp => .ok (s.setLstate c .closed)
    | .tcp => andThen (emit c .client .RST [] (s.setLstate c .reset)) fun t => .ok (t.setLstate c .closed)

/-- RESET c (R135). -/
def execReset (c : CtxIdx) (s : State) : Host.Outcome State Fault Refusal :=
  finish 0x14#8 s (withCtx c s (resetContext c s))

end Sys2Proof.Machine
end

