-- ==== Sys2Proof/Machine/Registers.lean ====
section
/-! DEFINITION. The register map (R44, R45) and the host's whole-register accesses (R62). -/

namespace Sys2Proof.Machine

/-- The registers of R44 and, per context, of R45. -/
inductive Reg where
  | cmd | status | result | arg | plen
  | cfgTsSec | cfgTsUsec | cfgDelayUs | clkUs | delayUs | outLen | recCount
  | seed (k : StreamIdx)
  | gen (k : StreamIdx)
  | cfgCtrl | cfgMtu | cfgPorts | cfgSrcSeq | cfgDstSeq | cfgSrcMac | cfgDstMac | cfgSrcAddr | cfgDstAddr
  | cfgVlan (i : Fin 15)
  | ctxCtrl (c : CtxIdx)
  | ctxMtu (c : CtxIdx)
  | ctxPorts (c : CtxIdx)
  | ctxCliSeq (c : CtxIdx)
  | ctxSrvSeq (c : CtxIdx)
  | ctxCliMac (c : CtxIdx)
  | ctxSrvMac (c : CtxIdx)
  | ctxCliAddr (c : CtxIdx)
  | ctxSrvAddr (c : CtxIdx)
  | ctxVlan (c : CtxIdx) (i : Fin 15)
  deriving DecidableEq, Repr

/-- Access kinds of R44. -/
inductive Access where
  | rw
  | ro
  | wo
  deriving DecidableEq, Repr

/-- The base `B = 0x800 + 0x80·c` of context block `c` (R45). -/
def ctxBase (c : CtxIdx) : Nat := 0x800 + 0x80 * c.val

/-- A register's byte address (R44, R45). -/
def Reg.addr : Reg → Nat
  | .cmd => 0x000
  | .status => 0x004
  | .result => 0x008
  | .arg => 0x010
  | .plen => 0x018
  | .cfgTsSec => 0x020
  | .cfgTsUsec => 0x024
  | .cfgDelayUs => 0x028
  | .clkUs => 0x030
  | .delayUs => 0x038
  | .outLen => 0x040
  | .recCount => 0x048
  | .seed k => 0x080 + 8 * k.val
  | .gen k => 0x0C0 + 8 * k.val
  | .cfgCtrl => 0x100
  | .cfgMtu => 0x104
  | .cfgPorts => 0x108
  | .cfgSrcSeq => 0x110
  | .cfgDstSeq => 0x114
  | .cfgSrcMac => 0x118
  | .cfgDstMac => 0x120
  | .cfgSrcAddr => 0x128
  | .cfgDstAddr => 0x138
  | .cfgVlan i => 0x150 + 4 * i.val
  | .ctxCtrl c => ctxBase c
  | .ctxMtu c => ctxBase c + 0x04
  | .ctxPorts c => ctxBase c + 0x08
  | .ctxCliSeq c => ctxBase c + 0x10
  | .ctxSrvSeq c => ctxBase c + 0x14
  | .ctxCliMac c => ctxBase c + 0x18
  | .ctxSrvMac c => ctxBase c + 0x20
  | .ctxCliAddr c => ctxBase c + 0x28
  | .ctxSrvAddr c => ctxBase c + 0x38
  | .ctxVlan c i => ctxBase c + 0x50 + 4 * i.val

/-- A register's width in bytes (R44, R45). -/
def Reg.bytes : Reg → Nat
  | .cmd => 4
  | .status => 4
  | .result => 8
  | .arg => 8
  | .plen => 4
  | .cfgTsSec => 4
  | .cfgTsUsec => 4
  | .cfgDelayUs => 8
  | .clkUs => 8
  | .delayUs => 8
  | .outLen => 8
  | .recCount => 8
  | .seed _ => 8
  | .gen _ => 8
  | .cfgCtrl => 4
  | .cfgMtu => 4
  | .cfgPorts => 4
  | .cfgSrcSeq => 4
  | .cfgDstSeq => 4
  | .cfgSrcMac => 8
  | .cfgDstMac => 8
  | .cfgSrcAddr => 16
  | .cfgDstAddr => 16
  | .cfgVlan _ => 4
  | .ctxCtrl _ => 4
  | .ctxMtu _ => 4
  | .ctxPorts _ => 4
  | .ctxCliSeq _ => 4
  | .ctxSrvSeq _ => 4
  | .ctxCliMac _ => 8
  | .ctxSrvMac _ => 8
  | .ctxCliAddr _ => 16
  | .ctxSrvAddr _ => 16
  | .ctxVlan _ _ => 4

/-- A register's access kind (R44; every register of a context block is RO, R45). -/
def Reg.access : Reg → Access
  | .cmd => .wo
  | .status => .ro
  | .result => .ro
  | .arg => .rw
  | .plen => .rw
  | .cfgTsSec => .rw
  | .cfgTsUsec => .rw
  | .cfgDelayUs => .rw
  | .clkUs => .ro
  | .delayUs => .ro
  | .outLen => .ro
  | .recCount => .ro
  | .seed _ => .rw
  | .gen _ => .ro
  | .cfgCtrl => .rw
  | .cfgMtu => .rw
  | .cfgPorts => .rw
  | .cfgSrcSeq => .rw
  | .cfgDstSeq => .rw
  | .cfgSrcMac => .rw
  | .cfgDstMac => .rw
  | .cfgSrcAddr => .rw
  | .cfgDstAddr => .rw
  | .cfgVlan _ => .rw
  | .ctxCtrl _ => .ro
  | .ctxMtu _ => .ro
  | .ctxPorts _ => .ro
  | .ctxCliSeq _ => .ro
  | .ctxSrvSeq _ => .ro
  | .ctxCliMac _ => .ro
  | .ctxSrvMac _ => .ro
  | .ctxCliAddr _ => .ro
  | .ctxSrvAddr _ => .ro
  | .ctxVlan _ _ => .ro

/-- The registers of one context block but its tag registers (R45). -/
def ctxRegs (c : CtxIdx) : List Reg :=
  [.ctxCtrl c, .ctxMtu c, .ctxPorts c, .ctxCliSeq c, .ctxSrvSeq c, .ctxCliMac c, .ctxSrvMac c, .ctxCliAddr c,
    .ctxSrvAddr c]

/-- R44's registers from `CMD` to `REC_COUNT`. -/
def sessionRegs : List Reg :=
  [.cmd, .status, .result, .arg, .plen, .cfgTsSec, .cfgTsUsec, .cfgDelayUs, .clkUs, .delayUs, .outLen, .recCount]

/-- R44's registers from `CFG_CTRL` to `CFG_DST_ADDR`. -/
def configRegs : List Reg :=
  [.cfgCtrl, .cfgMtu, .cfgPorts, .cfgSrcSeq, .cfgDstSeq, .cfgSrcMac, .cfgDstMac, .cfgSrcAddr, .cfgDstAddr]

/-- The registers an FSB with parameters `p` maps (R44, R45), a context block's tag registers after every block's other
registers. DESIGN CHOICE (log entry 8): with `VLAN_MAX` above 12 the list keeps the tag registers that meet the next
block, and those of context 15 that R45 puts at 0x1000 and above, past the 12-bit space. -/
def mappedRegs (p : Params) : List Reg :=
  let streams : List StreamIdx := List.finRange 8
  let slots : List (Fin 15) := (List.finRange 15).filter fun i => decide (i.val < p.vlanMax)
  let blocks : List CtxIdx := (List.finRange 16).filter fun c => decide (c.val < p.nctx)
  let tagRegs (c : CtxIdx) : List Reg := slots.map (Reg.ctxVlan c)
  [sessionRegs, streams.map Reg.seed, streams.map Reg.gen, configRegs, slots.map Reg.cfgVlan, blocks.flatMap ctxRegs,
    blocks.flatMap tagRegs].flatten

/-- `transport` as its bit (R26). -/
def transportBit : Transport → BitVec 1
  | .tcp => 0#1
  | .udp => 1#1

/-- `ipver` as its two bits (R26). -/
def ipverBits : IpVer → BitVec 2
  | .v4 => 0#2
  | .v6 => 1#2

/-- `lstate` as its three bits (R27). -/
def lstateBits : LState → BitVec 3
  | .init => 0#3
  | .handshaking => 1#3
  | .established => 2#3
  | .closing => 3#3
  | .reset => 4#3
  | .closed => 5#3

/-- `CTX_CTRL` (R45). -/
def ctxCtrlWord (x : Context) : Word :=
  0#21 ++ lstateBits x.lstate ++ x.vlanCnt ++ 0#1 ++ ipverBits x.ipver ++ transportBit x.transport

/-- A register's whole value, zero-extended (R62): reads of `CMD` return 0 (R33). -/
def Reg.read (r : Reg) (s : State) : BitVec 128 :=
  match r with
  | .cmd => 0#128
  | .status => s.status.setWidth 128
  | .result => s.result.setWidth 128
  | .arg => s.arg.setWidth 128
  | .plen => s.plen.setWidth 128
  | .cfgTsSec => s.cfgTsSec.setWidth 128
  | .cfgTsUsec => s.cfgTsUsec.setWidth 128
  | .cfgDelayUs => s.cfgDelayUs.setWidth 128
  | .clkUs => s.clkUs.setWidth 128
  | .delayUs => s.delayUs.setWidth 128
  | .outLen => s.outLen.setWidth 128
  | .recCount => s.recCount.setWidth 128
  | .seed k => (s.seed.get k).setWidth 128
  | .gen k => (s.gen.get k).setWidth 128
  | .cfgCtrl => s.cfgCtrl.setWidth 128
  | .cfgMtu => s.cfgMtu.setWidth 128
  | .cfgPorts => s.cfgPorts.setWidth 128
  | .cfgSrcSeq => s.cfgSrcSeq.setWidth 128
  | .cfgDstSeq => s.cfgDstSeq.setWidth 128
  | .cfgSrcMac => s.cfgSrcMac.setWidth 128
  | .cfgDstMac => s.cfgDstMac.setWidth 128
  | .cfgSrcAddr => s.cfgSrcAddr
  | .cfgDstAddr => s.cfgDstAddr
  | .cfgVlan i => (s.cfgVlan.get i).setWidth 128
  | .ctxCtrl c => (ctxCtrlWord (s.ctx c)).setWidth 128
  | .ctxMtu c => (s.ctx c).mtu.setWidth 128
  | .ctxPorts c => ((s.ctx c).server.port ++ (s.ctx c).client.port).setWidth 128
  | .ctxCliSeq c => (s.ctx c).client.seq.setWidth 128
  | .ctxSrvSeq c => (s.ctx c).server.seq.setWidth 128
  | .ctxCliMac c => (s.ctx c).client.mac.setWidth 128
  | .ctxSrvMac c => (s.ctx c).server.mac.setWidth 128
  | .ctxCliAddr c => (s.ctx c).client.addr
  | .ctxSrvAddr c => (s.ctx c).server.addr
  | .ctxVlan c i => ((s.ctx c).vlan.get i).setWidth 128

/-- A host write of a register's whole value: a reserved bit is stored as written (R35), a write of an RO register is
ignored (R44). A write of `CMD` issues a command (R33) and is not made here. -/
def Reg.write (r : Reg) (v : BitVec 128) (s : State) : State :=
  match r with
  | .cmd => s
  | .status => s
  | .result => s
  | .arg => { s with arg := v.setWidth 64 }
  | .plen => { s with plen := v.setWidth 32 }
  | .cfgTsSec => { s with cfgTsSec := v.setWidth 32 }
  | .cfgTsUsec => { s with cfgTsUsec := v.setWidth 32 }
  | .cfgDelayUs => { s with cfgDelayUs := v.setWidth 64 }
  | .clkUs => s
  | .delayUs => s
  | .outLen => s
  | .recCount => s
  | .seed k => { s with seed := s.seed.set k.val (v.setWidth 64) k.isLt }
  | .gen _ => s
  | .cfgCtrl => { s with cfgCtrl := v.setWidth 32 }
  | .cfgMtu => { s with cfgMtu := v.setWidth 32 }
  | .cfgPorts => { s with cfgPorts := v.setWidth 32 }
  | .cfgSrcSeq => { s with cfgSrcSeq := v.setWidth 32 }
  | .cfgDstSeq => { s with cfgDstSeq := v.setWidth 32 }
  | .cfgSrcMac => { s with cfgSrcMac := v.setWidth 64 }
  | .cfgDstMac => { s with cfgDstMac := v.setWidth 64 }
  | .cfgSrcAddr => { s with cfgSrcAddr := v }
  | .cfgDstAddr => { s with cfgDstAddr := v }
  | .cfgVlan i => { s with cfgVlan := s.cfgVlan.set i.val (v.setWidth 32) i.isLt }
  | .ctxCtrl _ => s
  | .ctxMtu _ => s
  | .ctxPorts _ => s
  | .ctxCliSeq _ => s
  | .ctxSrvSeq _ => s
  | .ctxCliMac _ => s
  | .ctxSrvMac _ => s
  | .ctxCliAddr _ => s
  | .ctxSrvAddr _ => s
  | .ctxVlan _ _ => s

/-- What a host access of `n` bytes at an address reaches. -/
inductive RegAccess where
  /-- A register, whole. -/
  | whole (r : Reg)
  /-- Only bytes that belong to no register: "every other address is unmapped" (R44). -/
  | unmapped
  /-- Part of a register, or bytes of several, or no byte: not an access the block has (R62). -/
  | partialReg
  /-- A byte past the register space (R60). -/
  | outside
  deriving DecidableEq, Repr

/-- Whether `n` bytes at `a` reach a byte of the register. -/
def Reg.overlaps (r : Reg) (a n : Nat) : Bool := decide (a < r.addr + r.bytes) && decide (r.addr < a + n)

/-- The access a host makes with `n` bytes at `addr` (R60, R62; log entry 6). DESIGN CHOICE (log entry 8): where two
registers stand at one address the first of `mappedRegs` is reached, and a register at 0x1000 or above is reached by no
access. -/
def regAccess (p : Params) (addr : BitVec 12) (n : Nat) : RegAccess :=
  let a := addr.toNat
  if 0x1000 < a + n then .outside
  else
    match (mappedRegs p).find? fun r => r.addr == a && r.bytes == n with
    | some r => .whole r
    | none => if n == 0 || (mappedRegs p).any fun r => r.overlaps a n then .partialReg else .unmapped

end Sys2Proof.Machine
end

