-- ==== Sys2Proof/Machine/Session.lean ====
section
/-! DEFINITION. The session commands (43_session.md): SESSION_INIT, SEED, DRAW, INSERT_DELAY and RENDER, and the capture
container. -/

namespace Sys2Proof.Machine

/-- The session SESSION_INIT starts (R195): clock and delay from the configuration, `OUT` empty, every context at its
reset value, every stream at its seed. -/
def State.newSession (s : State) : State :=
  { s with
    clkUs := s.cfgTsSec.setWidth 64 * 1000000#64 + s.cfgTsUsec.setWidth 64
    delayUs := s.cfgDelayUs
    out := []
    recCount := 0#64
    ctxs := Vector.replicate 16 Context.zero
    gen := s.seed }

/-- SESSION_INIT (R195). -/
def execSessionInit (s : State) : Host.Outcome State Fault Refusal :=
  finish 0x01#8 s (if 1000000 ≤ s.cfgTsUsec.toNat then .error .optionInvalid else .ok s.newSession)

/-- SEED s (R196): `SEED[s] <- ARG`, `GEN[s] <- ARG`. -/
def execSeed (k : StreamIdx) (s : State) : Host.Outcome State Fault Refusal :=
  finish 0x02#8 s (.ok { s with seed := s.seed.set k.val s.arg k.isLt, gen := s.gen.set k.val s.arg k.isLt })

/-- DRAW s (R197): `RESULT <- draw(s)`. -/
def execDraw (k : StreamIdx) (s : State) : Host.Outcome State Fault Refusal :=
  let d := draw k s
  finish 0x03#8 s (.ok { d.2 with result := d.1 })

/-- INSERT_DELAY (R198): `CLK_US <- (CLK_US + ARG) mod 2^64`. -/
def execInsertDelay (s : State) : Host.Outcome State Fault Refusal :=
  finish 0x04#8 s (.ok { s with clkUs := s.clkUs + s.arg })

/-- `GH`, the 24-byte container global header (R199). -/
def globalHeader : List Byte :=
  le32 0xA1B2C3D4#32 ++ le16 2#16 ++ le16 4#16 ++ le32 0#32 ++ le32 0#32 ++ le32 0x0000FFFF#32 ++ le32 1#32

/-- `Container() = GH ++ OUT` (R199). -/
def State.container (s : State) : List Byte := globalHeader ++ s.out

/-- RENDER (R199): of the block's state only STATUS is written; the host gets back the container bytes (R90). -/
def execRender (s : State) : Host.Outcome State Fault Refusal :=
  finish 0x05#8 s (.ok { s with reply := .container s.container })

end Sys2Proof.Machine
end

