-- ==== Sys2Proof/Machine/Dispatch.lean ====
section
/-! DEFINITION. Which meaning each command has. -/

namespace Sys2Proof.Machine

def exec (i : Instr) (s : State) : Host.Outcome State Fault Refusal :=
  match i with
  | .sessionInit => Sys2Proof.Machine.execSessionInit s
  | .seed k => Sys2Proof.Machine.execSeed k s
  | .draw k => Sys2Proof.Machine.execDraw k s
  | .insertDelay => Sys2Proof.Machine.execInsertDelay s
  | .render => Sys2Proof.Machine.execRender s
  | .create c => Sys2Proof.Machine.execCreate c s
  | .emitClient c => Sys2Proof.Machine.execEmitClient c s
  | .emitServer c => Sys2Proof.Machine.execEmitServer c s
  | .close c => Sys2Proof.Machine.execClose c s
  | .reset c => Sys2Proof.Machine.execReset c s
  | .build c dir fl => Sys2Proof.Machine.execBuild c dir fl s

end Sys2Proof.Machine
end

