-- ==== Sys2Proof/Machine/HostPort.lean ====
section
/-! DEFINITION. The host interface (R90): issuing a command word, register, `PBUF` and `OUT` accesses, and the reset
input, one move a step. -/

namespace Sys2Proof.Machine

/-- A write of `w` to `CMD` (R33, R80): the command runs to completion, or the word faults in decoding and only STATUS is
written (R83). -/
def issue (w : Word) (s : State) : Host.Outcome State Fault Refusal :=
  match decode s.params w with
  | .ok i => exec i s
  | .error e => .next (s.raise (opcOf w) e)

/-- `MemWrite(addr, n, v)` (R62). -/
def hostWrite (addr : BitVec 12) (n : Nat) (v : BitVec 128) (s : State) : Host.Outcome State Fault Refusal :=
  match regAccess s.params addr n with
  | .whole .cmd => issue (v.setWidth 32) s
  | .whole r => .next (r.write v s)
  | .unmapped => .next s
  | .partialReg => .refused (.partialRegisterAccess addr n)
  | .outside => .fault (.noSuchRegisterByte addr n)

/-- `MemRead(addr, n)` (R62): no side effect in the block; unmapped addresses return 0. -/
def hostRead (addr : BitVec 12) (n : Nat) (s : State) : Host.Outcome State Fault Refusal :=
  match regAccess s.params addr n with
  | .whole r => .next { s with reply := .register (r.read s) }
  | .unmapped => .next { s with reply := .register 0#128 }
  | .partialReg => .refused (.partialRegisterAccess addr n)
  | .outside => .fault (.noSuchRegisterByte addr n)

/-- `OUT[a]`; "reads at an index `>= OUT_LEN` return 0" (R64). -/
def State.outByte (s : State) (a : Nat) : Byte := s.out.getD a 0#8

/-- The reset input (R230): everything at its reset value. The parameters stay, and so does what is the host's: its moves
to come and what it got back (log entries 3, 4 and 13). -/
def hostReset (s : State) : State :=
  { State.resetWith s.params (s.epoch + 1) with moves := s.moves, reply := s.reply }

/-- One host move (R90). -/
def hostMove (m : HostMove) (s : State) : Host.Outcome State Fault Refusal :=
  match m with
  | .write addr n v => hostWrite addr n v s
  | .read addr n => hostRead addr n s
  | .writePbuf a b => if a < s.params.payloadMax then .next (s.storePbuf a b) else .fault (.noSuchPbufByte a)
  | .readPbuf a =>
    if a < s.params.payloadMax then .next { s with reply := .byte (s.pbufByte a) } else .fault (.noSuchPbufByte a)
  | .readOut a => .next { s with reply := .byte (s.outByte a) }
  | .reset => .next (hostReset s)

end Sys2Proof.Machine
end

