-- ==== Sys2Proof/Machine/Step.lean ====
section
/-! DEFINITION. One step: the host's next move, to completion (R3, R237). With no move left the block "is idle between
commands and holds its state" (R225). -/

namespace Sys2Proof.Machine

/-- One step of the machine (R20, R72). -/
def step (s : State) : Host.Outcome State Fault Refusal :=
  match s.moves with
  | [] => .next s
  | m :: rest => hostMove m { s with moves := rest }

/-- `s` with the host's next move the write of a command word to `CMD`: the word's bits above `nbits` are 0 (R80). -/
def State.withFetchWord (s : State) (nbits w : Nat) : State :=
  { s with moves := .write 0#12 4 (BitVec.ofNat 128 (w % 2 ^ nbits)) :: s.moves }

end Sys2Proof.Machine
end

