-- ==== Sys2Proof/Safety.lean ====
section
/-! DEFINITION. The terms claims are stated in: the invariant of the machine, what a reset state is, the readers of frames
and of the container, and which commands draw on which stream. -/

namespace Sys2Proof.Machine

/-- What holds of every context between commands: R26's tag count, R27's three observable states, R28's IPv4 addresses, a
context in `INIT` at its reset value (R26, R120), and, for an open TCP connection, an MTU that carries an empty frame
(R133: the close cannot be too large "after a successful TCP CREATE"). -/
def Context.Ok (p : Params) (x : Context) : Prop :=
  x.vlanCnt.toNat ≤ p.vlanMax ∧
  (∀ i : Fin 15, x.vlanCnt.toNat ≤ i.val → x.vlan.get i = 0#16) ∧
  (x.lstate = .init ∨ x.lstate = .established ∨ x.lstate = .closed) ∧
  (x.lstate = .init → x = Context.zero) ∧
  (x.ipver = .v4 → x.client.addr.toNat < 2 ^ 32 ∧ x.server.addr.toNat < 2 ^ 32) ∧
  (x.lstate = .established → x.transport = .tcp → x.overhead ≤ x.mtu.toNat)

/-- `STATUS` has one of R210's codes, its reserved bits read 0, and a code other than `OK` has set `STICKY` (R36). -/
def statusOkForm (st : Word) : Prop :=
  st = statusWord (statusLastOpc st) (statusSticky st) (statusCode st) ∧ (statusCode st).toNat ≤ 9 ∧
  (statusCode st ≠ 0#8 → statusSticky st = true)

/-- The invariant of the machine. -/
def State.Inv (s : State) : Prop :=
  s.params.valid = true ∧
  Memory.wf s.pbuf = true ∧
  (∀ cell ∈ s.pbuf, cell.1 < s.params.payloadMax) ∧
  statusOkForm s.status ∧
  (∀ c : CtxIdx, (s.ctx c).Ok s.params) ∧
  (∀ c : CtxIdx, s.params.nctx ≤ c.val → s.ctx c = Context.zero) ∧
  (∀ m, s.params.outMax = some m → s.out.length ≤ m)

/-- Splitting record bytes into frames, each 16 bytes of header plus the bytes its captured-length field states (R200 b);
`none` where they do not split exactly. -/
def splitFrames : Nat → List Byte → Option (List (List Byte))
  | _, [] => some []
  | 0, _ :: _ => none
  | fuel + 1, b :: bs =>
    let n := le32dec ((b :: bs).drop 8)
    if (b :: bs).length < 16 + n then none
    else (splitFrames fuel ((b :: bs).drop (16 + n))).map fun fs => ((b :: bs).drop 16).take n :: fs

/-- The frames of a record sequence. -/
def framesOf (bytes : List Byte) : Option (List (List Byte)) := splitFrames bytes.length bytes

/-- R200 (a), (b), (d): the container is the 24-byte header and records that consume it exactly, `REC_COUNT` of them, none
longer than the snap length. -/
def State.containerSplits (s : State) : Prop :=
  s.container.length = 24 + s.out.length ∧
  ∃ fs, framesOf (s.container.drop 24) = some fs ∧ BitVec.ofNat 64 fs.length = s.recCount ∧
    ∀ f ∈ fs, f.length ≤ 0xFFFF

/-- The offset `T` of the transport header in a context's frames. -/
def Context.transportAt (x : Context) : Nat := x.linkLen + x.ipHeaderLen

/-- The sequence number a TCP frame carries (R170). -/
def Context.frameSeq (x : Context) (f : List Byte) : Nat := be32dec (f.drop (x.transportAt + 4))

/-- The acknowledgment number a TCP frame carries (R170). -/
def Context.frameAck (x : Context) (f : List Byte) : Nat := be32dec (f.drop (x.transportAt + 8))

/-- The flag byte a TCP frame carries (R170). -/
def Context.frameFlags (x : Context) (f : List Byte) : Nat := byteAt f (x.transportAt + 13)

/-- The payload field of a frame (R179). -/
def Context.framePayload (x : Context) (f : List Byte) : List Byte := f.drop x.overhead

/-- The number of frames an emission of `n` bytes takes (R186). -/
def frameCount (oh m n : Nat) : Nat := if oh + n ≤ m then 1 else (n + (m - oh) - 1) / (m - oh)

/-- Whether `n` more bytes of records fit `OUT` (R63); they always do under the default `OUT_MAX`. -/
def State.room (s : State) (n : Nat) : Prop := ∀ m, s.params.outMax = some m → s.out.length + n ≤ m

/-- Whether `Emit` can carry `n` bytes at all (R152, R154). -/
def carries (x : Context) (n : Nat) : Prop := x.overhead + n ≤ x.mtu.toNat ∨ x.overhead < x.mtu.toNat

/-- The value of a stream after `n` draws (R110). -/
def streamAfter (p : Params) (g : Dword) : Nat → Dword
  | 0 => g
  | n + 1 => lcgNext p (streamAfter p g n)

/-- The streams after `n` frames of a context: `n` draws on stream 4 for IPv4, none for IPv6 (R162). -/
def gensAfterFrames (p : Params) (x : Context) (g : Vector Dword 8) (n : Nat) : Vector Dword 8 :=
  match x.ipver with
  | .v4 => g.set 4 (streamAfter p (g.get 4) n)
  | .v6 => g

/-- The identification that the `j`-th IPv4 frame drawn from a state of stream 4 carries, counted from 0: the top 16
bits of one output (R162, R111). -/
def identAfter (p : Params) (g : Dword) (j : Nat) : BitVec 16 := (streamAfter p g (j + 1)).extractLsb' 48 16

/-- The record of the `j`-th frame a command emits from `s`, counted from 0: the frame of context `x` with the `j`-th
identification, at the clock after `j + 1` advances (R181, R182). An IPv6 frame carries no identification. -/
def State.recordAt (s : State) (j : Nat) (x : Context) (dir : Dir) (fl : Flags) (pay : List Byte) : List Byte :=
  recordBytes (s.clkUs + BitVec.ofNat 64 (j + 1) * s.delayUs)
    (frameBytes s.params x dir fl (identAfter s.params (s.gen.get 4) j) pay)

/-- A context after `m` frames of one emission that carried `n` bytes together (R172, R177). -/
def Context.afterSegments (x : Context) (dir : Dir) (fl : Flags) (n m : Nat) : Context :=
  match x.transport with
  | .tcp => x.setSender dir { x.sender dir with
      seq := (x.sender dir).seq + BitVec.ofNat 32 (n + m * seqIncrement fl) }
  | .udp => x

/-- Which registers an FSB with parameters `p` maps: a context block for each context, and `VLAN_MAX` tag registers in
each place that has them (R44, R45). -/
def Reg.isMapped (p : Params) : Reg → Prop
  | .cfgVlan i => i.val < p.vlanMax
  | .ctxVlan c i => c.val < p.nctx ∧ i.val < p.vlanMax
  | .ctxCtrl c | .ctxMtu c | .ctxPorts c | .ctxCliSeq c | .ctxSrvSeq c | .ctxCliMac c | .ctxSrvMac c | .ctxCliAddr c
  | .ctxSrvAddr c => c.val < p.nctx
  | .cmd | .status | .result | .arg | .plen | .cfgTsSec | .cfgTsUsec | .cfgDelayUs | .clkUs | .delayUs | .outLen
  | .recCount | .seed _ | .gen _ | .cfgCtrl | .cfgMtu | .cfgPorts | .cfgSrcSeq | .cfgDstSeq | .cfgSrcMac | .cfgDstMac
  | .cfgSrcAddr | .cfgDstAddr => True

end Sys2Proof.Machine

namespace Sys2Proof

/-- Which streams a command may step or load (R112): draws, SEED and SESSION_INIT. -/
def Instr.mayWriteStream (i : Instr) (k : StreamIdx) : Bool :=
  match i with
  | .sessionInit => true
  | .seed j => j == k
  | .draw j => j == k
  | .insertDelay => false
  | .render => false
  | .create _ => decide (k.val ≤ 4)
  | .emitClient _ => k == 4
  | .emitServer _ => k == 4
  | .close _ => k == 4
  | .reset _ => k == 4
  | .build _ _ _ => k == 4

/-- The faults a command that has been decoded can raise (R211), with `BAD_CTX` of R210 for the commands that name a
context. -/
def Instr.faults : Instr → List FaultCode
  | .sessionInit => [.optionInvalid]
  | .seed _ => []
  | .draw _ => []
  | .insertDelay => []
  | .render => []
  | .create _ => [.badCtx, .badState, .optionInvalid, .addressFormat, .segImpossible, .outOverflow]
  | .emitClient _ => [.badCtx, .payloadLen, .badState, .segImpossible, .outOverflow]
  | .emitServer _ => [.badCtx, .payloadLen, .badState, .segImpossible, .outOverflow]
  | .close _ => [.badCtx, .badState, .segImpossible, .outOverflow]
  | .reset _ => [.badCtx, .badState, .segImpossible, .outOverflow]
  | .build _ _ _ => [.badCtx, .payloadLen, .badState, .segImpossible, .outOverflow]

/-- The commands that emit the payload buffer, with the direction and flags they emit it with (R130, R131, R185). -/
def Instr.emitsPayload (i : Instr) (c : CtxIdx) (dir : Dir) (fl : Flags) : Prop :=
  (i = .emitClient c ∧ dir = .client ∧ fl = .none) ∨ (i = .emitServer c ∧ dir = .server ∧ fl = .none) ∨
    i = .build c dir fl

end Sys2Proof

namespace Sys2Proof.Machine

/-- `CFG_CTRL`, `CFG_MTU`, the given MACs and the used tags are inside the closed set (R127's `OPTION_INVALID` checks),
as bounds on the registers' values. -/
def State.optionsOk (s : State) : Prop :=
  s.cfgCtrl.toNat / 8 % 2 = 0 ∧ s.cfgCtrl.toNat < 2 ^ 16 ∧
  s.cfgCtrl.toNat / 16 % 16 ≤ s.params.vlanMax ∧
  (1 ≤ s.cfgMtu.toNat ∧ s.cfgMtu.toNat < 2 ^ 16) ∧
  (s.cfgCtrl.toNat / 2 ^ 8 % 2 = 1 → s.cfgSrcMac.toNat < 2 ^ 48) ∧
  (s.cfgCtrl.toNat / 2 ^ 9 % 2 = 1 → s.cfgDstMac.toNat < 2 ^ 48) ∧
  (∀ i : Fin 15, i.val < s.cfgCtrl.toNat / 16 % 16 → (s.cfgVlan.get i).toNat < 2 ^ 16)

/-- The IP version is IPv4 or IPv6 and a given IPv4 address fits 32 bits (R127's `ADDRESS_FORMAT` checks). -/
def State.addressesOk (s : State) : Prop :=
  s.cfgCtrl.toNat / 2 % 4 < 2 ∧
  (s.cfgCtrl.toNat / 2 % 4 = 0 → s.cfgCtrl.toNat / 2 ^ 10 % 2 = 1 → s.cfgSrcAddr.toNat < 2 ^ 32) ∧
  (s.cfgCtrl.toNat / 2 % 4 = 0 → s.cfgCtrl.toNat / 2 ^ 11 % 2 = 1 → s.cfgDstAddr.toNat < 2 ^ 32)

/-- The values R230 lists for an FSB with the default parameters; `PBUF` is the one thing it leaves unspecified. -/
def State.isReset (s : State) : Prop :=
  s.status = 0x00000000#32 ∧ s.result = 0#64 ∧ s.arg = 0#64 ∧ s.plen = 0#32 ∧
  s.cfgTsSec = 0#32 ∧ s.cfgTsUsec = 0#32 ∧ s.cfgDelayUs = 10000#64 ∧
  s.clkUs = 0#64 ∧ s.delayUs = 10000#64 ∧ s.out = [] ∧ s.outLen = 0#64 ∧ s.recCount = 0#64 ∧
  (∀ k : StreamIdx, s.seed.get k = BitVec.ofNat 64 k.val ∧ s.gen.get k = BitVec.ofNat 64 k.val) ∧
  s.cfgCtrl = 0x00000000#32 ∧ s.cfgMtu = 1500#32 ∧ s.cfgPorts = 0#32 ∧ s.cfgSrcSeq = 0#32 ∧ s.cfgDstSeq = 0#32 ∧
  s.cfgSrcMac = 0#64 ∧ s.cfgDstMac = 0#64 ∧ s.cfgSrcAddr = 0#128 ∧ s.cfgDstAddr = 0#128 ∧
  (∀ i : Fin 15, s.cfgVlan.get i = 0#32) ∧
  (∀ c : CtxIdx, s.ctx c = Context.zero)

end Sys2Proof.Machine
end

