-- ==== Sys2Proof/Certificates/Slice0/Obligations.lean ====
section
/-! DEFINITION. The statements for the provers, from the numbered rules of the spec. A free value of the model (the byte of
`PBUF` the host has not written, `Config.pbufInit`) is under no hypothesis in any of them. -/

open Sys2Proof Sys2Proof.Machine

/-! ## Encoding and the step -/

/-- The words R89 lists decode, and fault, as it says (R89 is the spec's own derivation from R81 and R82). -/
def Obligations.EncodingExamplesDecodeAsListed : Prop :=
  decode .default 0x00000001#32 = .ok .sessionInit ∧
  decode .default 0x00005002#32 = .ok (.seed 5) ∧
  decode .default 0x00004003#32 = .ok (.draw 4) ∧
  decode .default 0x00000110#32 = .ok (.create 1) ∧
  decode .default 0x00000011#32 = .ok (.emitClient 0) ∧
  decode .default 0x00000312#32 = .ok (.emitServer 3) ∧
  decode .default 0x00000013#32 = .ok (.close 0) ∧
  decode .default 0x00000214#32 = .ok (.reset 2) ∧
  decode .default 0x00030015#32 = .ok (.build 0 .client ⟨true, true, false, false⟩) ∧
  decode .default 0x00180215#32 = .ok (.build 2 .server ⟨false, false, false, true⟩) ∧
  decode .default 0x00040115#32 = .ok (.build 1 .client ⟨false, false, true, false⟩) ∧
  decode .default 0x00000000#32 = .error .badOpcode ∧
  decode { Params.default with nctx := 1 } 0x00000111#32 = .error .badCtx ∧
  decode .default 0x00010011#32 = .error .badCommand ∧
  decode .default 0x00008002#32 = .error .badCommand

/-- R81 to R84: the encoding of every command decodes to that command where it is well-formed, with every operand at
every value its field admits, and raises `BAD_CTX` where its context does not exist. -/
def Obligations.DecodeOfEncodeIsTheCommand : Prop :=
  ∀ (p : Params) (i : Instr),
    (i.wf p = true → decode p (encode i) = .ok i) ∧ (i.wf p = false → decode p (encode i) = .error .badCtx)

/-- R81 to R84, the other direction: a word that decodes is the encoding of what it decodes to, so no two words mean the
same command. -/
def Obligations.EncodeOfDecodeIsTheWord : Prop :=
  ∀ (p : Params) (w : Word) (i : Instr), decode p w = .ok i → encode i = w ∧ i.wf p = true

/-- R83 over the table of R82: the opcode is checked first, then the bits outside the free fields, then the context, and
every faulting outcome writes STATUS only; any other word runs the command it encodes. -/
def Obligations.CommandWordsFaultInDecodeOrder : Prop :=
  ∀ (w : Word) (s : State),
    ((∀ r ∈ opcodeTable, opcOf r.matchWord ≠ opcOf w) →
      issue w s = .next { s with status := statusFault (opcOf w) .badOpcode }) ∧
    (∀ r ∈ opcodeTable, opcOf r.matchWord = opcOf w →
      (w &&& r.mask ≠ r.matchWord → issue w s = .next { s with status := statusFault (opcOf w) .badCommand }) ∧
      (w &&& r.mask = r.matchWord → r.mask &&& 0x00000F00#32 = 0#32 → s.params.nctx ≤ (ctxOf w).val →
        issue w s = .next { s with status := statusFault (opcOf w) .badCtx }) ∧
      (w &&& r.mask = r.matchWord → (r.mask &&& 0x00000F00#32 = 0#32 → (ctxOf w).val < s.params.nctx) →
        ∃ i, encode i = w ∧ i.row = r ∧ issue w s = exec i s))

/-- A step with a command word as the host's next move is `exec` of the command the word decodes to, in the state
without that move; a word that does not decode writes STATUS only; with no move left the block holds its state (R225).
The queue of host moves is the model's own (log entry 2). -/
def Obligations.StepRunsTheDecodedCommand : Prop :=
  (∀ (s : State) (rest : List HostMove) (v : BitVec 128) (i : Instr), s.moves = .write 0#12 4 v :: rest →
    decode s.params (v.setWidth 32) = .ok i → step s = exec i { s with moves := rest }) ∧
  (∀ (s : State) (rest : List HostMove) (v : BitVec 128) (e : FaultCode), s.moves = .write 0#12 4 v :: rest →
    decode s.params (v.setWidth 32) = .error e →
    step s = .next { s with moves := rest, status := statusFault (opcOf (v.setWidth 32)) e }) ∧
  (∀ s : State, s.moves = [] → step s = .next s) ∧
  (∀ (s : State) (nbits w : Nat), nbits ≤ 32 →
    step (s.withFetchWord nbits w) = issue (BitVec.ofNat 32 (w % 2 ^ nbits)) s)

/-! ## Reset and the session commands -/

/-- R230: what reset leaves, at power-on and by the reset input; SESSION_INIT right after reset changes STATUS alone,
and the FSB waits for the first command. That the reset input keeps the parameters and the host's moves is the model's
choice (log entry 13), and so is the empty queue of moves with which the FSB waits (log entry 2). -/
def Obligations.ResetLeavesTheSpecifiedValues : Prop :=
  State.reset.isReset ∧
  (∀ (s : State) (rest : List HostMove), s.params = .default → s.moves = .reset :: rest →
    ∃ t, step s = .next t ∧ t.isReset ∧ t.params = s.params ∧ t.moves = rest) ∧
  exec .sessionInit State.reset = .next { State.reset with status := 0x00010000#32 } ∧
  step State.reset = .next State.reset

/-- The invariant and the container property hold after reset. The invariant's canonical form of the payload buffer, its
absent contexts and its bound on `TS_DEFAULT` are the model's (log entries 5, 12 and 22). -/
def Obligations.InvariantHoldsAtReset : Prop := State.reset.Inv ∧ State.reset.containerSplits

/-- R195: SESSION_INIT with a valid timestamp starts a session, and nothing but what R195 lists is written; with
`CFG_TS_USEC >= 10^6` it faults; right after reset it changes nothing but STATUS. -/
def Obligations.SessionInitStartsASession : Prop :=
  ∀ s : State,
    (s.cfgTsUsec.toNat < 1000000 → ∃ t, exec .sessionInit s = .next t ∧
      t.clkUs.toNat = s.cfgTsSec.toNat * 1000000 + s.cfgTsUsec.toNat ∧ t.delayUs = s.cfgDelayUs ∧
      t.out = [] ∧ t.outLen = 0#64 ∧ t.recCount = 0#64 ∧ (∀ c, t.ctx c = Context.zero) ∧
      (∀ k : StreamIdx, t.gen.get k = s.seed.get k) ∧ t.status = statusOk s.status 0x01#8 ∧
      t = { s with clkUs := t.clkUs, delayUs := t.delayUs, out := t.out, recCount := t.recCount, ctxs := t.ctxs,
                   gen := t.gen, status := t.status }) ∧
    (1000000 ≤ s.cfgTsUsec.toNat →
      exec .sessionInit s = .next { s with status := statusFault 0x01#8 .optionInvalid }) ∧
    (s = State.reset → exec .sessionInit s = .next { s with status := 0x00010000#32 })

/-- R196: SEED writes the seed and the state of its stream and STATUS, and nothing else. -/
def Obligations.SeedRestartsOneStream : Prop :=
  ∀ (k : StreamIdx) (s : State), ∃ t, exec (.seed k) s = .next t ∧
    (∀ j : StreamIdx, t.seed.get j = if j = k then s.arg else s.seed.get j) ∧
    (∀ j : StreamIdx, t.gen.get j = if j = k then s.arg else s.gen.get j) ∧
    t.status = statusOk s.status 0x02#8 ∧
    t = { s with seed := t.seed, gen := t.gen, status := t.status }

/-- R197 with R110's step: RESULT and `GEN[s]` become `(LCG_A·GEN[s] + LCG_C) mod 2^64`, and nothing else is written but
STATUS. -/
def Obligations.DrawReturnsTheNextOutput : Prop :=
  ∀ (k : StreamIdx) (s : State), ∃ t, exec (.draw k) s = .next t ∧
    t.result.toNat = (s.params.lcgA.toNat * (s.gen.get k).toNat + s.params.lcgC.toNat) % 2 ^ 64 ∧
    (∀ j : StreamIdx, t.gen.get j = if j = k then t.result else s.gen.get j) ∧
    t.status = statusOk s.status 0x03#8 ∧
    t = { s with result := t.result, gen := t.gen, status := t.status }

/-- R198: INSERT_DELAY advances the clock by ARG modulo 2^64 and writes nothing else but STATUS. -/
def Obligations.InsertDelayAdvancesTheClock : Prop :=
  ∀ s : State, ∃ t, exec .insertDelay s = .next t ∧
    t.clkUs.toNat = (s.clkUs.toNat + s.arg.toNat) % 2 ^ 64 ∧ t.status = statusOk s.status 0x04#8 ∧
    t = { s with clkUs := t.clkUs, status := t.status }

/-- R199: RENDER writes STATUS only, and the host gets back the 24 header bytes followed by `OUT`. The widths and
offsets of the header's fields and its timestamp accuracy of 0 are the spec's own general knowledge (its G6; log entry
17), and the place where the host gets the bytes is the model's (log entry 3). -/
def Obligations.RenderDeliversHeaderAndRecords : Prop :=
  ∀ s : State, exec .render s = .next { s with
    status := statusOk s.status 0x05#8
    reply := .container ([0xD4#8, 0xC3#8, 0xB2#8, 0xA1#8, 0x02#8, 0x00#8, 0x04#8, 0x00#8, 0#8, 0#8, 0#8, 0#8,
      0#8, 0#8, 0#8, 0#8, 0xFF#8, 0xFF#8, 0#8, 0#8, 0x01#8, 0#8, 0#8, 0#8] ++ s.out) }

/-- R112, the spec's own derivation from R110: a command that may not draw on a stream leaves its state as it was, and
only SEED of a stream writes its seed. -/
def Obligations.StreamsMoveOnlyByTheirOwnDraws : Prop :=
  ∀ (i : Instr) (s t : State) (k : StreamIdx), exec i s = .next t →
    (i.mayWriteStream k = false → t.gen.get k = s.gen.get k) ∧ (i ≠ .seed k → t.seed.get k = s.seed.get k)

/-- R112: "changing one stream's seed doesn't perturb another's output": a command that may not use a stream does the
same whatever that stream holds. -/
def Obligations.UnusedStreamsDoNotInfluenceACommand : Prop :=
  ∀ (i : Instr) (s t : State) (k : StreamIdx) (v : Dword), i.mayWriteStream k = false → exec i s = .next t →
    exec i { s with gen := s.gen.set k.val v k.isLt } = .next { t with gen := t.gen.set k.val v k.isLt }

/-! ## Checksums and frames -/

/-- R105, the spec's own derivation from R101 and R102: a checksum computed over a range whose field, at an even
offset, holds 0, and then stored there, makes the range sum to 0xFFFF. -/
def Obligations.StoredChecksumVerifies : Prop :=
  ∀ (pre post : List Byte) (seed : Nat), pre.length % 2 = 0 →
    osum (pre ++ be16 (cks (pre ++ [0#8, 0#8] ++ post) seed) ++ post) seed = 0xFFFF

/-- E3 and E4 of the test vectors (R160, R175): the delivered IPv4 header and the delivered pseudo-header and segment of
every frame sum to 0xFFFF. -/
def Obligations.DeliveredFramesVerify : Prop :=
  ∀ (p : Params) (x : Context) (dir : Dir) (fl : Flags) (ident : BitVec 16) (pay : List Byte),
    (x.ipver = .v4 → osum (slice (frameBytes p x dir fl ident pay) x.linkLen (x.linkLen + 20)) 0 = 0xFFFF) ∧
    (x.transport = .tcp →
      osum ((frameBytes p x dir fl ident pay).drop
        (match x.ipver with | .v4 => x.linkLen + 12 | .v6 => x.linkLen + 8)) (6 + (20 + pay.length)) = 0xFFFF)

/-- R150, and R179 (the spec's own derivation): the frame is exactly its four parts at R179's offsets. -/
def Obligations.FrameIsItsPartsAtTheirOffsets : Prop :=
  ∀ (p : Params) (x : Context) (dir : Dir) (fl : Flags) (ident : BitVec 16) (pay : List Byte),
    let f := frameBytes p x dir fl ident pay
    f.length = x.overhead + pay.length ∧
    x.linkLen = 14 + 4 * x.vlanCnt.toNat ∧
    x.overhead = x.transportAt + (match x.transport with | .tcp => 20 | .udp => 8) ∧
    x.transportAt = x.linkLen + (match x.ipver with | .v4 => 20 | .v6 => 40) ∧
    f.take x.linkLen = linkHeader x dir ∧
    slice f x.linkLen x.transportAt = networkHeader p x dir ident pay.length ∧
    f.drop x.transportAt = transportSegment p x dir fl pay ∧
    f.drop x.overhead = pay

/-- R158: the MAC pair of the direction, the tags outer first with their identifiers, and the EtherType. -/
def Obligations.LinkHeaderFieldsAsSpecified : Prop :=
  ∀ (p : Params) (x : Context) (dir : Dir) (fl : Flags) (ident : BitVec 16) (pay : List Byte),
    let f := frameBytes p x dir fl ident pay
    slice f 0 6 = beN (x.receiver dir).mac 6 ∧ slice f 6 12 = beN (x.sender dir).mac 6 ∧
    (∀ i : Fin 15, i.val < x.vlanCnt.toNat →
      be16dec (f.drop (12 + 4 * i.val)) = (if i.val = 0 then 0x8100 else 0x9100) ∧
      be16dec (f.drop (14 + 4 * i.val)) = (x.vlan.get i).toNat) ∧
    be16dec (f.drop (x.linkLen - 2)) = (match x.ipver with | .v4 => 0x0800 | .v6 => 0x86DD)

/-- R160 and R161: every field of the IPv4 header of the next frame of a context, its identification the top 16 bits
of the next output of stream 4 (R162). The total length's formula is the spec's own general knowledge (its G3; log
entry 17), and the placeholder of 0 its inference. -/
def Obligations.Ipv4HeaderFieldsAsSpecified : Prop :=
  ∀ (s : State) (x : Context) (dir : Dir) (fl : Flags) (pay : List Byte), x.ipver = .v4 →
    x.overhead + pay.length ≤ 65535 →
    let f := frameBytes s.params x dir fl (drawIdent x s).1 pay
    let h := slice f x.linkLen (x.linkLen + 20)
    byteAt h 0 = 0x45 ∧ byteAt h 1 = 0x00 ∧
    be16dec (h.drop 2) = 20 + (match x.transport with | .tcp => 20 | .udp => 8) + pay.length ∧
    be16dec (h.drop 4) = (lcgNext s.params (s.gen.get 4)).toNat / 2 ^ 48 ∧
    be16dec (h.drop 6) = 0x0000 ∧
    byteAt h 8 = s.params.ipv4Ttl.toNat ∧
    byteAt h 9 = (match x.transport with | .tcp => 6 | .udp => 17) ∧
    be16dec (h.drop 10) = (cks (h.take 10 ++ [0#8, 0#8] ++ h.drop 12) 0).toNat ∧
    be32dec (h.drop 12) = (x.sender dir).addr.toNat % 2 ^ 32 ∧
    be32dec (h.drop 16) = (x.receiver dir).addr.toNat % 2 ^ 32

/-- R164 to R166: every field of the IPv6 header; an IPv6 frame draws nothing (R162). -/
def Obligations.Ipv6HeaderFieldsAsSpecified : Prop :=
  ∀ (s : State) (x : Context) (dir : Dir) (fl : Flags) (pay : List Byte), x.ipver = .v6 →
    x.overhead + pay.length ≤ 65535 →
    let f := frameBytes s.params x dir fl (drawIdent x s).1 pay
    let h := slice f x.linkLen (x.linkLen + 40)
    (drawIdent x s).2 = s ∧
    be32dec h = 0x60000000 ∧
    be16dec (h.drop 4) = (match x.transport with | .tcp => 20 | .udp => 8) + pay.length ∧
    byteAt h 6 = (match x.transport with | .tcp => 6 | .udp => 17) ∧
    byteAt h 7 = s.params.ipv6HopLimit.toNat ∧
    slice h 8 24 = beN (x.sender dir).addr 16 ∧
    slice h 24 40 = beN (x.receiver dir).addr 16

/-- R170, R171 and R175: every field of the TCP header, its checksum that of R175's range with the field at 0. The
order of the header's fields and the urgent pointer of 0 are the spec's own general knowledge (its G4; log entry 17).
-/
def Obligations.TcpHeaderFieldsAsSpecified : Prop :=
  ∀ (p : Params) (x : Context) (dir : Dir) (fl : Flags) (ident : BitVec 16) (pay : List Byte), x.transport = .tcp →
    let f := frameBytes p x dir fl ident pay
    let g := f.drop x.transportAt
    let a0 := match x.ipver with | .v4 => x.linkLen + 12 | .v6 => x.linkLen + 8
    let atField := x.transportAt + 16
    be16dec g = (x.sender dir).port.toNat ∧ be16dec (g.drop 2) = (x.receiver dir).port.toNat ∧
    be32dec (g.drop 4) = (x.sender dir).seq.toNat ∧
    be32dec (g.drop 8) = (if fl.syn then 0 else (x.receiver dir).seq.toNat) ∧
    byteAt g 12 = 0x50 ∧ byteAt g 13 = (flagByte fl).toNat ∧ be16dec (g.drop 14) = p.tcpWindow.toNat ∧
    be16dec (g.drop 16) = (cks (slice f a0 atField ++ [0#8, 0#8] ++ f.drop (atField + 2)) (6 + (20 + pay.length))).toNat ∧
    be16dec (g.drop 18) = 0x0000 ∧ g.drop 20 = pay

/-- R177 and R178: every field of the UDP header; the checksum field is 0 for both IP versions, and no flag is read. -/
def Obligations.UdpHeaderFieldsAsSpecified : Prop :=
  ∀ (p : Params) (x : Context) (dir : Dir) (fl fl' : Flags) (ident : BitVec 16) (pay : List Byte), x.transport = .udp →
    x.overhead + pay.length ≤ 65535 →
    let f := frameBytes p x dir fl ident pay
    let g := f.drop x.transportAt
    be16dec g = (x.sender dir).port.toNat ∧ be16dec (g.drop 2) = (x.receiver dir).port.toNat ∧
    be16dec (g.drop 4) = 8 + pay.length ∧ be16dec (g.drop 6) = 0x0000 ∧ g.drop 8 = pay ∧
    frameBytes p x dir fl' ident pay = f ∧ x.advance dir fl pay.length = x

/-- R173: the flag byte is the integer sum of the flags' contributions; and R174's table, the spec's own derivation from
R172 and R173, with the sequence increment of every flag set. -/
def Obligations.FlagByteAndItsTable : Prop :=
  (∀ fl : Flags, (flagByte fl).toNat = (if fl.syn then 0x02 else 0x10) + (if fl.synAck then 0x02 else 0)
    + (if fl.fin then 0x01 else 0) + (if fl.rst then 0x04 else 0)) ∧
  [(Flags.mk false false false false, 0x10, 0), (.mk true false false false, 0x02, 1),
   (.mk false true false false, 0x12, 1), (.mk true true false false, 0x04, 1),
   (.mk false false true false, 0x11, 1), (.mk true false true false, 0x03, 1),
   (.mk false true true false, 0x13, 1), (.mk true true true false, 0x05, 1), (.mk false false false true, 0x14, 0),
   (.mk true false false true, 0x06, 1), (.mk false true false true, 0x16, 1), (.mk true true false true, 0x08, 1),
   (.mk false false true true, 0x15, 1), (.mk true false true true, 0x07, 1), (.mk false true true true, 0x17, 1),
   (.mk true true true true, 0x09, 1)].all
    (fun row => (flagByte row.1).toNat == row.2.1 && seqIncrement row.1 == row.2.2) = true

/-- R182: the four little-endian fields of a record header, before the frame; and the clock value a record is written
with is the one after R181's advance. -/
def Obligations.RecordHeaderFieldsAsSpecified : Prop :=
  (∀ (clk : Dword) (f : List Byte), f.length < 2 ^ 32 →
    le32dec (recordBytes clk f) = clk.toNat / 1000000 % 2 ^ 32 ∧
    le32dec ((recordBytes clk f).drop 4) = clk.toNat % 1000000 ∧
    le32dec ((recordBytes clk f).drop 8) = f.length ∧
    le32dec ((recordBytes clk f).drop 12) = f.length ∧
    (recordBytes clk f).drop 16 = f) ∧
  (∀ (f : List Byte) (s t : State), emitRecord f s = .ok t →
    t.clkUs = s.clkUs + s.delayUs ∧ t.out = s.out ++ recordBytes (s.clkUs + s.delayUs) f)

/-! ## Segmentation and the payload commands -/

/-- R152 and R153: a payload that does not fit, under an MTU above the overhead, is cut into `ceil(n/k)` consecutive
chunks, each but the last of exactly `k` bytes and the last of between 1 and `k`. -/
def Obligations.SegmentationCutsFullChunksFirst : Prop :=
  ∀ (oh m : Nat) (data : List Byte), oh < m → m < oh + data.length →
    ∃ pays last, segments oh m data = .ok (pays ++ [last]) ∧
      (pays ++ [last]).length = (data.length + (m - oh) - 1) / (m - oh) ∧
      (∀ pay ∈ pays, pay.length = m - oh) ∧
      last.length = data.length - pays.length * (m - oh) ∧ 1 ≤ last.length ∧ last.length ≤ m - oh ∧
      (pays ++ [last]).flatten = data

/-- R154, the spec's own derivation from R152: the corner cases (a) to (e) of segmentation. -/
def Obligations.SegmentationCornerCases : Prop :=
  ∀ (oh m : Nat) (data : List Byte),
    (oh ≤ m → segments oh m [] = .ok [[]]) ∧
    (∀ j, 2 ≤ j → oh < m → data.length = (m - oh) * j →
      ∃ pays, segments oh m data = .ok pays ∧ pays.length = j ∧ ∀ pay ∈ pays, pay.length = m - oh) ∧
    (oh < m → data.length = m - oh + 1 → ∃ a b, segments oh m data = .ok [a, b] ∧ a.length = m - oh ∧ b.length = 1) ∧
    (m ≤ oh → m < oh + data.length → segments oh m data = .error .segImpossible) ∧
    segments oh oh [] = .ok [[]]

/-- EMIT_CLIENT, EMIT_SERVER and BUILD complete on an established context whose MTU carries the payload (R130, R131,
R185), with room in the output stream. They emit one record per chunk: the counts, the clock, the streams, the
sender's sequence number, and everything they leave unchanged. -/
def Obligations.PayloadCommandsComplete : Prop :=
  ∀ (i : Instr) (c : CtxIdx) (dir : Dir) (fl : Flags) (s : State), i.emitsPayload c dir fl →
    c.val < s.params.nctx → s.plen.toNat ≤ s.params.payloadMax → (s.ctx c).lstate = .established →
    carries (s.ctx c) s.plen.toNat →
    s.room (frameCount (s.ctx c).overhead (s.ctx c).mtu.toNat s.plen.toNat * (16 + (s.ctx c).overhead)
      + s.plen.toNat) →
    ∃ t, exec i s = .next t ∧
      let x := s.ctx c
      let n := s.plen.toNat
      let m := frameCount x.overhead x.mtu.toNat n
      t.status = statusOk s.status i.opc ∧
      t.recCount = s.recCount + BitVec.ofNat 64 m ∧
      t.clkUs = s.clkUs + BitVec.ofNat 64 m * s.delayUs ∧
      s.out <+: t.out ∧ t.out.length = s.out.length + m * (16 + x.overhead) + n ∧
      t.gen = gensAfterFrames s.params x s.gen m ∧
      (∀ d, d ≠ c → t.ctx d = s.ctx d) ∧
      t.ctx c = (match x.transport with
        | .tcp => x.setSender dir { x.sender dir with
            seq := (x.sender dir).seq + BitVec.ofNat 32 (n + m * seqIncrement fl) }
        | .udp => x) ∧
      t = { s with status := t.status, recCount := t.recCount, clkUs := t.clkUs, out := t.out, gen := t.gen,
                   ctxs := t.ctxs }

/-- R186, the spec's own derivation: the number of frames, the bound by the MTU, and that the frames' payload fields,
in order, are the payload. -/
def Obligations.EmittedFramesCarryThePayload : Prop :=
  ∀ (i : Instr) (c : CtxIdx) (dir : Dir) (fl : Flags) (s : State), i.emitsPayload c dir fl →
    c.val < s.params.nctx → s.plen.toNat ≤ s.params.payloadMax → (s.ctx c).lstate = .established →
    carries (s.ctx c) s.plen.toNat →
    s.room (frameCount (s.ctx c).overhead (s.ctx c).mtu.toNat s.plen.toNat * (16 + (s.ctx c).overhead)
      + s.plen.toNat) →
    ∃ t fs, exec i s = .next t ∧ framesOf (t.out.drop s.out.length) = some fs ∧
      fs.length = (if (s.ctx c).overhead + s.plen.toNat > (s.ctx c).mtu.toNat
        then (s.plen.toNat + ((s.ctx c).mtu.toNat - (s.ctx c).overhead) - 1) /
          ((s.ctx c).mtu.toNat - (s.ctx c).overhead)
        else 1) ∧
      (∀ f ∈ fs, f.length ≤ (s.ctx c).mtu.toNat) ∧
      (fs.map (s.ctx c).framePayload).flatten = s.payload

/-- R155 with R171 and R172: every frame of one TCP emission carries the same flag byte and the same acknowledgment
number, and each frame's sequence number is the one before plus its payload and the increment of the flags. That the
acknowledgment is the same in every segment is the spec's own derivation (R171), and the offset of the flag byte its
general knowledge (its G4; log entry 17). -/
def Obligations.EverySegmentRepeatsTheFlags : Prop :=
  ∀ (i : Instr) (c : CtxIdx) (dir : Dir) (fl : Flags) (s : State), i.emitsPayload c dir fl →
    c.val < s.params.nctx → s.plen.toNat ≤ s.params.payloadMax → (s.ctx c).lstate = .established →
    (s.ctx c).transport = .tcp → carries (s.ctx c) s.plen.toNat →
    s.room (frameCount (s.ctx c).overhead (s.ctx c).mtu.toNat s.plen.toNat * (16 + (s.ctx c).overhead)
      + s.plen.toNat) →
    ∃ t fs, exec i s = .next t ∧ framesOf (t.out.drop s.out.length) = some fs ∧
      (∀ f ∈ fs, (s.ctx c).frameFlags f = (flagByte fl).toNat ∧
        (s.ctx c).frameAck f = if fl.syn then 0 else ((s.ctx c).receiver dir).seq.toNat) ∧
      (∀ f, fs.head? = some f → (s.ctx c).frameSeq f = ((s.ctx c).sender dir).seq.toNat) ∧
      (∀ j f g, fs[j]? = some f → fs[j + 1]? = some g →
        (s.ctx c).frameSeq g =
          ((s.ctx c).frameSeq f + ((s.ctx c).framePayload f).length + seqIncrement fl) % 2 ^ 32)

/-- R156, R181 to R183 and R184 (derived by the spec): what one frame of a payload command appends and changes, in
full, where the payload fits. -/
def Obligations.OneFrameEmissionInFull : Prop :=
  ∀ (i : Instr) (c : CtxIdx) (dir : Dir) (fl : Flags) (s : State), i.emitsPayload c dir fl →
    c.val < s.params.nctx → s.plen.toNat ≤ s.params.payloadMax → (s.ctx c).lstate = .established →
    (s.ctx c).overhead + s.plen.toNat ≤ (s.ctx c).mtu.toNat → s.room (16 + (s.ctx c).overhead + s.plen.toNat) →
    exec i s = .next { s with
      status := statusOk s.status i.opc
      gen := (drawIdent (s.ctx c) s).2.gen
      ctxs := s.ctxs.set c.val ((s.ctx c).advance dir fl s.plen.toNat) c.isLt
      clkUs := s.clkUs + s.delayUs
      out := s.out ++ recordBytes (s.clkUs + s.delayUs)
        (frameBytes s.params (s.ctx c) dir fl (drawIdent (s.ctx c) s).1 s.payload)
      recCount := s.recCount + 1#64 }

/-- R185: BUILD with the empty flag set is EMIT_CLIENT or EMIT_SERVER, but for the opcode STATUS records. -/
def Obligations.BuildWithoutFlagsIsEmit : Prop :=
  ∀ (c : CtxIdx) (s : State), ∃ a b u v,
    exec (.build c .client .none) s = .next a ∧ exec (.emitClient c) s = .next b ∧
    exec (.build c .server .none) s = .next u ∧ exec (.emitServer c) s = .next v ∧
    a = { b with status := a.status } ∧ statusCode a.status = statusCode b.status ∧
    statusSticky a.status = statusSticky b.status ∧
    u = { v with status := u.status } ∧ statusCode u.status = statusCode v.status ∧
    statusSticky u.status = statusSticky v.status

/-! ## The connection commands -/

/-- CREATE of a TCP connection completes from `INIT` or `CLOSED` with a valid configuration whose MTU carries an empty
frame (R125), with room in the output stream, and emits the handshake: R129's flag bytes, sequence and
acknowledgment numbers (derived by the spec), and the sequence numbers it leaves. The flag byte's
offset in a frame is the spec's general knowledge (its G4; log entry 17). -/
def Obligations.CreateTcpEmitsTheHandshake : Prop :=
  ∀ (c : CtxIdx) (s : State), c.val < s.params.nctx → ((s.ctx c).lstate = .init ∨ (s.ctx c).lstate = .closed) →
    s.optionsOk → s.addressesOk → s.cfgCtrl.getLsbD 0 = false →
    (newContext s).1.overhead ≤ (newContext s).1.mtu.toNat → s.room (3 * (16 + (newContext s).1.overhead)) →
    ∃ t f1 f2 f3, exec (.create c) s = .next t ∧
      let n := (newContext s).1
      let x := n.client.seq
      let y := n.server.seq
      framesOf (t.out.drop s.out.length) = some [f1, f2, f3] ∧ s.out <+: t.out ∧
      f1.length = n.overhead ∧ f2.length = n.overhead ∧ f3.length = n.overhead ∧
      n.frameFlags f1 = 0x02 ∧ n.frameSeq f1 = x.toNat ∧ n.frameAck f1 = 0 ∧
      n.frameFlags f2 = 0x12 ∧ n.frameSeq f2 = y.toNat ∧ n.frameAck f2 = (x + 1#32).toNat ∧
      n.frameFlags f3 = 0x10 ∧ n.frameSeq f3 = (x + 1#32).toNat ∧ n.frameAck f3 = (y + 1#32).toNat ∧
      t.ctx c = { n with
        lstate := .established, client := { n.client with seq := x + 1#32 }, server := { n.server with seq := y + 1#32 } } ∧
      (∀ d, d ≠ c → t.ctx d = s.ctx d) ∧
      t.status = statusOk s.status 0x10#8 ∧ t.recCount = s.recCount + 3#64 ∧ t.clkUs = s.clkUs + 3#64 * s.delayUs ∧
      t.gen = gensAfterFrames s.params n (newContext s).2.gen 3 ∧
      t = { s with status := t.status, recCount := t.recCount, clkUs := t.clkUs, out := t.out, gen := t.gen,
                   ctxs := t.ctxs }

/-- R120, R125: CREATE of a UDP connection completes without a frame: the context is loaded and `ESTABLISHED`, and
only the streams of its drawn fields move. -/
def Obligations.CreateUdpEmitsNothing : Prop :=
  ∀ (c : CtxIdx) (s : State), c.val < s.params.nctx → ((s.ctx c).lstate = .init ∨ (s.ctx c).lstate = .closed) →
    s.optionsOk → s.addressesOk → s.cfgCtrl.getLsbD 0 = true →
    exec (.create c) s = .next { s with
      status := statusOk s.status 0x10#8
      gen := (newContext s).2.gen
      ctxs := s.ctxs.set c.val { (newContext s).1 with lstate := .established } c.isLt }

/-- R125 and R126: the fields of the new context, each given or drawn: the two fields of one class share a stream, a
given field consumes no draw, and the client's field is drawn before the server's. -/
def Obligations.NewContextFieldsGivenOrDrawn : Prop :=
  ∀ s : State,
    let k := s.cfgCtrl
    let n := (newContext s).1
    let nx := lcgNext s.params
    let g := fun j : StreamIdx => s.gen.get j
    let after := fun (given : Bool) (v : Dword) => if given then v else nx v
    n.transport = (if k.getLsbD 0 then .udp else .tcp) ∧
    (s.addressesOk → n.ipver = (if k.getLsbD 1 then .v6 else .v4)) ∧
    n.mtu = s.cfgMtu.extractLsb' 0 16 ∧ n.vlanCnt = k.extractLsb' 4 4 ∧
    (∀ i : Fin 15, n.vlan.get i =
      if i.val < (k.extractLsb' 4 4).toNat then (s.cfgVlan.get i).extractLsb' 0 16 else 0#16) ∧
    n.client.mac = (if k.getLsbD 8 then s.cfgSrcMac.extractLsb' 0 48 else (nx (g 0)).extractLsb' 16 48) ∧
    n.server.mac = (if k.getLsbD 9 then s.cfgDstMac.extractLsb' 0 48
      else (nx (after (k.getLsbD 8) (g 0))).extractLsb' 16 48) ∧
    (n.ipver = .v4 →
      n.client.addr = (if k.getLsbD 10 then s.cfgSrcAddr.extractLsb' 0 32 else (nx (g 1)).extractLsb' 32 32).setWidth 128 ∧
      n.server.addr = (if k.getLsbD 11 then s.cfgDstAddr.extractLsb' 0 32
        else (nx (after (k.getLsbD 10) (g 1))).extractLsb' 32 32).setWidth 128) ∧
    (n.ipver = .v6 →
      n.client.addr = (if k.getLsbD 10 then s.cfgSrcAddr else nx (g 1) ++ nx (nx (g 1))) ∧
      n.server.addr = (if k.getLsbD 11 then s.cfgDstAddr
        else nx (if k.getLsbD 10 then g 1 else nx (nx (g 1))) ++ nx (nx (if k.getLsbD 10 then g 1 else nx (nx (g 1)))))) ∧
    n.client.port = (if k.getLsbD 12 then s.cfgPorts.extractLsb' 0 16 else (nx (g 2)).extractLsb' 48 16) ∧
    n.server.port = (if k.getLsbD 13 then s.cfgPorts.extractLsb' 16 16
      else (nx (after (k.getLsbD 12) (g 2))).extractLsb' 48 16) ∧
    n.client.seq = (if k.getLsbD 14 then s.cfgSrcSeq else (nx (g 3)).extractLsb' 32 32) ∧
    n.server.seq = (if k.getLsbD 15 then s.cfgDstSeq else (nx (after (k.getLsbD 14) (g 3))).extractLsb' 32 32) ∧
    (∀ j : StreamIdx, 4 ≤ j.val → (newContext s).2.gen.get j = g j) ∧
    (n.ipver = .v4 → (newContext s).2.gen.get 1 = after (k.getLsbD 11) (after (k.getLsbD 10) (g 1))) ∧
    (n.ipver = .v6 → (newContext s).2.gen.get 1 =
      if k.getLsbD 11 then (if k.getLsbD 10 then g 1 else nx (nx (g 1)))
      else nx (nx (if k.getLsbD 10 then g 1 else nx (nx (g 1))))) ∧
    (newContext s).2.gen.get 0 = after (k.getLsbD 9) (after (k.getLsbD 8) (g 0)) ∧
    (newContext s).2.gen.get 2 = after (k.getLsbD 13) (after (k.getLsbD 12) (g 2)) ∧
    (newContext s).2.gen.get 3 = after (k.getLsbD 15) (after (k.getLsbD 14) (g 3)) ∧
    (newContext s).2 = { s with gen := (newContext s).2.gen }

/-- R127 and R120: what CREATE reports on a context in use, on a configuration value outside the closed set, on a bad
address when the options are good, and on an MTU below the overhead; each writes STATUS only. -/
def Obligations.CreateFaultsInOrder : Prop :=
  ∀ (c : CtxIdx) (s : State), c.val < s.params.nctx →
    ((s.ctx c).lstate ≠ .init → (s.ctx c).lstate ≠ .closed →
      exec (.create c) s = .next { s with status := statusFault 0x10#8 .badState }) ∧
    (((s.ctx c).lstate = .init ∨ (s.ctx c).lstate = .closed) →
      (¬ s.optionsOk → exec (.create c) s = .next { s with status := statusFault 0x10#8 .optionInvalid }) ∧
      (s.optionsOk → ¬ s.addressesOk →
        exec (.create c) s = .next { s with status := statusFault 0x10#8 .addressFormat }) ∧
      (s.optionsOk → s.addressesOk → s.cfgCtrl.getLsbD 0 = false →
        (newContext s).1.mtu.toNat < (newContext s).1.overhead →
        exec (.create c) s = .next { s with status := statusFault 0x10#8 .segImpossible }))

/-- CLOSE of an established TCP context completes where its MTU carries an empty frame, with room in the
output stream, and emits R134's FIN, FIN, ACK (derived by the spec). The flag byte's
offset in a frame is the spec's general knowledge (its G4; log entry 17). -/
def Obligations.CloseTcpEmitsTheTeardown : Prop :=
  ∀ (c : CtxIdx) (s : State), c.val < s.params.nctx → (s.ctx c).lstate = .established →
    (s.ctx c).transport = .tcp → (s.ctx c).overhead ≤ (s.ctx c).mtu.toNat →
    s.room (3 * (16 + (s.ctx c).overhead)) →
    ∃ t f1 f2 f3, exec (.close c) s = .next t ∧
      let n := s.ctx c
      let x := n.client.seq
      let y := n.server.seq
      framesOf (t.out.drop s.out.length) = some [f1, f2, f3] ∧ s.out <+: t.out ∧
      f1.length = n.overhead ∧ f2.length = n.overhead ∧ f3.length = n.overhead ∧
      n.frameFlags f1 = 0x11 ∧ n.frameSeq f1 = x.toNat ∧ n.frameAck f1 = y.toNat ∧
      n.frameFlags f2 = 0x11 ∧ n.frameSeq f2 = y.toNat ∧ n.frameAck f2 = (x + 1#32).toNat ∧
      n.frameFlags f3 = 0x10 ∧ n.frameSeq f3 = (x + 1#32).toNat ∧ n.frameAck f3 = (y + 1#32).toNat ∧
      t.ctx c = { n with
        lstate := .closed, client := { n.client with seq := x + 1#32 }, server := { n.server with seq := y + 1#32 } } ∧
      (∀ d, d ≠ c → t.ctx d = s.ctx d) ∧
      t.status = statusOk s.status 0x13#8 ∧ t.recCount = s.recCount + 3#64 ∧ t.clkUs = s.clkUs + 3#64 * s.delayUs ∧
      t.gen = gensAfterFrames s.params n s.gen 3 ∧
      t = { s with status := t.status, recCount := t.recCount, clkUs := t.clkUs, out := t.out, gen := t.gen,
                   ctxs := t.ctxs }

/-- RESET of an established TCP context completes where its MTU carries an empty frame, with room in the
output stream: one client RST frame with flag byte 0x14, and no sequence number changes (R135). The flag byte's
offset in a frame is the spec's general knowledge (its G4; log entry 17). -/
def Obligations.ResetTcpEmitsOneRst : Prop :=
  ∀ (c : CtxIdx) (s : State), c.val < s.params.nctx → (s.ctx c).lstate = .established →
    (s.ctx c).transport = .tcp → (s.ctx c).overhead ≤ (s.ctx c).mtu.toNat → s.room (16 + (s.ctx c).overhead) →
    ∃ t f, exec (.reset c) s = .next t ∧
      let n := s.ctx c
      framesOf (t.out.drop s.out.length) = some [f] ∧ s.out <+: t.out ∧ f.length = n.overhead ∧
      n.frameFlags f = 0x14 ∧ n.frameSeq f = n.client.seq.toNat ∧ n.frameAck f = n.server.seq.toNat ∧
      t.ctx c = { n with lstate := .closed } ∧ (∀ d, d ≠ c → t.ctx d = s.ctx d) ∧
      t.status = statusOk s.status 0x14#8 ∧ t.recCount = s.recCount + 1#64 ∧ t.clkUs = s.clkUs + s.delayUs ∧
      t.gen = gensAfterFrames s.params n s.gen 1 ∧
      t = { s with status := t.status, recCount := t.recCount, clkUs := t.clkUs, out := t.out, gen := t.gen,
                   ctxs := t.ctxs }

/-- R136: CLOSE and RESET of an established UDP context complete with no frame, no draw and no clock advance; the
context becomes `CLOSED`. -/
def Obligations.UdpCloseAndResetOnlyClose : Prop :=
  ∀ (c : CtxIdx) (s : State), c.val < s.params.nctx → (s.ctx c).lstate = .established → (s.ctx c).transport = .udp →
    exec (.close c) s = .next { s with
      status := statusOk s.status 0x13#8, ctxs := s.ctxs.set c.val { s.ctx c with lstate := .closed } c.isLt } ∧
    exec (.reset c) s = .next { s with
      status := statusOk s.status 0x14#8, ctxs := s.ctxs.set c.val { s.ctx c with lstate := .closed } c.isLt }

/-- R133, R135: under the machine's invariant and with room in the output stream, CLOSE and RESET of an established
context never report `SEG_IMPOSSIBLE`: they complete, and the context is `CLOSED`. -/
def Obligations.CloseAndResetOfAnOpenContextComplete : Prop :=
  ∀ (c : CtxIdx) (s : State), s.Inv → c.val < s.params.nctx → (s.ctx c).lstate = .established →
    s.room (3 * (16 + (s.ctx c).overhead)) →
    ∃ t u, exec (.close c) s = .next t ∧ statusCode t.status = 0x00#8 ∧ (t.ctx c).lstate = .closed ∧
      exec (.reset c) s = .next u ∧ statusCode u.status = 0x00#8 ∧ (u.ctx c).lstate = .closed

/-- R120 and R121: the lifecycle table, with the number of frames of each row, and `BAD_STATE` with no effect for every
cell it does not list. A payload command's frames number R186's count, which is at least one. -/
def Obligations.LifecycleFollowsTheTable : Prop :=
  ∀ (c : CtxIdx) (s : State), c.val < s.params.nctx →
    (∀ t, exec (.create c) s = .next t → statusCode t.status = 0x00#8 →
      ((s.ctx c).lstate = .init ∨ (s.ctx c).lstate = .closed) ∧ (t.ctx c).lstate = .established ∧
      t.recCount = s.recCount + (match (t.ctx c).transport with | .tcp => 3#64 | .udp => 0#64)) ∧
    (∀ i dir fl t, i.emitsPayload c dir fl → exec i s = .next t → statusCode t.status = 0x00#8 →
      (s.ctx c).lstate = .established ∧ (t.ctx c).lstate = .established ∧
      1 ≤ frameCount (s.ctx c).overhead (s.ctx c).mtu.toNat s.plen.toNat ∧
      t.recCount = s.recCount +
        BitVec.ofNat 64 (frameCount (s.ctx c).overhead (s.ctx c).mtu.toNat s.plen.toNat)) ∧
    (∀ t, exec (.close c) s = .next t → statusCode t.status = 0x00#8 →
      (s.ctx c).lstate = .established ∧ (t.ctx c).lstate = .closed ∧
      t.recCount = s.recCount + (match (s.ctx c).transport with | .tcp => 3#64 | .udp => 0#64)) ∧
    (∀ t, exec (.reset c) s = .next t → statusCode t.status = 0x00#8 →
      (s.ctx c).lstate = .established ∧ (t.ctx c).lstate = .closed ∧
      t.recCount = s.recCount + (match (s.ctx c).transport with | .tcp => 1#64 | .udp => 0#64)) ∧
    ((s.ctx c).lstate ≠ .init → (s.ctx c).lstate ≠ .closed →
      exec (.create c) s = .next { s with status := statusFault 0x10#8 .badState }) ∧
    ((s.ctx c).lstate ≠ .established →
      exec (.close c) s = .next { s with status := statusFault 0x13#8 .badState } ∧
      exec (.reset c) s = .next { s with status := statusFault 0x14#8 .badState } ∧
      (s.plen.toNat ≤ s.params.payloadMax → ∀ i dir fl, i.emitsPayload c dir fl →
        exec i s = .next { s with status := statusFault i.opc .badState }))

/-! ## Faults -/

/-- R213: a command that reports a fault leaves everything but STATUS exactly as it was. -/
def Obligations.FaultingCommandWritesOnlyStatus : Prop :=
  ∀ (i : Instr) (s t : State), exec i s = .next t → statusCode t.status ≠ 0x00#8 →
    ∃ e, t = { s with status := statusFault i.opc e }

/-- R36: every command word, defined or not, answers a next state that records its code and its bits [7:0] in
`STATUS`; a fault sets `STICKY`, a completed command keeps it, and the reserved bits read 0. No other host move writes
`STATUS`, but for the reset input, which clears it. -/
def Obligations.EveryCommandReportsInStatus : Prop :=
  (∀ (w : Word) (s : State), ∃ t, issue w s = .next t ∧ statusLastOpc t.status = opcOf w ∧
    t.status.extractLsb' 9 7 = 0#7 ∧ t.status.extractLsb' 24 8 = 0#8 ∧
    ((statusCode t.status = 0x00#8 ∧ statusSticky t.status = statusSticky s.status) ∨
      ((∃ e, statusCode t.status = faultByte e) ∧ statusSticky t.status = true))) ∧
  (∀ (i : Instr) (s : State), ∃ t, exec i s = .next t ∧ statusLastOpc t.status = i.opc) ∧
  (∀ (s t : State) (m : HostMove) (rest : List HostMove), s.moves = m :: rest → step s = .next t →
    (∀ v, m ≠ .write 0#12 4 v) → (m ≠ .reset → t.status = s.status) ∧ (m = .reset → t.status = 0x00000000#32))

/-- R215, over the commands that emit the payload: `BAD_CTX` before `PAYLOAD_LEN`, `PAYLOAD_LEN` before `BAD_STATE`,
`BAD_STATE` before `SEG_IMPOSSIBLE`. The clause on `BAD_CTX` is about terms that the decoder never gives, and its outcome
is the model's choice (log entry 10); of command words, `CommandWordsFaultInDecodeOrder` says it. -/
def Obligations.PayloadCommandFaultPriority : Prop :=
  ∀ (i : Instr) (c : CtxIdx) (dir : Dir) (fl : Flags) (s : State), i.emitsPayload c dir fl →
    (s.params.nctx ≤ c.val → exec i s = .next { s with status := statusFault i.opc .badCtx }) ∧
    (c.val < s.params.nctx → s.params.payloadMax < s.plen.toNat →
      exec i s = .next { s with status := statusFault i.opc .payloadLen }) ∧
    (c.val < s.params.nctx → s.plen.toNat ≤ s.params.payloadMax → (s.ctx c).lstate ≠ .established →
      exec i s = .next { s with status := statusFault i.opc .badState }) ∧
    (c.val < s.params.nctx → s.plen.toNat ≤ s.params.payloadMax → (s.ctx c).lstate = .established →
      (s.ctx c).mtu.toNat ≤ (s.ctx c).overhead → (s.ctx c).mtu.toNat < (s.ctx c).overhead + s.plen.toNat →
      exec i s = .next { s with status := statusFault i.opc .segImpossible })

/-- R63 and R213: where one of an emission's records would make `OUT_LEN` exceed `OUT_MAX`, the command reports
`OUT_OVERFLOW` and none of its records is kept. -/
def Obligations.OverflowDiscardsTheWholeEmission : Prop :=
  ∀ (i : Instr) (c : CtxIdx) (dir : Dir) (fl : Flags) (s : State) (m : Nat), i.emitsPayload c dir fl →
    c.val < s.params.nctx → s.plen.toNat ≤ s.params.payloadMax → (s.ctx c).lstate = .established →
    carries (s.ctx c) s.plen.toNat → s.params.outMax = some m →
    m < s.out.length + frameCount (s.ctx c).overhead (s.ctx c).mtu.toNat s.plen.toNat * (16 + (s.ctx c).overhead)
      + s.plen.toNat →
    exec i s = .next { s with status := statusFault i.opc .outOverflow }

/-- R63 and R213 for the connection commands: CREATE, CLOSE and RESET of a TCP connection whose frames would make
`OUT_LEN` exceed `OUT_MAX` report `OUT_OVERFLOW`, and no frame, draw or context change made before it in the command
is kept. -/
def Obligations.OverflowUndoesAConnectionCommand : Prop :=
  ∀ (c : CtxIdx) (s : State) (m : Nat), c.val < s.params.nctx → s.params.outMax = some m →
    (((s.ctx c).lstate = .init ∨ (s.ctx c).lstate = .closed) → s.optionsOk → s.addressesOk →
      s.cfgCtrl.getLsbD 0 = false → (newContext s).1.overhead ≤ (newContext s).1.mtu.toNat →
      m < s.out.length + 3 * (16 + (newContext s).1.overhead) →
      exec (.create c) s = .next { s with status := statusFault 0x10#8 .outOverflow }) ∧
    ((s.ctx c).lstate = .established → (s.ctx c).transport = .tcp → (s.ctx c).overhead ≤ (s.ctx c).mtu.toNat →
      (m < s.out.length + 3 * (16 + (s.ctx c).overhead) →
        exec (.close c) s = .next { s with status := statusFault 0x13#8 .outOverflow }) ∧
      (m < s.out.length + (16 + (s.ctx c).overhead) →
        exec (.reset c) s = .next { s with status := statusFault 0x14#8 .outOverflow }))

/-- R211, the spec's own derivation: the faults each command can report beyond those of decoding, and that a UDP
connection's CREATE, CLOSE and RESET never report `SEG_IMPOSSIBLE` or `OUT_OVERFLOW`. -/
def Obligations.EachCommandRaisesOnlyItsFaults : Prop :=
  ∀ (i : Instr) (s t : State), exec i s = .next t → statusCode t.status ≠ 0x00#8 →
    ∃ e ∈ i.faults, statusCode t.status = faultByte e ∧
      (i.wf s.params = true → e ≠ .badCtx) ∧
      (∀ c, (i = .create c ∧ s.cfgCtrl.getLsbD 0 = true) ∨
          ((i = .close c ∨ i = .reset c) ∧ (s.ctx c).transport = .udp) →
        e ≠ .segImpossible ∧ e ≠ .outOverflow)

/-! ## Whole-machine rules -/

/-- R34, R35, R37, R24, R235: no command writes an operand, payload or configuration register, the parameters, or the
host's moves; only SEED writes a seed, only DRAW writes RESULT, only SESSION_INIT writes DELAY_US, and only RENDER
answers the host (the last is the model's own, log entry 3). -/
def Obligations.CommandsWriteOnlyTheirRegisters : Prop :=
  ∀ (i : Instr) (s t : State), exec i s = .next t →
    t = { s with
      status := t.status, clkUs := t.clkUs, out := t.out, recCount := t.recCount, gen := t.gen, ctxs := t.ctxs
      seed := t.seed, result := t.result, delayUs := t.delayUs, reply := t.reply } ∧
    ((∀ k, i ≠ .seed k) → t.seed = s.seed) ∧ ((∀ k, i ≠ .draw k) → t.result = s.result) ∧
    (i ≠ .sessionInit → t.delayUs = s.delayUs) ∧ (i ≠ .render → t.reply = s.reply)

/-- R29 and R28: a command writes no context but the one it names (SESSION_INIT resets them all); and of that one, only
CREATE writes a field other than `lstate` and the sequence numbers, only CLOSE and RESET write its `lstate`. -/
def Obligations.CommandsWriteOnlyTheirContext : Prop :=
  ∀ (i : Instr) (s t : State), exec i s = .next t → i ≠ .sessionInit →
    (∀ d, i.ctx? ≠ some d → t.ctx d = s.ctx d) ∧
    (∀ c, i ≠ .create c →
      t.ctx c = { s.ctx c with
        lstate := (t.ctx c).lstate
        client := { (s.ctx c).client with seq := (t.ctx c).client.seq }
        server := { (s.ctx c).server with seq := (t.ctx c).server.seq } } ∧
      (i ≠ .close c → i ≠ .reset c → (t.ctx c).lstate = (s.ctx c).lstate))

/-- R25, R181, R193: no command but SESSION_INIT removes a byte of `OUT`, and but for INSERT_DELAY the clock moves by
exactly `DELAY_US` for each record counted. -/
def Obligations.OutGrowsAndClockFollowsRecords : Prop :=
  ∀ (i : Instr) (s t : State), exec i s = .next t → i ≠ .sessionInit →
    s.out <+: t.out ∧
    ∃ m : Nat, t.recCount = s.recCount + BitVec.ofNat 64 m ∧ s.out.length + 16 * m ≤ t.out.length ∧
      (i ≠ .insertDelay → t.clkUs = s.clkUs + BitVec.ofNat 64 m * s.delayUs)

/-- The machine's invariant is kept by every step: the parameters stay valid, the payload buffer canonical and inside
`PAYLOAD_MAX`, STATUS well-formed, every context in a legal state with its tags and addresses in range, the absent
contexts at 0, and `OUT` inside `OUT_MAX`. The canonical form of the buffer, the absent contexts and the bound on
`TS_DEFAULT` are the model's (log entries 5, 12 and 22). -/
def Obligations.EveryStepKeepsTheInvariant : Prop :=
  ∀ s t : State, s.Inv → step s = .next t → t.Inv

/-- R200, the spec's own derivation: every step keeps the container property: the container is 24 bytes and `OUT`,
which splits exactly into `REC_COUNT` records whose declared lengths match their byte lengths and are within the snap
length. -/
def Obligations.EveryStepKeepsTheContainerSplitting : Prop :=
  ∀ s t : State, s.containerSplits → step s = .next t → t.containerSplits

/-! ## The host interface -/

/-- R44 and R45: every register's address, width in bytes and access kind, and which registers are mapped; and, with the
default parameters, every register of the map is reached by an access of its width at its address, and no two share a
byte (with others two context blocks can meet, and tag registers of context 15 lie past the register space, log entry 8).
-/
def Obligations.EveryMappedRegisterIsReached : Prop :=
  (∀ row ∈ [(Reg.cmd, 0x000, 4, Access.wo), (.status, 0x004, 4, .ro), (.result, 0x008, 8, .ro), (.arg, 0x010, 8, .rw),
      (.plen, 0x018, 4, .rw), (.cfgTsSec, 0x020, 4, .rw), (.cfgTsUsec, 0x024, 4, .rw), (.cfgDelayUs, 0x028, 8, .rw),
      (.clkUs, 0x030, 8, .ro), (.delayUs, 0x038, 8, .ro), (.outLen, 0x040, 8, .ro), (.recCount, 0x048, 8, .ro),
      (.cfgCtrl, 0x100, 4, .rw), (.cfgMtu, 0x104, 4, .rw), (.cfgPorts, 0x108, 4, .rw), (.cfgSrcSeq, 0x110, 4, .rw),
      (.cfgDstSeq, 0x114, 4, .rw), (.cfgSrcMac, 0x118, 8, .rw), (.cfgDstMac, 0x120, 8, .rw),
      (.cfgSrcAddr, 0x128, 16, .rw), (.cfgDstAddr, 0x138, 16, .rw)],
    (row.1.addr, row.1.bytes, row.1.access) = row.2) ∧
  (∀ k : StreamIdx, ((Reg.seed k).addr, (Reg.seed k).bytes, (Reg.seed k).access) = (0x080 + 8 * k.val, 8, .rw) ∧
    ((Reg.gen k).addr, (Reg.gen k).bytes, (Reg.gen k).access) = (0x0C0 + 8 * k.val, 8, .ro)) ∧
  (∀ i : Fin 15, ((Reg.cfgVlan i).addr, (Reg.cfgVlan i).bytes, (Reg.cfgVlan i).access) = (0x150 + 4 * i.val, 4, .rw)) ∧
  (∀ c : CtxIdx,
    (∀ row ∈ [(Reg.ctxCtrl c, 0x00, 4), (.ctxMtu c, 0x04, 4), (.ctxPorts c, 0x08, 4), (.ctxCliSeq c, 0x10, 4),
        (.ctxSrvSeq c, 0x14, 4), (.ctxCliMac c, 0x18, 8), (.ctxSrvMac c, 0x20, 8), (.ctxCliAddr c, 0x28, 16),
        (.ctxSrvAddr c, 0x38, 16)],
      (row.1.addr, row.1.bytes, row.1.access) = (0x800 + 0x80 * c.val + row.2.1, row.2.2, .ro)) ∧
    (∀ i : Fin 15, ((Reg.ctxVlan c i).addr, (Reg.ctxVlan c i).bytes, (Reg.ctxVlan c i).access)
      = (0x800 + 0x80 * c.val + 0x50 + 4 * i.val, 4, .ro))) ∧
  (∀ (p : Params) (r : Reg), r ∈ mappedRegs p ↔ r.isMapped p) ∧
  (∀ r ∈ mappedRegs .default, regAccess .default (BitVec.ofNat 12 r.addr) r.bytes = .whole r) ∧
  (mappedRegs .default).Nodup ∧
  (∀ q ∈ mappedRegs .default, ∀ r ∈ mappedRegs .default, q ≠ r → q.overlaps r.addr r.bytes = false)

/-- R44, R21: a host write of an RW register is read back, cut to the register's width; it changes no other register; a
write of an RO register is ignored. A host write of `CMD` is no register write but issues a command (R33, R62):
`StepRunsTheDecodedCommand` says what it does. -/
def Obligations.RegisterWritesAreReadBackAlone : Prop :=
  ∀ (s : State) (r : Reg) (v : BitVec 128),
    (r.access = .rw → (r.read (r.write v s)).toNat = v.toNat % 2 ^ (8 * r.bytes)) ∧
    (r ≠ .cmd → r.access ≠ .rw → r.write v s = s) ∧
    (r ≠ .cmd → ∀ q : Reg, q ≠ r → q.read (r.write v s) = q.read s)

/-- R62, R44: a host write of a mapped register other than CMD is that register's write, and a read of one answers its
value. The rest is the model's reading of R62 and R60: an access that reaches a register only in part, or several, or
that is of no byte, is refused, and an unmapped access of any width reads 0 and writes nothing (both log entry 6); one
that runs past 0xFFF stops (log entry 7). -/
def Obligations.HostRegisterAccesses : Prop :=
  ∀ (s : State) (rest : List HostMove) (addr : BitVec 12) (n : Nat) (v : BitVec 128),
    (∀ r, r ≠ .cmd → regAccess s.params addr n = .whole r → s.moves = .write addr n v :: rest →
      step s = .next (r.write v { s with moves := rest })) ∧
    (∀ r, regAccess s.params addr n = .whole r → s.moves = .read addr n :: rest →
      step s = .next { s with moves := rest, reply := .register (r.read s) }) ∧
    (addr.toNat + n ≤ 0x1000 → (∀ r ∈ mappedRegs s.params, ¬ (r.addr = addr.toNat ∧ r.bytes = n)) →
      (∃ r ∈ mappedRegs s.params, r.overlaps addr.toNat n = true) ∨ n = 0 →
      (s.moves = .write addr n v :: rest → step s = .refused (.partialRegisterAccess addr n)) ∧
      (s.moves = .read addr n :: rest → step s = .refused (.partialRegisterAccess addr n))) ∧
    (addr.toNat + n ≤ 0x1000 → n ≠ 0 → (∀ r ∈ mappedRegs s.params, r.overlaps addr.toNat n = false) →
      (s.moves = .write addr n v :: rest → step s = .next { s with moves := rest }) ∧
      (s.moves = .read addr n :: rest → step s = .next { s with moves := rest, reply := .register 0#128 })) ∧
    (0x1000 < addr.toNat + n →
      (s.moves = .write addr n v :: rest → step s = .fault (.noSuchRegisterByte addr n)) ∧
      (s.moves = .read addr n :: rest → step s = .fault (.noSuchRegisterByte addr n)))

/-- R70: no read of any space has a side effect: a read move changes only what the host got back and the host's queue
(both the model's own, log entries 2 and 3). A read of a payload byte below `PAYLOAD_MAX` and of any index of `OUT`
answers; of a payload byte that does not exist it stops (the model's, log entry 7). -/
def Obligations.ReadsHaveNoSideEffect : Prop :=
  (∀ (s t : State) (m : HostMove) (rest : List HostMove), s.moves = m :: rest →
    ((∃ addr n, m = .read addr n) ∨ (∃ a, m = .readPbuf a) ∨ (∃ a, m = .readOut a)) → step s = .next t →
    t = { s with moves := rest, reply := t.reply }) ∧
  (∀ (s : State) (rest : List HostMove) (a : Nat),
    (s.moves = .readPbuf a :: rest →
      (a < s.params.payloadMax → step s = .next { s with moves := rest, reply := .byte (s.pbufByte a) }) ∧
      (s.params.payloadMax ≤ a → step s = .fault (.noSuchPbufByte a))) ∧
    (s.moves = .readOut a :: rest → step s = .next { s with
      moves := rest, reply := .byte (if a < s.out.length then s.out.getD a 0#8 else 0#8) }))

/-- R61: a payload byte the host writes is what the payload then holds at its index, every other byte is as it was,
and a write at or above `PAYLOAD_MAX` stops (the stop is the model's, log entry 7). -/
def Obligations.PayloadBytesAreReadBack : Prop :=
  ∀ (s : State) (rest : List HostMove) (a : Nat) (b : Byte), s.moves = .writePbuf a b :: rest →
    (a < s.params.payloadMax → ∃ t, step s = .next t ∧ t.pbufByte a = b ∧
      (∀ d, d ≠ a → t.pbufByte d = s.pbufByte d) ∧
      (∀ i n, pbufRead t i n = (List.range n).map fun j => if i + j = a then b else s.pbufByte (i + j)) ∧
      t = { s with moves := rest, pbuf := t.pbuf }) ∧
    (s.params.payloadMax ≤ a → step s = .fault (.noSuchPbufByte a))

/-- R33, R44 and R45: the value every register reads as. `CMD` reads 0, `OUT_LEN` the length of `OUT` (modulo 2^64, log
entry 9), every other register of R44 its state, and a context block its context's fields at R45's places, the states
numbered by R27. -/
def Obligations.RegistersReadAsTheirState : Prop :=
  ∀ s : State,
    (Reg.read .cmd s).toNat = 0 ∧ (Reg.read .status s).toNat = s.status.toNat ∧
    (Reg.read .result s).toNat = s.result.toNat ∧ (Reg.read .arg s).toNat = s.arg.toNat ∧
    (Reg.read .plen s).toNat = s.plen.toNat ∧ (Reg.read .cfgTsSec s).toNat = s.cfgTsSec.toNat ∧
    (Reg.read .cfgTsUsec s).toNat = s.cfgTsUsec.toNat ∧ (Reg.read .cfgDelayUs s).toNat = s.cfgDelayUs.toNat ∧
    (Reg.read .clkUs s).toNat = s.clkUs.toNat ∧ (Reg.read .delayUs s).toNat = s.delayUs.toNat ∧
    (Reg.read .outLen s).toNat = s.out.length % 2 ^ 64 ∧ (Reg.read .recCount s).toNat = s.recCount.toNat ∧
    (∀ k : StreamIdx, (Reg.read (.seed k) s).toNat = (s.seed.get k).toNat ∧
      (Reg.read (.gen k) s).toNat = (s.gen.get k).toNat) ∧
    (Reg.read .cfgCtrl s).toNat = s.cfgCtrl.toNat ∧ (Reg.read .cfgMtu s).toNat = s.cfgMtu.toNat ∧
    (Reg.read .cfgPorts s).toNat = s.cfgPorts.toNat ∧ (Reg.read .cfgSrcSeq s).toNat = s.cfgSrcSeq.toNat ∧
    (Reg.read .cfgDstSeq s).toNat = s.cfgDstSeq.toNat ∧ (Reg.read .cfgSrcMac s).toNat = s.cfgSrcMac.toNat ∧
    (Reg.read .cfgDstMac s).toNat = s.cfgDstMac.toNat ∧ (Reg.read .cfgSrcAddr s).toNat = s.cfgSrcAddr.toNat ∧
    (Reg.read .cfgDstAddr s).toNat = s.cfgDstAddr.toNat ∧
    (∀ i : Fin 15, (Reg.read (.cfgVlan i) s).toNat = (s.cfgVlan.get i).toNat) ∧
    (∀ c : CtxIdx,
      let x := s.ctx c
      (Reg.read (.ctxCtrl c) s).toNat = (match x.transport with | .tcp => 0 | .udp => 1)
        + 2 ^ 1 * (match x.ipver with | .v4 => 0 | .v6 => 1) + 2 ^ 4 * x.vlanCnt.toNat
        + 2 ^ 8 * (match x.lstate with
          | .init => 0 | .handshaking => 1 | .established => 2 | .closing => 3 | .reset => 4 | .closed => 5) ∧
      (Reg.read (.ctxMtu c) s).toNat = x.mtu.toNat ∧
      (Reg.read (.ctxPorts c) s).toNat = x.client.port.toNat + 2 ^ 16 * x.server.port.toNat ∧
      (Reg.read (.ctxCliSeq c) s).toNat = x.client.seq.toNat ∧ (Reg.read (.ctxSrvSeq c) s).toNat = x.server.seq.toNat ∧
      (Reg.read (.ctxCliMac c) s).toNat = x.client.mac.toNat ∧ (Reg.read (.ctxSrvMac c) s).toNat = x.server.mac.toNat ∧
      (Reg.read (.ctxCliAddr c) s).toNat = x.client.addr.toNat ∧
      (Reg.read (.ctxSrvAddr c) s).toNat = x.server.addr.toNat ∧
      (∀ i : Fin 15, (Reg.read (.ctxVlan c i) s).toNat = (x.vlan.get i).toNat))

/-! ## The records a command appends, byte for byte -/

/-- R152, R153, R155, R162, R172, R181 to R183: the bytes a payload command appends are, in order, one record for each
chunk: the clock advanced once more for each, the identification the next draw of stream 4 for each, the command's
direction and flags on each, the sender's sequence number past the chunks before, and the next `k` bytes of the payload.
-/
def Obligations.EmittedRecordsInOrder : Prop :=
  ∀ (i : Instr) (c : CtxIdx) (dir : Dir) (fl : Flags) (s : State), i.emitsPayload c dir fl →
    c.val < s.params.nctx → s.plen.toNat ≤ s.params.payloadMax → (s.ctx c).lstate = .established →
    carries (s.ctx c) s.plen.toNat →
    s.room (frameCount (s.ctx c).overhead (s.ctx c).mtu.toNat s.plen.toNat * (16 + (s.ctx c).overhead)
      + s.plen.toNat) →
    ∃ t, exec i s = .next t ∧
      let x := s.ctx c
      let k := if x.overhead + s.plen.toNat ≤ x.mtu.toNat then s.plen.toNat else x.mtu.toNat - x.overhead
      t.out = s.out ++ (List.range (frameCount x.overhead x.mtu.toNat s.plen.toNat)).flatMap fun j =>
        s.recordAt j (x.afterSegments dir fl (j * k) j) dir fl ((s.payload.drop (j * k)).take k)

/-- R128, R133, R135, with R162, R172 and R181 to R183: the bytes CREATE, CLOSE and RESET of a TCP connection append are,
in order, the records of their frames, each with its direction and flags and no payload, on the context whose sequence
numbers the frames before it advanced. -/
def Obligations.ConnectionRecordsInOrder : Prop :=
  ∀ (c : CtxIdx) (s : State), c.val < s.params.nctx →
    (((s.ctx c).lstate = .init ∨ (s.ctx c).lstate = .closed) → s.optionsOk → s.addressesOk →
      s.cfgCtrl.getLsbD 0 = false → (newContext s).1.overhead ≤ (newContext s).1.mtu.toNat →
      s.room (3 * (16 + (newContext s).1.overhead)) →
      ∃ t, exec (.create c) s = .next t ∧
        let n := (newContext s).1
        let n1 := { n with client := { n.client with seq := n.client.seq + 1#32 } }
        let n2 := { n1 with server := { n1.server with seq := n1.server.seq + 1#32 } }
        t.out = s.out ++ s.recordAt 0 n .client .SYN [] ++ s.recordAt 1 n1 .server .SYN_ACK []
          ++ s.recordAt 2 n2 .client .none []) ∧
    ((s.ctx c).lstate = .established → (s.ctx c).transport = .tcp → (s.ctx c).overhead ≤ (s.ctx c).mtu.toNat →
      (s.room (3 * (16 + (s.ctx c).overhead)) → ∃ t, exec (.close c) s = .next t ∧
        let n := s.ctx c
        let n1 := { n with client := { n.client with seq := n.client.seq + 1#32 } }
        let n2 := { n1 with server := { n1.server with seq := n1.server.seq + 1#32 } }
        t.out = s.out ++ s.recordAt 0 n .client .FIN [] ++ s.recordAt 1 n1 .server .FIN []
          ++ s.recordAt 2 n2 .client .none []) ∧
      (s.room (16 + (s.ctx c).overhead) → ∃ t, exec (.reset c) s = .next t ∧
        t.out = s.out ++ s.recordAt 0 (s.ctx c) .client .RST []))
end

