-- ==== Sys2Proof/Laws/Checksum.lean ====
section
/-! SUPPORT. The folding loop of the checksum engine ends below 2^16, keeps the sum modulo 65535, and gives 0 only for 0
(R101, R104). -/

namespace Sys2Proof.Laws

open Sys2Proof.Machine

theorem fold_step (acc : Nat) : (acc &&& 0xFFFF) + (acc >>> 16) = acc % 65536 + acc / 65536 := by
  rw [show (0xFFFF : Nat) = 2 ^ 16 - 1 from rfl, Nat.and_two_pow_sub_one_eq_mod, Nat.shiftRight_eq_div_pow]

theorem foldCarry_le (fuel acc : Nat) (h : acc ≤ fuel) : foldCarry fuel acc ≤ 0xFFFF := by
  induction fuel generalizing acc with
  | zero => simp only [foldCarry]; omega
  | succ n ih =>
    unfold foldCarry
    split
    · rw [fold_step]
      exact ih _ (by omega)
    · omega

theorem foldCarry_mod (fuel acc : Nat) : foldCarry fuel acc % 65535 = acc % 65535 := by
  induction fuel generalizing acc with
  | zero => rfl
  | succ n ih =>
    unfold foldCarry
    split
    · rw [ih, fold_step]
      omega
    · rfl

theorem foldCarry_eq_zero (fuel acc : Nat) : foldCarry fuel acc = 0 ↔ acc = 0 := by
  induction fuel generalizing acc with
  | zero => rfl
  | succ n ih =>
    unfold foldCarry
    split
    · rw [ih, fold_step]
      omega
    · rfl

theorem osum_le (b : List Byte) (seed : Nat) : osum b seed ≤ 0xFFFF := foldCarry_le _ _ (Nat.le_refl _)

theorem osum_mod (b : List Byte) (seed : Nat) : osum b seed % 65535 = (seed + wordSum b) % 65535 := foldCarry_mod _ _

theorem osum_eq_zero (b : List Byte) (seed : Nat) : osum b seed = 0 ↔ seed + wordSum b = 0 := foldCarry_eq_zero _ _

/-- A range of even length before another adds its own words to the sum. -/
theorem wordSum_append (b c : List Byte) (h : b.length % 2 = 0) : wordSum (b ++ c) = wordSum b + wordSum c := by
  induction b using wordSum.induct with
  | case1 => simp [wordSum]
  | case2 x => simp at h
  | case3 x y rest ih =>
    have : rest.length % 2 = 0 := by simp only [List.length_cons] at h; omega
    simp only [List.cons_append, wordSum, ih this]
    omega

theorem wordSum_be16 (v : BitVec 16) : wordSum (be16 v) = v.toNat := by
  simp only [be16, wordSum, BitVec.extractLsb'_toNat]
  have := v.isLt
  simp only [Nat.shiftRight_eq_div_pow]
  omega

theorem cks_toNat (b : List Byte) (seed : Nat) : (cks b seed).toNat = 0xFFFF - osum b seed := by
  have := osum_le b seed
  simp only [cks, BitVec.toNat_not, BitVec.toNat_ofNat]
  omega

end Sys2Proof.Laws
end

