-- ==== Sys2Proof/Laws/Frame.lean ====
section
/-! SUPPORT. The lengths of the frame builder's parts (R150, R158, R160, R164, R170, R177, R182). -/

namespace Sys2Proof.Laws

open Sys2Proof.Machine

@[simp] theorem length_be16 (v : BitVec 16) : (be16 v).length = 2 := rfl
@[simp] theorem length_be32 (v : BitVec 32) : (be32 v).length = 4 := rfl
@[simp] theorem length_le16 (v : BitVec 16) : (le16 v).length = 2 := rfl
@[simp] theorem length_le32 (v : BitVec 32) : (le32 v).length = 4 := rfl

@[simp] theorem length_beN {w : Nat} (v : BitVec w) (k : Nat) : (beN v k).length = k := by
  induction k with
  | zero => rfl
  | succ k ih => simp [beN, ih]

@[simp] theorem length_tags (x : Context) : x.tags.length = x.vlanCnt.toNat := by
  have := x.vlanCnt.isLt
  simp only [Context.tags, List.length_take, Vector.length_toList]
  omega

@[simp] theorem length_tagBytes (ts : List (BitVec 16)) : (tagBytes ts).length = 4 * ts.length := by
  have nested : ∀ us : List (BitVec 16), (us.flatMap fun u => be16 0x9100#16 ++ be16 u).length = 4 * us.length := by
    intro us
    induction us with
    | nil => rfl
    | cons u us ih =>
      rw [List.flatMap_cons, List.length_append, ih]
      simp only [List.length_append, length_be16, List.length_cons]
      omega
  cases ts with
  | nil => rfl
  | cons t ts =>
    simp only [tagBytes, List.length_append, length_be16, nested, List.length_cons]
    omega

@[simp] theorem length_linkHeader (x : Context) (dir : Dir) : (linkHeader x dir).length = x.linkLen := by
  simp only [linkHeader, List.length_append, length_beN, length_tagBytes, length_tags, length_be16, Context.linkLen]
  omega

theorem length_addressBytes (x : Context) (dir : Dir) :
    (addressBytes x dir).length = match x.ipver with | .v4 => 8 | .v6 => 32 := by
  unfold addressBytes
  cases x.ipver <;> simp

@[simp] theorem length_ipv4HeaderWith (p : Params) (x : Context) (dir : Dir) (ident : BitVec 16) (n : Nat)
    (ck : BitVec 16) (h : x.ipver = .v4) : (ipv4HeaderWith p x dir ident n ck).length = 20 := by
  simp [ipv4HeaderWith, length_addressBytes, h]

@[simp] theorem length_networkHeader (p : Params) (x : Context) (dir : Dir) (ident : BitVec 16) (n : Nat) :
    (networkHeader p x dir ident n).length = x.ipHeaderLen := by
  unfold networkHeader Context.ipHeaderLen
  cases h : x.ipver
  · simp [ipv4Header, h]
  · simp [ipv6Header, length_addressBytes, h]

@[simp] theorem length_tcpSegmentWith (p : Params) (x : Context) (dir : Dir) (fl : Flags) (pay : List Byte)
    (ck : BitVec 16) : (tcpSegmentWith p x dir fl pay ck).length = 20 + pay.length := by
  simp only [tcpSegmentWith, List.length_append, length_be16, length_be32, List.length_cons, List.length_nil]

@[simp] theorem length_udpSegment (x : Context) (dir : Dir) (pay : List Byte) :
    (udpSegment x dir pay).length = 8 + pay.length := by
  simp only [udpSegment, List.length_append, length_be16]

@[simp] theorem length_transportSegment (p : Params) (x : Context) (dir : Dir) (fl : Flags) (pay : List Byte) :
    (transportSegment p x dir fl pay).length = x.transportHeaderLen + pay.length := by
  unfold transportSegment Context.transportHeaderLen
  cases x.transport <;> simp [tcpSegment]

@[simp] theorem length_recordHeader (clk : Dword) (n : Nat) : (recordHeader clk n).length = 16 := by
  simp [recordHeader]

@[simp] theorem length_recordBytes (clk : Dword) (f : List Byte) : (recordBytes clk f).length = 16 + f.length := by
  simp [recordBytes]

/-- What an emission changes in a context keeps the frame's overhead and MTU. -/
@[simp] theorem overhead_advance (x : Context) (dir : Dir) (fl : Flags) (n : Nat) :
    (x.advance dir fl n).overhead = x.overhead := by
  unfold Context.advance
  cases h : x.transport <;> cases dir <;>
    simp [Context.setSender, Context.overhead, Context.linkLen, Context.ipHeaderLen, Context.transportHeaderLen, h]

@[simp] theorem advance_mtu (x : Context) (dir : Dir) (fl : Flags) (n : Nat) : (x.advance dir fl n).mtu = x.mtu := by
  unfold Context.advance
  cases x.transport <;> cases dir <;> rfl

@[simp] theorem advance_lstate (x : Context) (dir : Dir) (fl : Flags) (n : Nat) :
    (x.advance dir fl n).lstate = x.lstate := by
  unfold Context.advance
  cases x.transport <;> cases dir <;> rfl

@[simp] theorem advance_transport (x : Context) (dir : Dir) (fl : Flags) (n : Nat) :
    (x.advance dir fl n).transport = x.transport := by
  unfold Context.advance
  cases h : x.transport <;> cases dir <;> simp [Context.setSender, h]

@[simp] theorem advance_ipver (x : Context) (dir : Dir) (fl : Flags) (n : Nat) :
    (x.advance dir fl n).ipver = x.ipver := by
  unfold Context.advance
  cases x.transport <;> cases dir <;> rfl

end Sys2Proof.Laws
end

