-- ==== Sys2Proof/Laws/Container.lean ====
section
/-! SUPPORT. Splitting record bytes into frames (R200): one record gives its frame back, and record sequences split one
after the other. -/

namespace Sys2Proof.Laws

open Sys2Proof.Machine

theorem le32dec_le32 (v : BitVec 32) (rest : List Byte) : le32dec (le32 v ++ rest) = v.toNat := by
  have := v.isLt
  simp only [le32, le32dec, byteAt, List.cons_append, List.getD_cons_zero, List.getD_cons_succ, BitVec.extractLsb'_toNat,
    Nat.shiftRight_eq_div_pow]
  omega

/-- The captured-length field of a record (R182). -/
theorem recordBytes_length_field (clk : Dword) (f rest : List Byte) (h : f.length < 2 ^ 32) :
    le32dec ((recordBytes clk f ++ rest).drop 8) = f.length := by
  have e : (recordBytes clk f ++ rest).drop 8
      = le32 (BitVec.ofNat 32 f.length) ++ (le32 (BitVec.ofNat 32 f.length) ++ f ++ rest) := by
    simp only [recordBytes, recordHeader, List.append_assoc]
    rfl
  rw [e, le32dec_le32, BitVec.toNat_ofNat, Nat.mod_eq_of_lt h]

/-- More fuel than it takes changes nothing. -/
theorem splitFrames_fuel {n : Nat} {bs : List Byte} {fs : List (List Byte)} (h : splitFrames n bs = some fs) {m : Nat}
    (hm : n ≤ m) : splitFrames m bs = some fs := by
  induction n generalizing bs fs m with
  | zero =>
    cases bs with
    | nil => cases m <;> simpa [splitFrames] using h
    | cons b bs => simp [splitFrames] at h
  | succ n ih =>
    cases bs with
    | nil => cases m <;> simpa [splitFrames] using h
    | cons b bs =>
      obtain ⟨m, rfl⟩ : ∃ k, m = k + 1 := ⟨m - 1, by omega⟩
      simp only [splitFrames] at h ⊢
      split at h
      · cases h
      · rename_i hl
        rw [if_neg hl]
        obtain ⟨gs, hg, rfl⟩ := Option.map_eq_some_iff.1 h
        rw [ih hg (by omega)]
        rfl

/-- A record before other bytes: its frame, then the frames of those. -/
theorem splitFrames_record (clk : Dword) (f rest : List Byte) (h : f.length < 2 ^ 32) (n : Nat) :
    splitFrames (n + 1) (recordBytes clk f ++ rest) = (splitFrames n rest).map fun fs => f :: fs := by
  have hl := recordBytes_length_field clk f rest h
  have hlen : (recordBytes clk f).length = 16 + f.length := length_recordBytes clk f
  have hdrop : (recordBytes clk f ++ rest).drop (16 + f.length) = rest := by
    rw [← hlen, List.drop_left]
  have hfr : ((recordBytes clk f ++ rest).drop 16).take f.length = f := by
    simp only [recordBytes, List.append_assoc]
    rw [show 16 = (recordHeader clk f.length).length by simp, List.drop_left, List.take_left]
  obtain ⟨b, bs, hb⟩ : ∃ b bs, recordBytes clk f ++ rest = b :: bs := by
    cases hc : recordBytes clk f ++ rest with
    | nil =>
      have := congrArg List.length hc
      simp at this
    | cons b bs => exact ⟨b, bs, rfl⟩
  have hge : ¬ (recordBytes clk f ++ rest).length < 16 + f.length := by
    rw [List.length_append, hlen]
    omega
  rw [hb] at hl hdrop hfr hge ⊢
  simp only [splitFrames, hl, hdrop, hfr]
  rw [if_neg hge]

theorem splitFrames_append {n : Nat} {a : List Byte} {fs gs : List (List Byte)} (ha : splitFrames n a = some fs) {m : Nat}
    {b : List Byte} (hb : splitFrames m b = some gs) : splitFrames (n + m) (a ++ b) = some (fs ++ gs) := by
  induction n generalizing a fs with
  | zero =>
    cases a with
    | nil =>
      obtain rfl : [] = fs := by simpa [splitFrames] using ha
      simpa using hb
    | cons x xs => simp [splitFrames] at ha
  | succ n ih =>
    cases a with
    | nil =>
      obtain rfl : [] = fs := by simpa [splitFrames] using ha
      exact splitFrames_fuel hb (by omega)
    | cons x xs =>
      rw [show n + 1 + m = (n + m) + 1 by omega]
      simp only [splitFrames] at ha
      split at ha
      · cases ha
      · rename_i hl
        obtain ⟨gs', hg, rfl⟩ := Option.map_eq_some_iff.1 ha
        have h16 : ((x :: xs).drop 8).length = (x :: xs).length - 8 := List.length_drop ..
        have hge : 16 ≤ (x :: xs).length := by omega
        have hd8 : (x :: xs ++ b).drop 8 = (x :: xs).drop 8 ++ b := List.drop_append_of_le_length (by omega)
        have hle : le32dec ((x :: xs ++ b).drop 8) = le32dec ((x :: xs).drop 8) := by
          rw [hd8]
          simp only [le32dec, byteAt]
          simp only [List.getD_append _ _ _ _ (show 0 < ((x :: xs).drop 8).length by omega),
            List.getD_append _ _ _ _ (show 1 < ((x :: xs).drop 8).length by omega),
            List.getD_append _ _ _ _ (show 2 < ((x :: xs).drop 8).length by omega),
            List.getD_append _ _ _ _ (show 3 < ((x :: xs).drop 8).length by omega)]
        have key := ih hg
        simp only [List.cons_append] at hle ⊢
        simp only [splitFrames, hle]
        rw [if_neg (by simp only [List.length_cons, List.length_append] at hl ⊢; omega), ← List.cons_append,
          List.drop_append_of_le_length (l₁ := x :: xs) (i := 16 + le32dec (List.drop 8 (x :: xs))) (by omega), key,
          List.drop_append_of_le_length (l₁ := x :: xs) (i := 16) (by omega),
          List.take_append_of_le_length (by rw [List.length_drop]; omega)]
        rfl

/-- Record sequences split one after the other. -/
theorem framesOf_append {a b : List Byte} {fs gs : List (List Byte)} (ha : framesOf a = some fs)
    (hb : framesOf b = some gs) : framesOf (a ++ b) = some (fs ++ gs) := by
  unfold framesOf at *
  rw [List.length_append]
  exact splitFrames_append ha hb

theorem framesOf_nil : framesOf [] = some [] := rfl

/-- A record splits into its frame. -/
theorem framesOf_record (clk : Dword) (f : List Byte) (h : f.length < 2 ^ 32) :
    framesOf (recordBytes clk f) = some [f] := by
  have e := splitFrames_record clk f [] h ((recordBytes clk f).length - 1)
  rw [List.append_nil] at e
  rw [framesOf, show (recordBytes clk f).length = (recordBytes clk f).length - 1 + 1 by simp; omega, e]
  cases (recordBytes clk f).length - 1 <;> rfl

end Sys2Proof.Laws
end

