-- ==== Sys2Proof/Laws/Segments.lean ====
section
/-! SUPPORT. The chunks a payload is cut into (R152 to R154): their count, their lengths, and that together they are the
payload. -/

namespace Sys2Proof.Laws

open Sys2Proof.Machine

theorem length_slice (b : List Byte) (i j : Nat) : (slice b i j).length = min (j - i) (b.length - i) := by
  simp [slice]

@[simp] theorem length_chunks (k : Nat) (d : List Byte) : (chunks k d).length = (d.length + k - 1) / k := by
  simp [chunks]

theorem chunks_nil (k : Nat) (hk : 0 < k) : chunks k [] = [] := by
  rw [← List.length_eq_zero_iff, length_chunks]
  exact Nat.div_eq_of_lt (by simp only [List.length_nil]; omega)

/-- The first chunk is the first `k` bytes, and the others are the chunks of the rest. -/
theorem chunks_cons (k : Nat) (hk : 0 < k) (d : List Byte) (hd : d ≠ []) :
    chunks k d = d.take k :: chunks k (d.drop k) := by
  have hl : 0 < d.length := List.length_pos_iff.2 hd
  have hn : (d.length + k - 1) / k = (d.length - k + k - 1) / k + 1 := by
    by_cases h : d.length ≤ k
    · rw [show d.length + k - 1 = d.length - 1 + k by omega, Nat.add_div_right _ hk, Nat.div_eq_of_lt (by omega),
        Nat.div_eq_of_lt (by omega)]
    · rw [show d.length + k - 1 = (d.length - k + k - 1) + k by omega, Nat.add_div_right _ hk]
  unfold chunks
  rw [hn, List.range_succ_eq_map, List.map_cons, List.map_map, List.length_drop]
  congr 1
  · simp only [slice, Nat.zero_mul, List.drop_zero, Nat.zero_add, Nat.one_mul, Nat.sub_zero]
    by_cases h : d.length ≤ k
    · rw [Nat.min_eq_left h, List.take_of_length_le (Nat.le_refl _), List.take_of_length_le h]
    · rw [Nat.min_eq_right (by omega)]
  · apply List.map_congr_left
    intro i _
    have h1 : (i + 1) * k = i * k + k := Nat.succ_mul i k
    have h2 : (i + 1 + 1) * k = i * k + k + k := by rw [Nat.succ_mul, h1]
    simp only [Function.comp, slice, List.drop_drop, Nat.succ_eq_add_one, h1, h2]
    rw [Nat.add_comm k (i * k)]
    congr 1
    omega

theorem flatten_chunks (k : Nat) (hk : 0 < k) (d : List Byte) : (chunks k d).flatten = d := by
  induction hn : d.length using Nat.strongRecOn generalizing d with
  | _ n ih =>
    by_cases hd : d = []
    · subst hd
      rw [chunks_nil k hk]
      rfl
    · have hl : 0 < d.length := List.length_pos_iff.2 hd
      rw [chunks_cons k hk d hd, List.flatten_cons, ih (d.drop k).length (by rw [List.length_drop]; omega) _ rfl,
        List.take_append_drop]

theorem mem_chunks_length (k : Nat) (hk : 0 < k) (d : List Byte) (pay : List Byte) (h : pay ∈ chunks k d) :
    pay.length ≤ k := by
  induction hn : d.length using Nat.strongRecOn generalizing d with
  | _ n ih =>
    by_cases hd : d = []
    · subst hd
      rw [chunks_nil k hk] at h
      cases h
    · have hl : 0 < d.length := List.length_pos_iff.2 hd
      rw [chunks_cons k hk d hd, List.mem_cons] at h
      rcases h with rfl | h
      · exact List.length_take_le _ _
      · exact ih (d.drop k).length (by rw [List.length_drop]; omega) _ h rfl

/-- Everything the probe and the segmentation can answer. -/
theorem segments_ok {oh m : Nat} {data : List Byte} {pays : List (List Byte)} (h : segments oh m data = .ok pays) :
    pays.flatten = data ∧ (∀ pay ∈ pays, oh + pay.length ≤ m) ∧ pays.length = frameCount oh m data.length ∧
      1 ≤ pays.length := by
  unfold segments at h
  split at h
  · cases h
    rename_i hf
    simp [frameCount, hf]
  · split at h
    · cases h
    · cases h
      rename_i hf hm
      have hk : 0 < m - oh := by omega
      refine ⟨flatten_chunks _ hk _, fun pay hp => ?_, ?_, ?_⟩
      · have := mem_chunks_length _ hk _ pay hp
        omega
      · rw [length_chunks, frameCount, if_neg hf]
      · rw [length_chunks, Nat.le_div_iff_mul_le hk]
        omega

/-- A payload the context can carry is segmented. -/
theorem segments_of_carries {x : Context} {data : List Byte} (h : carries x data.length) :
    ∃ pays, segments x.overhead x.mtu.toNat data = .ok pays := by
  unfold segments
  split
  · exact ⟨_, rfl⟩
  · rw [if_neg (by unfold carries at h; omega)]
    exact ⟨_, rfl⟩

/-- An empty payload is one frame where the overhead fits (R154 a, e). -/
theorem segments_nil {oh m : Nat} (h : oh ≤ m) : segments oh m [] = .ok [[]] := by
  simp [segments, h]

/-- The only fault of the probe (R154 d). -/
theorem segments_error {oh m : Nat} {data : List Byte} {e : FaultCode} (h : segments oh m data = .error e) :
    e = .segImpossible ∧ m < oh + data.length ∧ m ≤ oh := by
  unfold segments at h
  split at h
  · cases h
  · split at h
    · cases h
      exact ⟨rfl, by omega, by omega⟩
    · cases h

/-- Chunk `j` (R153). -/
theorem chunks_getD (k : Nat) (data : List Byte) (j : Nat) (hj : j < (chunks k data).length) :
    (chunks k data).getD j [] = (data.drop (j * k)).take k := by
  have hlen := length_chunks k data
  simp only [List.getD_eq_getElem?_getD, List.getElem?_eq_getElem hj, Option.getD_some]
  simp only [chunks, List.getElem_map, List.getElem_range, slice]
  rw [List.take_eq_take_iff, List.length_drop, Nat.succ_mul]
  omega

/-- The chunks before chunk `j` are full (R153). -/
theorem length_flatten_take_chunks (k : Nat) (hk : 0 < k) (data : List Byte) (j : Nat) (hj : j < (chunks k data).length) :
    ((chunks k data).take j).flatten.length = j * k := by
  induction j with
  | zero => simp
  | succ j ih =>
    have hj' : j < (chunks k data).length := by omega
    have h2 : (chunks k data).take (j + 1) = (chunks k data).take j ++ [(chunks k data).getD j []] := by
      rw [List.take_succ_eq_append_getElem hj', List.getD_eq_getElem?_getD, List.getElem?_eq_getElem hj']; rfl
    rw [h2, List.flatten_append, List.length_append, ih hj', chunks_getD k data j hj', Nat.succ_mul]
    have hl := length_chunks k data
    have : j + 1 + 1 ≤ (data.length + k - 1) / k := by omega
    rw [Nat.le_div_iff_mul_le hk, Nat.succ_mul, Nat.succ_mul] at this
    simp
    omega

/-- Chunk `j` of a payload and the bytes before it, whether one frame carries it or several do (R152, R153). -/
theorem segments_getD {oh m : Nat} {data : List Byte} {pays : List (List Byte)} (h : segments oh m data = .ok pays)
    {j : Nat} (hj : j < pays.length) :
    let k := if oh + data.length ≤ m then data.length else m - oh
    pays.getD j [] = (data.drop (j * k)).take k ∧ (pays.take j).flatten.length = j * k := by
  unfold segments at h
  split at h
  · rename_i hf
    cases h
    obtain rfl : j = 0 := by simpa using hj
    simp [hf]
  · split at h
    · cases h
    · cases h
      rename_i hf hm
      simp only [hf, if_false]
      exact ⟨chunks_getD _ _ _ hj, length_flatten_take_chunks _ (by omega) _ _ hj⟩

end Sys2Proof.Laws
end

