-- ==== Sys2Proof/Laws/State.lean ====
section
/-! SUPPORT. One lemma per field per update of the state, all true by rfl, so that later proofs unfold no record update. -/

namespace Sys2Proof.Laws

open Sys2Proof.Machine

/-- A slot after a write of a slot. -/
theorem vector_get_set {α : Type} {n : Nat} (v : Vector α n) (i j : Fin n) (x : α) :
    (v.set i.val x i.isLt).get j = if i = j then x else v.get j := by
  simp only [Vector.get_eq_getElem, Vector.getElem_set, Fin.ext_iff]

@[simp] theorem vector_get_set_self {α : Type} {n : Nat} (v : Vector α n) (i : Fin n) (x : α) :
    (v.set i.val x i.isLt).get i = x := by simp [vector_get_set]

theorem vector_get_set_ne {α : Type} {n : Nat} (v : Vector α n) {i j : Fin n} (x : α) (h : i ≠ j) :
    (v.set i.val x i.isLt).get j = v.get j := by simp [vector_get_set, h]

@[simp] theorem vector_get_replicate {α : Type} {n : Nat} (x : α) (i : Fin n) :
    (Vector.replicate n x).get i = x := by simp [Vector.get_eq_getElem]

@[simp] theorem ctx_setCtx_self (s : State) (c : CtxIdx) (x : Context) : (s.setCtx c x).ctx c = x :=
  vector_get_set_self s.ctxs c x

theorem ctx_setCtx_ne (s : State) {c d : CtxIdx} (x : Context) (h : c ≠ d) : (s.setCtx c x).ctx d = s.ctx d :=
  vector_get_set_ne s.ctxs x h

@[simp] theorem setCtx_setCtx (s : State) (c : CtxIdx) (x y : Context) : (s.setCtx c x).setCtx c y = s.setCtx c y := by
  simp [State.setCtx, Vector.set_set]

@[simp] theorem setCtx_ctx (s : State) (c : CtxIdx) : s.setCtx c (s.ctx c) = s := by
  simp [State.setCtx, State.ctx, Vector.get_eq_getElem]

theorem setLstate_eq (s : State) (c : CtxIdx) (l : LState) :
    s.setLstate c l = s.setCtx c { s.ctx c with lstate := l } := rfl

@[simp] theorem ctx_complete (s : State) (o : Byte) (c : CtxIdx) : (s.complete o).ctx c = s.ctx c := rfl
@[simp] theorem ctx_raise (s : State) (o : Byte) (e : FaultCode) (c : CtxIdx) : (s.raise o e).ctx c = s.ctx c := rfl
@[simp] theorem complete_status (s : State) (o : Byte) : (s.complete o).status = statusOk s.status o := rfl
@[simp] theorem raise_status (s : State) (o : Byte) (e : FaultCode) : (s.raise o e).status = statusFault o e := rfl
@[simp] theorem setCtx_ctxs (s : State) (c : CtxIdx) (x : Context) :
    (s.setCtx c x).ctxs = s.ctxs.set c.val x c.isLt := rfl
@[simp] theorem storePbuf_pbuf (s : State) (a : Nat) (b : Byte) :
    (s.storePbuf a b).pbuf = Memory.store s.pbuf a b := rfl
@[simp] theorem draw_value (k : StreamIdx) (s : State) : (draw k s).1 = lcgNext s.params (s.gen.get k) := rfl
theorem draw_gen (k : StreamIdx) (s : State) :
    (draw k s).2.gen = s.gen.set k.val (lcgNext s.params (s.gen.get k)) k.isLt := rfl
@[simp] theorem draw_gen_get (k j : StreamIdx) (s : State) :
    (draw k s).2.gen.get j = if k = j then lcgNext s.params (s.gen.get k) else s.gen.get j :=
  vector_get_set s.gen k j _
@[simp] theorem ctx_draw (k : StreamIdx) (s : State) (c : CtxIdx) : (draw k s).2.ctx c = s.ctx c := rfl

@[simp] theorem setCtx_params (s : State) (c : CtxIdx) (x : Context) : (s.setCtx c x).params = s.params := rfl
@[simp] theorem setCtx_status (s : State) (c : CtxIdx) (x : Context) : (s.setCtx c x).status = s.status := rfl
@[simp] theorem setCtx_result (s : State) (c : CtxIdx) (x : Context) : (s.setCtx c x).result = s.result := rfl
@[simp] theorem setCtx_arg (s : State) (c : CtxIdx) (x : Context) : (s.setCtx c x).arg = s.arg := rfl
@[simp] theorem setCtx_plen (s : State) (c : CtxIdx) (x : Context) : (s.setCtx c x).plen = s.plen := rfl
@[simp] theorem setCtx_pbuf (s : State) (c : CtxIdx) (x : Context) : (s.setCtx c x).pbuf = s.pbuf := rfl
@[simp] theorem setCtx_epoch (s : State) (c : CtxIdx) (x : Context) : (s.setCtx c x).epoch = s.epoch := rfl
@[simp] theorem setCtx_cfgTsSec (s : State) (c : CtxIdx) (x : Context) : (s.setCtx c x).cfgTsSec = s.cfgTsSec := rfl
@[simp] theorem setCtx_cfgTsUsec (s : State) (c : CtxIdx) (x : Context) : (s.setCtx c x).cfgTsUsec = s.cfgTsUsec := rfl
@[simp] theorem setCtx_cfgDelayUs (s : State) (c : CtxIdx) (x : Context) : (s.setCtx c x).cfgDelayUs = s.cfgDelayUs := rfl
@[simp] theorem setCtx_cfgCtrl (s : State) (c : CtxIdx) (x : Context) : (s.setCtx c x).cfgCtrl = s.cfgCtrl := rfl
@[simp] theorem setCtx_cfgMtu (s : State) (c : CtxIdx) (x : Context) : (s.setCtx c x).cfgMtu = s.cfgMtu := rfl
@[simp] theorem setCtx_cfgPorts (s : State) (c : CtxIdx) (x : Context) : (s.setCtx c x).cfgPorts = s.cfgPorts := rfl
@[simp] theorem setCtx_cfgSrcSeq (s : State) (c : CtxIdx) (x : Context) : (s.setCtx c x).cfgSrcSeq = s.cfgSrcSeq := rfl
@[simp] theorem setCtx_cfgDstSeq (s : State) (c : CtxIdx) (x : Context) : (s.setCtx c x).cfgDstSeq = s.cfgDstSeq := rfl
@[simp] theorem setCtx_cfgSrcMac (s : State) (c : CtxIdx) (x : Context) : (s.setCtx c x).cfgSrcMac = s.cfgSrcMac := rfl
@[simp] theorem setCtx_cfgDstMac (s : State) (c : CtxIdx) (x : Context) : (s.setCtx c x).cfgDstMac = s.cfgDstMac := rfl
@[simp] theorem setCtx_cfgSrcAddr (s : State) (c : CtxIdx) (x : Context) : (s.setCtx c x).cfgSrcAddr = s.cfgSrcAddr := rfl
@[simp] theorem setCtx_cfgDstAddr (s : State) (c : CtxIdx) (x : Context) : (s.setCtx c x).cfgDstAddr = s.cfgDstAddr := rfl
@[simp] theorem setCtx_cfgVlan (s : State) (c : CtxIdx) (x : Context) : (s.setCtx c x).cfgVlan = s.cfgVlan := rfl
@[simp] theorem setCtx_clkUs (s : State) (c : CtxIdx) (x : Context) : (s.setCtx c x).clkUs = s.clkUs := rfl
@[simp] theorem setCtx_delayUs (s : State) (c : CtxIdx) (x : Context) : (s.setCtx c x).delayUs = s.delayUs := rfl
@[simp] theorem setCtx_out (s : State) (c : CtxIdx) (x : Context) : (s.setCtx c x).out = s.out := rfl
@[simp] theorem setCtx_recCount (s : State) (c : CtxIdx) (x : Context) : (s.setCtx c x).recCount = s.recCount := rfl
@[simp] theorem setCtx_seed (s : State) (c : CtxIdx) (x : Context) : (s.setCtx c x).seed = s.seed := rfl
@[simp] theorem setCtx_gen (s : State) (c : CtxIdx) (x : Context) : (s.setCtx c x).gen = s.gen := rfl
@[simp] theorem setCtx_moves (s : State) (c : CtxIdx) (x : Context) : (s.setCtx c x).moves = s.moves := rfl
@[simp] theorem setCtx_reply (s : State) (c : CtxIdx) (x : Context) : (s.setCtx c x).reply = s.reply := rfl

@[simp] theorem complete_params (s : State) (o : Byte) : (s.complete o).params = s.params := rfl
@[simp] theorem complete_result (s : State) (o : Byte) : (s.complete o).result = s.result := rfl
@[simp] theorem complete_arg (s : State) (o : Byte) : (s.complete o).arg = s.arg := rfl
@[simp] theorem complete_plen (s : State) (o : Byte) : (s.complete o).plen = s.plen := rfl
@[simp] theorem complete_pbuf (s : State) (o : Byte) : (s.complete o).pbuf = s.pbuf := rfl
@[simp] theorem complete_epoch (s : State) (o : Byte) : (s.complete o).epoch = s.epoch := rfl
@[simp] theorem complete_cfgTsSec (s : State) (o : Byte) : (s.complete o).cfgTsSec = s.cfgTsSec := rfl
@[simp] theorem complete_cfgTsUsec (s : State) (o : Byte) : (s.complete o).cfgTsUsec = s.cfgTsUsec := rfl
@[simp] theorem complete_cfgDelayUs (s : State) (o : Byte) : (s.complete o).cfgDelayUs = s.cfgDelayUs := rfl
@[simp] theorem complete_cfgCtrl (s : State) (o : Byte) : (s.complete o).cfgCtrl = s.cfgCtrl := rfl
@[simp] theorem complete_cfgMtu (s : State) (o : Byte) : (s.complete o).cfgMtu = s.cfgMtu := rfl
@[simp] theorem complete_cfgPorts (s : State) (o : Byte) : (s.complete o).cfgPorts = s.cfgPorts := rfl
@[simp] theorem complete_cfgSrcSeq (s : State) (o : Byte) : (s.complete o).cfgSrcSeq = s.cfgSrcSeq := rfl
@[simp] theorem complete_cfgDstSeq (s : State) (o : Byte) : (s.complete o).cfgDstSeq = s.cfgDstSeq := rfl
@[simp] theorem complete_cfgSrcMac (s : State) (o : Byte) : (s.complete o).cfgSrcMac = s.cfgSrcMac := rfl
@[simp] theorem complete_cfgDstMac (s : State) (o : Byte) : (s.complete o).cfgDstMac = s.cfgDstMac := rfl
@[simp] theorem complete_cfgSrcAddr (s : State) (o : Byte) : (s.complete o).cfgSrcAddr = s.cfgSrcAddr := rfl
@[simp] theorem complete_cfgDstAddr (s : State) (o : Byte) : (s.complete o).cfgDstAddr = s.cfgDstAddr := rfl
@[simp] theorem complete_cfgVlan (s : State) (o : Byte) : (s.complete o).cfgVlan = s.cfgVlan := rfl
@[simp] theorem complete_clkUs (s : State) (o : Byte) : (s.complete o).clkUs = s.clkUs := rfl
@[simp] theorem complete_delayUs (s : State) (o : Byte) : (s.complete o).delayUs = s.delayUs := rfl
@[simp] theorem complete_out (s : State) (o : Byte) : (s.complete o).out = s.out := rfl
@[simp] theorem complete_recCount (s : State) (o : Byte) : (s.complete o).recCount = s.recCount := rfl
@[simp] theorem complete_seed (s : State) (o : Byte) : (s.complete o).seed = s.seed := rfl
@[simp] theorem complete_gen (s : State) (o : Byte) : (s.complete o).gen = s.gen := rfl
@[simp] theorem complete_ctxs (s : State) (o : Byte) : (s.complete o).ctxs = s.ctxs := rfl
@[simp] theorem complete_moves (s : State) (o : Byte) : (s.complete o).moves = s.moves := rfl
@[simp] theorem complete_reply (s : State) (o : Byte) : (s.complete o).reply = s.reply := rfl

@[simp] theorem raise_params (s : State) (o : Byte) (e : FaultCode) : (s.raise o e).params = s.params := rfl
@[simp] theorem raise_result (s : State) (o : Byte) (e : FaultCode) : (s.raise o e).result = s.result := rfl
@[simp] theorem raise_arg (s : State) (o : Byte) (e : FaultCode) : (s.raise o e).arg = s.arg := rfl
@[simp] theorem raise_plen (s : State) (o : Byte) (e : FaultCode) : (s.raise o e).plen = s.plen := rfl
@[simp] theorem raise_pbuf (s : State) (o : Byte) (e : FaultCode) : (s.raise o e).pbuf = s.pbuf := rfl
@[simp] theorem raise_epoch (s : State) (o : Byte) (e : FaultCode) : (s.raise o e).epoch = s.epoch := rfl
@[simp] theorem raise_cfgTsSec (s : State) (o : Byte) (e : FaultCode) : (s.raise o e).cfgTsSec = s.cfgTsSec := rfl
@[simp] theorem raise_cfgTsUsec (s : State) (o : Byte) (e : FaultCode) : (s.raise o e).cfgTsUsec = s.cfgTsUsec := rfl
@[simp] theorem raise_cfgDelayUs (s : State) (o : Byte) (e : FaultCode) : (s.raise o e).cfgDelayUs = s.cfgDelayUs := rfl
@[simp] theorem raise_cfgCtrl (s : State) (o : Byte) (e : FaultCode) : (s.raise o e).cfgCtrl = s.cfgCtrl := rfl
@[simp] theorem raise_cfgMtu (s : State) (o : Byte) (e : FaultCode) : (s.raise o e).cfgMtu = s.cfgMtu := rfl
@[simp] theorem raise_cfgPorts (s : State) (o : Byte) (e : FaultCode) : (s.raise o e).cfgPorts = s.cfgPorts := rfl
@[simp] theorem raise_cfgSrcSeq (s : State) (o : Byte) (e : FaultCode) : (s.raise o e).cfgSrcSeq = s.cfgSrcSeq := rfl
@[simp] theorem raise_cfgDstSeq (s : State) (o : Byte) (e : FaultCode) : (s.raise o e).cfgDstSeq = s.cfgDstSeq := rfl
@[simp] theorem raise_cfgSrcMac (s : State) (o : Byte) (e : FaultCode) : (s.raise o e).cfgSrcMac = s.cfgSrcMac := rfl
@[simp] theorem raise_cfgDstMac (s : State) (o : Byte) (e : FaultCode) : (s.raise o e).cfgDstMac = s.cfgDstMac := rfl
@[simp] theorem raise_cfgSrcAddr (s : State) (o : Byte) (e : FaultCode) : (s.raise o e).cfgSrcAddr = s.cfgSrcAddr := rfl
@[simp] theorem raise_cfgDstAddr (s : State) (o : Byte) (e : FaultCode) : (s.raise o e).cfgDstAddr = s.cfgDstAddr := rfl
@[simp] theorem raise_cfgVlan (s : State) (o : Byte) (e : FaultCode) : (s.raise o e).cfgVlan = s.cfgVlan := rfl
@[simp] theorem raise_clkUs (s : State) (o : Byte) (e : FaultCode) : (s.raise o e).clkUs = s.clkUs := rfl
@[simp] theorem raise_delayUs (s : State) (o : Byte) (e : FaultCode) : (s.raise o e).delayUs = s.delayUs := rfl
@[simp] theorem raise_out (s : State) (o : Byte) (e : FaultCode) : (s.raise o e).out = s.out := rfl
@[simp] theorem raise_recCount (s : State) (o : Byte) (e : FaultCode) : (s.raise o e).recCount = s.recCount := rfl
@[simp] theorem raise_seed (s : State) (o : Byte) (e : FaultCode) : (s.raise o e).seed = s.seed := rfl
@[simp] theorem raise_gen (s : State) (o : Byte) (e : FaultCode) : (s.raise o e).gen = s.gen := rfl
@[simp] theorem raise_ctxs (s : State) (o : Byte) (e : FaultCode) : (s.raise o e).ctxs = s.ctxs := rfl
@[simp] theorem raise_moves (s : State) (o : Byte) (e : FaultCode) : (s.raise o e).moves = s.moves := rfl
@[simp] theorem raise_reply (s : State) (o : Byte) (e : FaultCode) : (s.raise o e).reply = s.reply := rfl

@[simp] theorem storePbuf_params (s : State) (a : Nat) (b : Byte) : (s.storePbuf a b).params = s.params := rfl
@[simp] theorem storePbuf_status (s : State) (a : Nat) (b : Byte) : (s.storePbuf a b).status = s.status := rfl
@[simp] theorem storePbuf_result (s : State) (a : Nat) (b : Byte) : (s.storePbuf a b).result = s.result := rfl
@[simp] theorem storePbuf_arg (s : State) (a : Nat) (b : Byte) : (s.storePbuf a b).arg = s.arg := rfl
@[simp] theorem storePbuf_plen (s : State) (a : Nat) (b : Byte) : (s.storePbuf a b).plen = s.plen := rfl
@[simp] theorem storePbuf_epoch (s : State) (a : Nat) (b : Byte) : (s.storePbuf a b).epoch = s.epoch := rfl
@[simp] theorem storePbuf_cfgTsSec (s : State) (a : Nat) (b : Byte) : (s.storePbuf a b).cfgTsSec = s.cfgTsSec := rfl
@[simp] theorem storePbuf_cfgTsUsec (s : State) (a : Nat) (b : Byte) : (s.storePbuf a b).cfgTsUsec = s.cfgTsUsec := rfl
@[simp] theorem storePbuf_cfgDelayUs (s : State) (a : Nat) (b : Byte) : (s.storePbuf a b).cfgDelayUs = s.cfgDelayUs := rfl
@[simp] theorem storePbuf_cfgCtrl (s : State) (a : Nat) (b : Byte) : (s.storePbuf a b).cfgCtrl = s.cfgCtrl := rfl
@[simp] theorem storePbuf_cfgMtu (s : State) (a : Nat) (b : Byte) : (s.storePbuf a b).cfgMtu = s.cfgMtu := rfl
@[simp] theorem storePbuf_cfgPorts (s : State) (a : Nat) (b : Byte) : (s.storePbuf a b).cfgPorts = s.cfgPorts := rfl
@[simp] theorem storePbuf_cfgSrcSeq (s : State) (a : Nat) (b : Byte) : (s.storePbuf a b).cfgSrcSeq = s.cfgSrcSeq := rfl
@[simp] theorem storePbuf_cfgDstSeq (s : State) (a : Nat) (b : Byte) : (s.storePbuf a b).cfgDstSeq = s.cfgDstSeq := rfl
@[simp] theorem storePbuf_cfgSrcMac (s : State) (a : Nat) (b : Byte) : (s.storePbuf a b).cfgSrcMac = s.cfgSrcMac := rfl
@[simp] theorem storePbuf_cfgDstMac (s : State) (a : Nat) (b : Byte) : (s.storePbuf a b).cfgDstMac = s.cfgDstMac := rfl
@[simp] theorem storePbuf_cfgSrcAddr (s : State) (a : Nat) (b : Byte) : (s.storePbuf a b).cfgSrcAddr = s.cfgSrcAddr := rfl
@[simp] theorem storePbuf_cfgDstAddr (s : State) (a : Nat) (b : Byte) : (s.storePbuf a b).cfgDstAddr = s.cfgDstAddr := rfl
@[simp] theorem storePbuf_cfgVlan (s : State) (a : Nat) (b : Byte) : (s.storePbuf a b).cfgVlan = s.cfgVlan := rfl
@[simp] theorem storePbuf_clkUs (s : State) (a : Nat) (b : Byte) : (s.storePbuf a b).clkUs = s.clkUs := rfl
@[simp] theorem storePbuf_delayUs (s : State) (a : Nat) (b : Byte) : (s.storePbuf a b).delayUs = s.delayUs := rfl
@[simp] theorem storePbuf_out (s : State) (a : Nat) (b : Byte) : (s.storePbuf a b).out = s.out := rfl
@[simp] theorem storePbuf_recCount (s : State) (a : Nat) (b : Byte) : (s.storePbuf a b).recCount = s.recCount := rfl
@[simp] theorem storePbuf_seed (s : State) (a : Nat) (b : Byte) : (s.storePbuf a b).seed = s.seed := rfl
@[simp] theorem storePbuf_gen (s : State) (a : Nat) (b : Byte) : (s.storePbuf a b).gen = s.gen := rfl
@[simp] theorem storePbuf_ctxs (s : State) (a : Nat) (b : Byte) : (s.storePbuf a b).ctxs = s.ctxs := rfl
@[simp] theorem storePbuf_moves (s : State) (a : Nat) (b : Byte) : (s.storePbuf a b).moves = s.moves := rfl
@[simp] theorem storePbuf_reply (s : State) (a : Nat) (b : Byte) : (s.storePbuf a b).reply = s.reply := rfl

@[simp] theorem draw_params (k : StreamIdx) (s : State) : (draw k s).2.params = s.params := rfl
@[simp] theorem draw_status (k : StreamIdx) (s : State) : (draw k s).2.status = s.status := rfl
@[simp] theorem draw_result (k : StreamIdx) (s : State) : (draw k s).2.result = s.result := rfl
@[simp] theorem draw_arg (k : StreamIdx) (s : State) : (draw k s).2.arg = s.arg := rfl
@[simp] theorem draw_plen (k : StreamIdx) (s : State) : (draw k s).2.plen = s.plen := rfl
@[simp] theorem draw_pbuf (k : StreamIdx) (s : State) : (draw k s).2.pbuf = s.pbuf := rfl
@[simp] theorem draw_epoch (k : StreamIdx) (s : State) : (draw k s).2.epoch = s.epoch := rfl
@[simp] theorem draw_cfgTsSec (k : StreamIdx) (s : State) : (draw k s).2.cfgTsSec = s.cfgTsSec := rfl
@[simp] theorem draw_cfgTsUsec (k : StreamIdx) (s : State) : (draw k s).2.cfgTsUsec = s.cfgTsUsec := rfl
@[simp] theorem draw_cfgDelayUs (k : StreamIdx) (s : State) : (draw k s).2.cfgDelayUs = s.cfgDelayUs := rfl
@[simp] theorem draw_cfgCtrl (k : StreamIdx) (s : State) : (draw k s).2.cfgCtrl = s.cfgCtrl := rfl
@[simp] theorem draw_cfgMtu (k : StreamIdx) (s : State) : (draw k s).2.cfgMtu = s.cfgMtu := rfl
@[simp] theorem draw_cfgPorts (k : StreamIdx) (s : State) : (draw k s).2.cfgPorts = s.cfgPorts := rfl
@[simp] theorem draw_cfgSrcSeq (k : StreamIdx) (s : State) : (draw k s).2.cfgSrcSeq = s.cfgSrcSeq := rfl
@[simp] theorem draw_cfgDstSeq (k : StreamIdx) (s : State) : (draw k s).2.cfgDstSeq = s.cfgDstSeq := rfl
@[simp] theorem draw_cfgSrcMac (k : StreamIdx) (s : State) : (draw k s).2.cfgSrcMac = s.cfgSrcMac := rfl
@[simp] theorem draw_cfgDstMac (k : StreamIdx) (s : State) : (draw k s).2.cfgDstMac = s.cfgDstMac := rfl
@[simp] theorem draw_cfgSrcAddr (k : StreamIdx) (s : State) : (draw k s).2.cfgSrcAddr = s.cfgSrcAddr := rfl
@[simp] theorem draw_cfgDstAddr (k : StreamIdx) (s : State) : (draw k s).2.cfgDstAddr = s.cfgDstAddr := rfl
@[simp] theorem draw_cfgVlan (k : StreamIdx) (s : State) : (draw k s).2.cfgVlan = s.cfgVlan := rfl
@[simp] theorem draw_clkUs (k : StreamIdx) (s : State) : (draw k s).2.clkUs = s.clkUs := rfl
@[simp] theorem draw_delayUs (k : StreamIdx) (s : State) : (draw k s).2.delayUs = s.delayUs := rfl
@[simp] theorem draw_out (k : StreamIdx) (s : State) : (draw k s).2.out = s.out := rfl
@[simp] theorem draw_recCount (k : StreamIdx) (s : State) : (draw k s).2.recCount = s.recCount := rfl
@[simp] theorem draw_seed (k : StreamIdx) (s : State) : (draw k s).2.seed = s.seed := rfl
@[simp] theorem draw_ctxs (k : StreamIdx) (s : State) : (draw k s).2.ctxs = s.ctxs := rfl
@[simp] theorem draw_moves (k : StreamIdx) (s : State) : (draw k s).2.moves = s.moves := rfl
@[simp] theorem draw_reply (k : StreamIdx) (s : State) : (draw k s).2.reply = s.reply := rfl

@[simp] theorem setLstate_params (s : State) (c : CtxIdx) (l : LState) : (s.setLstate c l).params = s.params := rfl
@[simp] theorem setLstate_status (s : State) (c : CtxIdx) (l : LState) : (s.setLstate c l).status = s.status := rfl
@[simp] theorem setLstate_result (s : State) (c : CtxIdx) (l : LState) : (s.setLstate c l).result = s.result := rfl
@[simp] theorem setLstate_arg (s : State) (c : CtxIdx) (l : LState) : (s.setLstate c l).arg = s.arg := rfl
@[simp] theorem setLstate_plen (s : State) (c : CtxIdx) (l : LState) : (s.setLstate c l).plen = s.plen := rfl
@[simp] theorem setLstate_pbuf (s : State) (c : CtxIdx) (l : LState) : (s.setLstate c l).pbuf = s.pbuf := rfl
@[simp] theorem setLstate_epoch (s : State) (c : CtxIdx) (l : LState) : (s.setLstate c l).epoch = s.epoch := rfl
@[simp] theorem setLstate_cfgTsSec (s : State) (c : CtxIdx) (l : LState) : (s.setLstate c l).cfgTsSec = s.cfgTsSec := rfl
@[simp] theorem setLstate_cfgTsUsec (s : State) (c : CtxIdx) (l : LState) : (s.setLstate c l).cfgTsUsec = s.cfgTsUsec := rfl
@[simp] theorem setLstate_cfgDelayUs (s : State) (c : CtxIdx) (l : LState) : (s.setLstate c l).cfgDelayUs = s.cfgDelayUs := rfl
@[simp] theorem setLstate_cfgCtrl (s : State) (c : CtxIdx) (l : LState) : (s.setLstate c l).cfgCtrl = s.cfgCtrl := rfl
@[simp] theorem setLstate_cfgMtu (s : State) (c : CtxIdx) (l : LState) : (s.setLstate c l).cfgMtu = s.cfgMtu := rfl
@[simp] theorem setLstate_cfgPorts (s : State) (c : CtxIdx) (l : LState) : (s.setLstate c l).cfgPorts = s.cfgPorts := rfl
@[simp] theorem setLstate_cfgSrcSeq (s : State) (c : CtxIdx) (l : LState) : (s.setLstate c l).cfgSrcSeq = s.cfgSrcSeq := rfl
@[simp] theorem setLstate_cfgDstSeq (s : State) (c : CtxIdx) (l : LState) : (s.setLstate c l).cfgDstSeq = s.cfgDstSeq := rfl
@[simp] theorem setLstate_cfgSrcMac (s : State) (c : CtxIdx) (l : LState) : (s.setLstate c l).cfgSrcMac = s.cfgSrcMac := rfl
@[simp] theorem setLstate_cfgDstMac (s : State) (c : CtxIdx) (l : LState) : (s.setLstate c l).cfgDstMac = s.cfgDstMac := rfl
@[simp] theorem setLstate_cfgSrcAddr (s : State) (c : CtxIdx) (l : LState) : (s.setLstate c l).cfgSrcAddr = s.cfgSrcAddr := rfl
@[simp] theorem setLstate_cfgDstAddr (s : State) (c : CtxIdx) (l : LState) : (s.setLstate c l).cfgDstAddr = s.cfgDstAddr := rfl
@[simp] theorem setLstate_cfgVlan (s : State) (c : CtxIdx) (l : LState) : (s.setLstate c l).cfgVlan = s.cfgVlan := rfl
@[simp] theorem setLstate_clkUs (s : State) (c : CtxIdx) (l : LState) : (s.setLstate c l).clkUs = s.clkUs := rfl
@[simp] theorem setLstate_delayUs (s : State) (c : CtxIdx) (l : LState) : (s.setLstate c l).delayUs = s.delayUs := rfl
@[simp] theorem setLstate_out (s : State) (c : CtxIdx) (l : LState) : (s.setLstate c l).out = s.out := rfl
@[simp] theorem setLstate_recCount (s : State) (c : CtxIdx) (l : LState) : (s.setLstate c l).recCount = s.recCount := rfl
@[simp] theorem setLstate_seed (s : State) (c : CtxIdx) (l : LState) : (s.setLstate c l).seed = s.seed := rfl
@[simp] theorem setLstate_gen (s : State) (c : CtxIdx) (l : LState) : (s.setLstate c l).gen = s.gen := rfl
@[simp] theorem setLstate_moves (s : State) (c : CtxIdx) (l : LState) : (s.setLstate c l).moves = s.moves := rfl
@[simp] theorem setLstate_reply (s : State) (c : CtxIdx) (l : LState) : (s.setLstate c l).reply = s.reply := rfl

/-- A state that differs from another only in what an emission writes, field by field. -/
theorem eq_with_emission {s t : State}
    (h0 : t.params = s.params) (h1 : t.result = s.result) (h2 : t.arg = s.arg) (h3 : t.plen = s.plen)
    (h4 : t.pbuf = s.pbuf) (h5 : t.epoch = s.epoch) (h6 : t.cfgTsSec = s.cfgTsSec) (h7 : t.cfgTsUsec = s.cfgTsUsec)
    (h8 : t.cfgDelayUs = s.cfgDelayUs) (h9 : t.cfgCtrl = s.cfgCtrl) (h10 : t.cfgMtu = s.cfgMtu)
    (h11 : t.cfgPorts = s.cfgPorts) (h12 : t.cfgSrcSeq = s.cfgSrcSeq) (h13 : t.cfgDstSeq = s.cfgDstSeq)
    (h14 : t.cfgSrcMac = s.cfgSrcMac) (h15 : t.cfgDstMac = s.cfgDstMac) (h16 : t.cfgSrcAddr = s.cfgSrcAddr)
    (h17 : t.cfgDstAddr = s.cfgDstAddr) (h18 : t.cfgVlan = s.cfgVlan) (h19 : t.delayUs = s.delayUs)
    (h20 : t.seed = s.seed) (h21 : t.moves = s.moves) (h22 : t.reply = s.reply) :
    t = { s with status := t.status, recCount := t.recCount, clkUs := t.clkUs, out := t.out, gen := t.gen,
                 ctxs := t.ctxs } := by
  cases s
  cases t
  subst h0 h1 h2 h3 h4 h5 h6 h7 h8 h9 h10 h11 h12 h13 h14 h15 h16 h17 h18 h19 h20 h21 h22
  rfl

end Sys2Proof.Laws
end

