-- ==== Sys2Proof/Laws/Emission.lean ====
section
/-! SUPPORT. What the frame builder can do, said once: a frame either exceeds `OUT_MAX` or leads to `afterFrame`, an
emission to a fold of it, and a command ends in one of the two forms of R213. -/

namespace Sys2Proof.Laws

open Sys2Proof.Machine

/-- The frame the next `BuildFrame` makes. -/
def frameOf (c : CtxIdx) (dir : Dir) (fl : Flags) (pay : List Byte) (s : State) : List Byte :=
  frameBytes s.params (s.ctx c) dir fl (drawIdent (s.ctx c) s).1 pay

/-- The state after one frame: R184's four effects. -/
def afterFrame (c : CtxIdx) (dir : Dir) (fl : Flags) (pay : List Byte) (s : State) : State :=
  { s with
    gen := (drawIdent (s.ctx c) s).2.gen
    ctxs := s.ctxs.set c.val ((s.ctx c).advance dir fl pay.length) c.isLt
    clkUs := s.clkUs + s.delayUs
    out := s.out ++ recordBytes (s.clkUs + s.delayUs) (frameOf c dir fl pay s)
    recCount := s.recCount + 1#64 }

theorem length_frameOf (c : CtxIdx) (dir : Dir) (fl : Flags) (pay : List Byte) (s : State) :
    (frameOf c dir fl pay s).length = (s.ctx c).overhead + pay.length := by
  simp only [frameOf, frameBytes, List.length_append, length_linkHeader, length_networkHeader,
    length_transportSegment, Context.overhead]
  omega

/-- A draw of an identification changes the streams only. -/
theorem drawIdent_state (x : Context) (s : State) : (drawIdent x s).2 = { s with gen := (drawIdent x s).2.gen } := by
  unfold drawIdent
  cases x.ipver <;> rfl

/-- Everything `BuildFrame` can do. -/
theorem buildFrame_eq (c : CtxIdx) (dir : Dir) (fl : Flags) (pay : List Byte) (s : State) :
    buildFrame c dir fl pay s =
      if s.outFull (16 + ((s.ctx c).overhead + pay.length)) then .error .outOverflow
      else .ok (afterFrame c dir fl pay s) := by
  have hlen : (frameBytes s.params (s.ctx c) dir fl (drawIdent (s.ctx c) s).1 pay).length
      = (s.ctx c).overhead + pay.length := length_frameOf c dir fl pay s
  unfold buildFrame emitRecord outAppend
  simp only [length_recordBytes, hlen]
  rw [drawIdent_state]
  by_cases hf : s.outFull (16 + ((s.ctx c).overhead + pay.length)) = true
  · have hf' : ∀ g x, (({ s with gen := g } : State).setCtx c x).outFull
        (16 + ((s.ctx c).overhead + pay.length)) = true := fun _ _ => hf
    simp only [hf, hf', if_true]
  · have hff : s.outFull (16 + ((s.ctx c).overhead + pay.length)) = false := by simpa using hf
    have hf' : ∀ g x, (({ s with gen := g } : State).setCtx c x).outFull
        (16 + ((s.ctx c).overhead + pay.length)) = false := fun _ _ => hff
    simp only [hff, hf', if_false, Bool.false_eq_true]
    rfl

/-- An emission that completes is `afterFrame` for each chunk, in order. -/
theorem emitChunks_ok {c : CtxIdx} {dir : Dir} {fl : Flags} {pays : List (List Byte)} {s t : State}
    (h : emitChunks c dir fl pays s = .ok t) : t = pays.foldl (fun u pay => afterFrame c dir fl pay u) s := by
  induction pays generalizing s with
  | nil => simpa [emitChunks] using h.symm
  | cons pay rest ih =>
    simp only [emitChunks, buildFrame_eq] at h
    split at h
    · cases h
    · rename_i u hu
      split at hu
      · cases hu
      · cases hu
        exact ih h

/-- The only fault of an emission's frames is `OUT_OVERFLOW`. -/
theorem emitChunks_error {c : CtxIdx} {dir : Dir} {fl : Flags} {pays : List (List Byte)} {s : State} {e : FaultCode}
    (h : emitChunks c dir fl pays s = .error e) : e = .outOverflow := by
  induction pays generalizing s with
  | nil => simp [emitChunks] at h
  | cons pay rest ih =>
    simp only [emitChunks, buildFrame_eq] at h
    split at h
    · rename_i hu
      split at hu
      · cases hu
        cases h
        rfl
      · cases hu
    · exact ih h

/-- With an unbounded output stream every frame is emitted. -/
theorem emitChunks_unbounded (c : CtxIdx) (dir : Dir) (fl : Flags) (pays : List (List Byte)) (s : State)
    (h : s.params.outMax = none) :
    emitChunks c dir fl pays s = .ok (pays.foldl (fun u pay => afterFrame c dir fl pay u) s) := by
  induction pays generalizing s with
  | nil => rfl
  | cons pay rest ih =>
    have hf : ∀ n, s.outFull n = false := fun n => by simp [State.outFull, h]
    simp only [emitChunks, buildFrame_eq, hf, if_false, List.foldl_cons, Bool.false_eq_true]
    exact ih _ h

/-- Everything `Emit` can do. -/
theorem emit_cases {c : CtxIdx} {dir : Dir} {fl : Flags} {data : List Byte} {s : State} {r : Except FaultCode State}
    (h : emit c dir fl data s = r) :
    (r = .error .segImpossible ∧ segments (s.ctx c).overhead (s.ctx c).mtu.toNat data = .error .segImpossible) ∨
    (∃ pays, segments (s.ctx c).overhead (s.ctx c).mtu.toNat data = .ok pays ∧
      (r = .error .outOverflow ∨ r = .ok (pays.foldl (fun u pay => afterFrame c dir fl pay u) s))) := by
  unfold emit at h
  split at h
  · rename_i e he
    left
    have : e = .segImpossible := by
      unfold segments at he
      split at he
      · cases he
      · split at he <;> cases he
        rfl
    subst this
    exact ⟨h.symm, he⟩
  · rename_i pays hp
    right
    refine ⟨pays, hp, ?_⟩
    cases r with
    | error e => exact .inl (by rw [emitChunks_error h])
    | ok t => exact .inr (by rw [emitChunks_ok h])

/-! ### An emission whose records fit -/

/-- The state after a sequence of frames. -/
def afterFrames (c : CtxIdx) (dir : Dir) (fl : Flags) (pays : List (List Byte)) (s : State) : State :=
  pays.foldl (fun u pay => afterFrame c dir fl pay u) s

/-- The frames a sequence of chunks makes. -/
def framesFor (c : CtxIdx) (dir : Dir) (fl : Flags) : List (List Byte) → State → List (List Byte)
  | [], _ => []
  | pay :: rest, s => frameOf c dir fl pay s :: framesFor c dir fl rest (afterFrame c dir fl pay s)

@[simp] theorem afterFrame_params (c : CtxIdx) (dir : Dir) (fl : Flags) (pay : List Byte) (s : State) :
    (afterFrame c dir fl pay s).params = s.params := rfl
@[simp] theorem afterFrame_delayUs (c : CtxIdx) (dir : Dir) (fl : Flags) (pay : List Byte) (s : State) :
    (afterFrame c dir fl pay s).delayUs = s.delayUs := rfl
@[simp] theorem afterFrame_status (c : CtxIdx) (dir : Dir) (fl : Flags) (pay : List Byte) (s : State) :
    (afterFrame c dir fl pay s).status = s.status := rfl
@[simp] theorem afterFrame_result (c : CtxIdx) (dir : Dir) (fl : Flags) (pay : List Byte) (s : State) :
    (afterFrame c dir fl pay s).result = s.result := rfl
@[simp] theorem afterFrame_arg (c : CtxIdx) (dir : Dir) (fl : Flags) (pay : List Byte) (s : State) :
    (afterFrame c dir fl pay s).arg = s.arg := rfl
@[simp] theorem afterFrame_plen (c : CtxIdx) (dir : Dir) (fl : Flags) (pay : List Byte) (s : State) :
    (afterFrame c dir fl pay s).plen = s.plen := rfl
@[simp] theorem afterFrame_pbuf (c : CtxIdx) (dir : Dir) (fl : Flags) (pay : List Byte) (s : State) :
    (afterFrame c dir fl pay s).pbuf = s.pbuf := rfl
@[simp] theorem afterFrame_epoch (c : CtxIdx) (dir : Dir) (fl : Flags) (pay : List Byte) (s : State) :
    (afterFrame c dir fl pay s).epoch = s.epoch := rfl
@[simp] theorem afterFrame_cfgTsSec (c : CtxIdx) (dir : Dir) (fl : Flags) (pay : List Byte) (s : State) :
    (afterFrame c dir fl pay s).cfgTsSec = s.cfgTsSec := rfl
@[simp] theorem afterFrame_cfgTsUsec (c : CtxIdx) (dir : Dir) (fl : Flags) (pay : List Byte) (s : State) :
    (afterFrame c dir fl pay s).cfgTsUsec = s.cfgTsUsec := rfl
@[simp] theorem afterFrame_cfgDelayUs (c : CtxIdx) (dir : Dir) (fl : Flags) (pay : List Byte) (s : State) :
    (afterFrame c dir fl pay s).cfgDelayUs = s.cfgDelayUs := rfl
@[simp] theorem afterFrame_cfgCtrl (c : CtxIdx) (dir : Dir) (fl : Flags) (pay : List Byte) (s : State) :
    (afterFrame c dir fl pay s).cfgCtrl = s.cfgCtrl := rfl
@[simp] theorem afterFrame_cfgMtu (c : CtxIdx) (dir : Dir) (fl : Flags) (pay : List Byte) (s : State) :
    (afterFrame c dir fl pay s).cfgMtu = s.cfgMtu := rfl
@[simp] theorem afterFrame_cfgPorts (c : CtxIdx) (dir : Dir) (fl : Flags) (pay : List Byte) (s : State) :
    (afterFrame c dir fl pay s).cfgPorts = s.cfgPorts := rfl
@[simp] theorem afterFrame_cfgSrcSeq (c : CtxIdx) (dir : Dir) (fl : Flags) (pay : List Byte) (s : State) :
    (afterFrame c dir fl pay s).cfgSrcSeq = s.cfgSrcSeq := rfl
@[simp] theorem afterFrame_cfgDstSeq (c : CtxIdx) (dir : Dir) (fl : Flags) (pay : List Byte) (s : State) :
    (afterFrame c dir fl pay s).cfgDstSeq = s.cfgDstSeq := rfl
@[simp] theorem afterFrame_cfgSrcMac (c : CtxIdx) (dir : Dir) (fl : Flags) (pay : List Byte) (s : State) :
    (afterFrame c dir fl pay s).cfgSrcMac = s.cfgSrcMac := rfl
@[simp] theorem afterFrame_cfgDstMac (c : CtxIdx) (dir : Dir) (fl : Flags) (pay : List Byte) (s : State) :
    (afterFrame c dir fl pay s).cfgDstMac = s.cfgDstMac := rfl
@[simp] theorem afterFrame_cfgSrcAddr (c : CtxIdx) (dir : Dir) (fl : Flags) (pay : List Byte) (s : State) :
    (afterFrame c dir fl pay s).cfgSrcAddr = s.cfgSrcAddr := rfl
@[simp] theorem afterFrame_cfgDstAddr (c : CtxIdx) (dir : Dir) (fl : Flags) (pay : List Byte) (s : State) :
    (afterFrame c dir fl pay s).cfgDstAddr = s.cfgDstAddr := rfl
@[simp] theorem afterFrame_cfgVlan (c : CtxIdx) (dir : Dir) (fl : Flags) (pay : List Byte) (s : State) :
    (afterFrame c dir fl pay s).cfgVlan = s.cfgVlan := rfl
@[simp] theorem afterFrame_seed (c : CtxIdx) (dir : Dir) (fl : Flags) (pay : List Byte) (s : State) :
    (afterFrame c dir fl pay s).seed = s.seed := rfl
@[simp] theorem afterFrame_moves (c : CtxIdx) (dir : Dir) (fl : Flags) (pay : List Byte) (s : State) :
    (afterFrame c dir fl pay s).moves = s.moves := rfl
@[simp] theorem afterFrame_reply (c : CtxIdx) (dir : Dir) (fl : Flags) (pay : List Byte) (s : State) :
    (afterFrame c dir fl pay s).reply = s.reply := rfl
@[simp] theorem afterFrame_clkUs (c : CtxIdx) (dir : Dir) (fl : Flags) (pay : List Byte) (s : State) :
    (afterFrame c dir fl pay s).clkUs = s.clkUs + s.delayUs := rfl
@[simp] theorem afterFrame_recCount (c : CtxIdx) (dir : Dir) (fl : Flags) (pay : List Byte) (s : State) :
    (afterFrame c dir fl pay s).recCount = s.recCount + 1#64 := rfl
@[simp] theorem afterFrame_ctx (c : CtxIdx) (dir : Dir) (fl : Flags) (pay : List Byte) (s : State) :
    (afterFrame c dir fl pay s).ctx c = (s.ctx c).advance dir fl pay.length :=
  vector_get_set_self s.ctxs c _
theorem afterFrame_ctx_ne (c d : CtxIdx) (h : d ≠ c) (dir : Dir) (fl : Flags) (pay : List Byte) (s : State) :
    (afterFrame c dir fl pay s).ctx d = s.ctx d :=
  vector_get_set_ne s.ctxs _ (Ne.symm h)

theorem length_afterFrame_out (c : CtxIdx) (dir : Dir) (fl : Flags) (pay : List Byte) (s : State) :
    (afterFrame c dir fl pay s).out.length = s.out.length + (16 + (s.ctx c).overhead) + pay.length := by
  simp only [afterFrame, List.length_append, length_recordBytes, length_frameOf]
  omega

/-- The bytes of the records of a chunk sequence. -/
def recordsLength (oh : Nat) (pays : List (List Byte)) : Nat := pays.length * (16 + oh) + pays.flatten.length

theorem recordsLength_cons (oh : Nat) (pay : List Byte) (rest : List (List Byte)) :
    recordsLength oh (pay :: rest) = 16 + oh + pay.length + recordsLength oh rest := by
  simp only [recordsLength, List.length_cons, List.flatten_cons, List.length_append, Nat.succ_mul]
  omega

/-- Where the records fit, every frame is emitted. -/
theorem emitChunks_room (c : CtxIdx) (dir : Dir) (fl : Flags) (pays : List (List Byte)) (s : State)
    (h : s.room (recordsLength (s.ctx c).overhead pays)) :
    emitChunks c dir fl pays s = .ok (afterFrames c dir fl pays s) := by
  induction pays generalizing s with
  | nil => rfl
  | cons pay rest ih =>
    have hf : s.outFull (16 + ((s.ctx c).overhead + pay.length)) = false := by
      unfold State.outFull
      split
      · rfl
      · rename_i m hm
        have := h m hm
        rw [recordsLength_cons] at this
        simp only [decide_eq_false_iff_not]
        omega
    have hr : (afterFrame c dir fl pay s).room (recordsLength ((afterFrame c dir fl pay s).ctx c).overhead rest) := by
      intro m hm
      have := h m hm
      rw [recordsLength_cons] at this
      rw [length_afterFrame_out, afterFrame_ctx, overhead_advance]
      omega
    simp only [emitChunks, buildFrame_eq, hf, if_false, Bool.false_eq_true]
    rw [ih _ hr]
    rfl

/-- Where the records do not all fit, the emission faults. -/
theorem emitChunks_overflow (c : CtxIdx) (dir : Dir) (fl : Flags) (pays : List (List Byte)) (s : State) (m : Nat)
    (hp : pays ≠ []) (hm : s.params.outMax = some m)
    (h : m < s.out.length + recordsLength (s.ctx c).overhead pays) :
    emitChunks c dir fl pays s = .error .outOverflow := by
  induction pays generalizing s with
  | nil => exact absurd rfl hp
  | cons pay rest ih =>
    rw [recordsLength_cons] at h
    simp only [emitChunks, buildFrame_eq]
    by_cases hf : s.outFull (16 + ((s.ctx c).overhead + pay.length)) = true
    · simp only [hf, if_true]
    · have hf' : s.outFull (16 + ((s.ctx c).overhead + pay.length)) = false := by simpa using hf
      simp only [hf', if_false, Bool.false_eq_true]
      have hle : s.out.length + (16 + ((s.ctx c).overhead + pay.length)) ≤ m := by
        simpa [State.outFull, hm] using hf'
      apply ih
      · rintro rfl
        simp [recordsLength] at h
        omega
      · exact hm
      · rw [length_afterFrame_out, afterFrame_ctx, overhead_advance]
        omega

/-- What a sequence of frames leaves of the counters, and everything it leaves alone. -/
theorem afterFrames_frame (c : CtxIdx) (dir : Dir) (fl : Flags) (pays : List (List Byte)) (s : State) :
    afterFrames c dir fl pays s = { s with
      gen := (afterFrames c dir fl pays s).gen, ctxs := (afterFrames c dir fl pays s).ctxs
      clkUs := s.clkUs + BitVec.ofNat 64 pays.length * s.delayUs, out := (afterFrames c dir fl pays s).out
      recCount := s.recCount + BitVec.ofNat 64 pays.length } := by
  induction pays generalizing s with
  | nil => simp [afterFrames]
  | cons pay rest ih =>
    have e : afterFrames c dir fl (pay :: rest) s = afterFrames c dir fl rest (afterFrame c dir fl pay s) := rfl
    have h1 : (BitVec.ofNat 64 (rest.length + 1)) = BitVec.ofNat 64 rest.length + 1#64 := BitVec.ofNat_add ..
    rw [e, ih]
    simp only [afterFrame_clkUs, afterFrame_recCount, afterFrame_delayUs, List.length_cons, h1]
    have h2 : s.clkUs + s.delayUs + BitVec.ofNat 64 rest.length * s.delayUs
        = s.clkUs + (BitVec.ofNat 64 rest.length + 1#64) * s.delayUs := by
      rw [BitVec.add_mul, BitVec.one_mul, BitVec.add_assoc, BitVec.add_comm s.delayUs]
    have h3 : s.recCount + 1#64 + BitVec.ofNat 64 rest.length = s.recCount + (BitVec.ofNat 64 rest.length + 1#64) := by
      rw [BitVec.add_assoc, BitVec.add_comm 1#64]
    rw [h2, h3]
    rfl

@[simp] theorem afterFrames_params (c : CtxIdx) (dir : Dir) (fl : Flags) (pays : List (List Byte)) (s : State) :
    (afterFrames c dir fl pays s).params = s.params := by rw [afterFrames_frame]
@[simp] theorem afterFrames_status (c : CtxIdx) (dir : Dir) (fl : Flags) (pays : List (List Byte)) (s : State) :
    (afterFrames c dir fl pays s).status = s.status := by rw [afterFrames_frame]
@[simp] theorem afterFrames_result (c : CtxIdx) (dir : Dir) (fl : Flags) (pays : List (List Byte)) (s : State) :
    (afterFrames c dir fl pays s).result = s.result := by rw [afterFrames_frame]
@[simp] theorem afterFrames_arg (c : CtxIdx) (dir : Dir) (fl : Flags) (pays : List (List Byte)) (s : State) :
    (afterFrames c dir fl pays s).arg = s.arg := by rw [afterFrames_frame]
@[simp] theorem afterFrames_plen (c : CtxIdx) (dir : Dir) (fl : Flags) (pays : List (List Byte)) (s : State) :
    (afterFrames c dir fl pays s).plen = s.plen := by rw [afterFrames_frame]
@[simp] theorem afterFrames_pbuf (c : CtxIdx) (dir : Dir) (fl : Flags) (pays : List (List Byte)) (s : State) :
    (afterFrames c dir fl pays s).pbuf = s.pbuf := by rw [afterFrames_frame]
@[simp] theorem afterFrames_epoch (c : CtxIdx) (dir : Dir) (fl : Flags) (pays : List (List Byte)) (s : State) :
    (afterFrames c dir fl pays s).epoch = s.epoch := by rw [afterFrames_frame]
@[simp] theorem afterFrames_cfgTsSec (c : CtxIdx) (dir : Dir) (fl : Flags) (pays : List (List Byte)) (s : State) :
    (afterFrames c dir fl pays s).cfgTsSec = s.cfgTsSec := by rw [afterFrames_frame]
@[simp] theorem afterFrames_cfgTsUsec (c : CtxIdx) (dir : Dir) (fl : Flags) (pays : List (List Byte)) (s : State) :
    (afterFrames c dir fl pays s).cfgTsUsec = s.cfgTsUsec := by rw [afterFrames_frame]
@[simp] theorem afterFrames_cfgDelayUs (c : CtxIdx) (dir : Dir) (fl : Flags) (pays : List (List Byte)) (s : State) :
    (afterFrames c dir fl pays s).cfgDelayUs = s.cfgDelayUs := by rw [afterFrames_frame]
@[simp] theorem afterFrames_cfgCtrl (c : CtxIdx) (dir : Dir) (fl : Flags) (pays : List (List Byte)) (s : State) :
    (afterFrames c dir fl pays s).cfgCtrl = s.cfgCtrl := by rw [afterFrames_frame]
@[simp] theorem afterFrames_cfgMtu (c : CtxIdx) (dir : Dir) (fl : Flags) (pays : List (List Byte)) (s : State) :
    (afterFrames c dir fl pays s).cfgMtu = s.cfgMtu := by rw [afterFrames_frame]
@[simp] theorem afterFrames_cfgPorts (c : CtxIdx) (dir : Dir) (fl : Flags) (pays : List (List Byte)) (s : State) :
    (afterFrames c dir fl pays s).cfgPorts = s.cfgPorts := by rw [afterFrames_frame]
@[simp] theorem afterFrames_cfgSrcSeq (c : CtxIdx) (dir : Dir) (fl : Flags) (pays : List (List Byte)) (s : State) :
    (afterFrames c dir fl pays s).cfgSrcSeq = s.cfgSrcSeq := by rw [afterFrames_frame]
@[simp] theorem afterFrames_cfgDstSeq (c : CtxIdx) (dir : Dir) (fl : Flags) (pays : List (List Byte)) (s : State) :
    (afterFrames c dir fl pays s).cfgDstSeq = s.cfgDstSeq := by rw [afterFrames_frame]
@[simp] theorem afterFrames_cfgSrcMac (c : CtxIdx) (dir : Dir) (fl : Flags) (pays : List (List Byte)) (s : State) :
    (afterFrames c dir fl pays s).cfgSrcMac = s.cfgSrcMac := by rw [afterFrames_frame]
@[simp] theorem afterFrames_cfgDstMac (c : CtxIdx) (dir : Dir) (fl : Flags) (pays : List (List Byte)) (s : State) :
    (afterFrames c dir fl pays s).cfgDstMac = s.cfgDstMac := by rw [afterFrames_frame]
@[simp] theorem afterFrames_cfgSrcAddr (c : CtxIdx) (dir : Dir) (fl : Flags) (pays : List (List Byte)) (s : State) :
    (afterFrames c dir fl pays s).cfgSrcAddr = s.cfgSrcAddr := by rw [afterFrames_frame]
@[simp] theorem afterFrames_cfgDstAddr (c : CtxIdx) (dir : Dir) (fl : Flags) (pays : List (List Byte)) (s : State) :
    (afterFrames c dir fl pays s).cfgDstAddr = s.cfgDstAddr := by rw [afterFrames_frame]
@[simp] theorem afterFrames_cfgVlan (c : CtxIdx) (dir : Dir) (fl : Flags) (pays : List (List Byte)) (s : State) :
    (afterFrames c dir fl pays s).cfgVlan = s.cfgVlan := by rw [afterFrames_frame]
@[simp] theorem afterFrames_delayUs (c : CtxIdx) (dir : Dir) (fl : Flags) (pays : List (List Byte)) (s : State) :
    (afterFrames c dir fl pays s).delayUs = s.delayUs := by rw [afterFrames_frame]
@[simp] theorem afterFrames_seed (c : CtxIdx) (dir : Dir) (fl : Flags) (pays : List (List Byte)) (s : State) :
    (afterFrames c dir fl pays s).seed = s.seed := by rw [afterFrames_frame]
@[simp] theorem afterFrames_moves (c : CtxIdx) (dir : Dir) (fl : Flags) (pays : List (List Byte)) (s : State) :
    (afterFrames c dir fl pays s).moves = s.moves := by rw [afterFrames_frame]
@[simp] theorem afterFrames_reply (c : CtxIdx) (dir : Dir) (fl : Flags) (pays : List (List Byte)) (s : State) :
    (afterFrames c dir fl pays s).reply = s.reply := by rw [afterFrames_frame]
theorem afterFrames_clkUs (c : CtxIdx) (dir : Dir) (fl : Flags) (pays : List (List Byte)) (s : State) :
    (afterFrames c dir fl pays s).clkUs = s.clkUs + BitVec.ofNat 64 pays.length * s.delayUs := by rw [afterFrames_frame]
theorem afterFrames_recCount (c : CtxIdx) (dir : Dir) (fl : Flags) (pays : List (List Byte)) (s : State) :
    (afterFrames c dir fl pays s).recCount = s.recCount + BitVec.ofNat 64 pays.length := by rw [afterFrames_frame]

theorem afterFrames_ctx_ne (c d : CtxIdx) (h : d ≠ c) (dir : Dir) (fl : Flags) (pays : List (List Byte)) (s : State) :
    (afterFrames c dir fl pays s).ctx d = s.ctx d := by
  induction pays generalizing s with
  | nil => rfl
  | cons pay rest ih =>
    exact (ih (afterFrame c dir fl pay s)).trans (afterFrame_ctx_ne c d h dir fl pay s)

/-- The sender's sequence number after a sequence of frames (R172). -/
theorem afterFrames_ctx (c : CtxIdx) (dir : Dir) (fl : Flags) (pays : List (List Byte)) (s : State) :
    (afterFrames c dir fl pays s).ctx c = (match (s.ctx c).transport with
      | .tcp => (s.ctx c).setSender dir { (s.ctx c).sender dir with
          seq := ((s.ctx c).sender dir).seq + BitVec.ofNat 32 (pays.flatten.length + pays.length * seqIncrement fl) }
      | .udp => s.ctx c) := by
  induction pays generalizing s with
  | nil => cases h : (s.ctx c).transport <;> cases dir <;> simp [afterFrames, Context.setSender, Context.sender]
  | cons pay rest ih =>
    have e : afterFrames c dir fl (pay :: rest) s = afterFrames c dir fl rest (afterFrame c dir fl pay s) := rfl
    rw [e, ih, afterFrame_ctx, advance_transport]
    cases h : (s.ctx c).transport with
    | udp => simp [Context.advance, h]
    | tcp =>
      have hs : ∀ q : Word, seqAfter q fl pay.length + BitVec.ofNat 32 (rest.flatten.length + rest.length * seqIncrement fl)
          = q + BitVec.ofNat 32 ((pay :: rest).flatten.length + (pay :: rest).length * seqIncrement fl) := by
        intro q
        simp only [seqAfter, BitVec.add_assoc, ← BitVec.ofNat_add, List.flatten_cons, List.length_append,
          List.length_cons, Nat.succ_mul]
        congr 2
        omega
      cases dir <;> simp only [Context.advance, h, Context.setSender, Context.sender, hs]

/-- The streams after a sequence of frames (R162). -/
theorem afterFrames_gen (c : CtxIdx) (dir : Dir) (fl : Flags) (pays : List (List Byte)) (s : State) :
    (afterFrames c dir fl pays s).gen = gensAfterFrames s.params (s.ctx c) s.gen pays.length := by
  have hn : ∀ (p : Params) (g : Dword) (n : Nat), streamAfter p (lcgNext p g) n = streamAfter p g (n + 1) := by
    intro p g n
    induction n with
    | zero => rfl
    | succ n ihn => rw [streamAfter, ihn]; rfl
  induction pays generalizing s with
  | nil =>
    cases h : (s.ctx c).ipver <;> simp [afterFrames, gensAfterFrames, h, streamAfter, Vector.get]
  | cons pay rest ih =>
    have e : afterFrames c dir fl (pay :: rest) s = afterFrames c dir fl rest (afterFrame c dir fl pay s) := rfl
    rw [e, ih, afterFrame_ctx, afterFrame_params]
    simp only [gensAfterFrames, advance_ipver]
    cases h : (s.ctx c).ipver with
    | v6 => simp [afterFrame, drawIdent, h]
    | v4 =>
      have hg : (afterFrame c dir fl pay s).gen = s.gen.set 4 (lcgNext s.params (s.gen.get 4)) := by
        simp [afterFrame, drawIdent, h, fieldDraw, draw]
      have hg4 : (s.gen.set 4 (lcgNext s.params (s.gen.get 4))).get 4 = lcgNext s.params (s.gen.get 4) :=
        vector_get_set_self s.gen 4 _
      simp only [hg, List.length_cons, Vector.set_set, hg4, hn]

/-- The records a sequence of frames appends split into those frames (R200). -/
theorem afterFrames_out (c : CtxIdx) (dir : Dir) (fl : Flags) (pays : List (List Byte)) (s : State)
    (h : ∀ pay ∈ pays, (s.ctx c).overhead + pay.length < 2 ^ 32) :
    ∃ recs, (afterFrames c dir fl pays s).out = s.out ++ recs ∧
      recs.length = recordsLength (s.ctx c).overhead pays ∧
      framesOf recs = some (framesFor c dir fl pays s) := by
  induction pays generalizing s with
  | nil => exact ⟨[], by simp [afterFrames], by simp [recordsLength], rfl⟩
  | cons pay rest ih =>
    have hrest : ∀ q ∈ rest, ((afterFrame c dir fl pay s).ctx c).overhead + q.length < 2 ^ 32 := by
      intro q hq
      rw [afterFrame_ctx, overhead_advance]
      exact h q (List.mem_cons_of_mem _ hq)
    obtain ⟨recs, ho, hl, hf⟩ := ih (afterFrame c dir fl pay s) hrest
    refine ⟨recordBytes (s.clkUs + s.delayUs) (frameOf c dir fl pay s) ++ recs, ?_, ?_, ?_⟩
    · rw [← List.append_assoc]
      exact ho
    · rw [List.length_append, hl, recordsLength_cons, afterFrame_ctx, overhead_advance, length_recordBytes,
        length_frameOf]
      omega
    · have hp := h pay List.mem_cons_self
      have hr : framesOf (recordBytes (s.clkUs + s.delayUs) (frameOf c dir fl pay s)) = some [frameOf c dir fl pay s] :=
        framesOf_record _ _ (by rw [length_frameOf]; exact hp)
      exact framesOf_append hr hf

/-- An emission the MTU can carry and `OUT` has room for completes. -/
theorem emit_room (c : CtxIdx) (dir : Dir) (fl : Flags) (data : List Byte) (s : State)
    (hc : carries (s.ctx c) data.length)
    (hr : s.room (frameCount (s.ctx c).overhead (s.ctx c).mtu.toNat data.length * (16 + (s.ctx c).overhead)
      + data.length)) :
    ∃ pays, segments (s.ctx c).overhead (s.ctx c).mtu.toNat data = .ok pays ∧
      emit c dir fl data s = .ok (afterFrames c dir fl pays s) := by
  obtain ⟨pays, hp⟩ := segments_of_carries hc
  obtain ⟨hf, -, hl, -⟩ := segments_ok hp
  refine ⟨pays, hp, ?_⟩
  simp only [emit, hp]
  apply emitChunks_room
  rw [recordsLength, hf, hl]
  exact hr

/-- An emission of the empty payload is one frame, where the MTU carries the overhead (R154 a, e). -/
theorem emit_nil (c : CtxIdx) (dir : Dir) (fl : Flags) (s : State) (h : (s.ctx c).overhead ≤ (s.ctx c).mtu.toNat) :
    emit c dir fl [] s =
      if s.outFull (16 + (s.ctx c).overhead) then .error .outOverflow else .ok (afterFrame c dir fl [] s) := by
  simp only [emit, segments_nil h, emitChunks, buildFrame_eq, List.length_nil, Nat.add_zero]
  split <;> simp_all

/-- With room for `n` bytes an append of fewer is made. -/
theorem outFull_of_room {s : State} {n k : Nat} (h : s.room n) (hk : k ≤ n) : s.outFull k = false := by
  unfold State.outFull
  split
  · rfl
  · rename_i m hm
    have := h m hm
    simp only [decide_eq_false_iff_not]
    omega

/-- A property that every frame keeps is kept by an emission. -/
theorem foldl_afterFrame {P : State → Prop} {c : CtxIdx} {dir : Dir} {fl : Flags}
    (hP : ∀ u pay, P u → P (afterFrame c dir fl pay u)) (pays : List (List Byte)) {s : State} (h : P s) :
    P (pays.foldl (fun u pay => afterFrame c dir fl pay u) s) := by
  induction pays generalizing s with
  | nil => exact h
  | cons pay rest ih => exact ih (hP s pay h)

/-- An emission that completes is a sequence of frames, one for each chunk. -/
theorem emit_ok {c : CtxIdx} {dir : Dir} {fl : Flags} {data : List Byte} {s t : State}
    (h : emit c dir fl data s = .ok t) :
    ∃ pays, segments (s.ctx c).overhead (s.ctx c).mtu.toNat data = .ok pays ∧ t = afterFrames c dir fl pays s := by
  rcases emit_cases h with h | ⟨pays, hp, h | h⟩
  · cases h.1
  · cases h
  · cases h
    exact ⟨pays, hp, rfl⟩

/-- An emission that completes leaves `OUT` inside `OUT_MAX`. -/
theorem emitChunks_out_le {c : CtxIdx} {dir : Dir} {fl : Flags} {pays : List (List Byte)} {s t : State}
    (h : emitChunks c dir fl pays s = .ok t) (m : Nat) (hm : s.params.outMax = some m) (hs : s.out.length ≤ m) :
    t.out.length ≤ m := by
  induction pays generalizing s with
  | nil =>
    simp only [emitChunks, Except.ok.injEq] at h
    subst h
    exact hs
  | cons pay rest ih =>
    simp only [emitChunks, buildFrame_eq] at h
    by_cases hf : s.outFull (16 + ((s.ctx c).overhead + pay.length)) = true
    · simp [hf] at h
    · have hf' : s.outFull (16 + ((s.ctx c).overhead + pay.length)) = false := by simpa using hf
      simp only [hf', if_false, Bool.false_eq_true] at h
      apply ih h hm
      rw [length_afterFrame_out]
      simp only [State.outFull, hm, decide_eq_false_iff_not] at hf'
      omega

theorem emit_out_le {c : CtxIdx} {dir : Dir} {fl : Flags} {data : List Byte} {s t : State}
    (h : emit c dir fl data s = .ok t) (m : Nat) (hm : s.params.outMax = some m) (hs : s.out.length ≤ m) :
    t.out.length ≤ m := by
  unfold emit at h
  split at h
  · cases h
  · exact emitChunks_out_le h m hm hs

/-- Two emissions in sequence complete only where both do. -/
theorem andThen_ok {r : Except FaultCode State} {f : State → Except FaultCode State} {t : State} :
    andThen r f = .ok t ↔ ∃ u, r = .ok u ∧ f u = .ok t := by
  cases r <;> simp [andThen]

/-- The two ways a command ends (R213). -/
theorem finish_cases {o : Byte} {s t : State} {r : Except FaultCode State} (h : finish o s r = .next t) :
    (∃ u, r = .ok u ∧ t = u.complete o) ∨ (∃ e, r = .error e ∧ t = s.raise o e) := by
  unfold finish at h
  split at h
  · rename_i u
    cases h
    exact .inl ⟨u, rfl, rfl⟩
  · rename_i e
    cases h
    exact .inr ⟨e, rfl, rfl⟩

/-- Every command answers a next state. -/
theorem finish_next (o : Byte) (s : State) (r : Except FaultCode State) : ∃ t, finish o s r = .next t := by
  cases r
  · exact ⟨_, rfl⟩
  · exact ⟨_, rfl⟩

theorem withCtx_ok {c : CtxIdx} {s t : State} {r : Except FaultCode State} :
    withCtx c s r = .ok t ↔ c.val < s.params.nctx ∧ r = .ok t := by
  unfold withCtx
  split <;> simp_all

/-- What a command leaves as it is when it ends in `t`: everything but the emission state, `STATUS`, and the registers
named by the family that writes them. -/
theorem afterFrame_frame (c : CtxIdx) (dir : Dir) (fl : Flags) (pay : List Byte) (s : State) :
    afterFrame c dir fl pay s = { s with
      gen := (afterFrame c dir fl pay s).gen, ctxs := (afterFrame c dir fl pay s).ctxs
      clkUs := (afterFrame c dir fl pay s).clkUs, out := (afterFrame c dir fl pay s).out
      recCount := (afterFrame c dir fl pay s).recCount } := rfl

end Sys2Proof.Laws
end

