-- ==== Sys2Proof/Laws/Commands.lean ====
section
/-! SUPPORT. The commands' shared parts: what the payload commands run, and what CREATE's checks and draws do. -/

namespace Sys2Proof.Laws

open Sys2Proof.Machine

/-- The three payload commands run one operation (R130, R131, R185). -/
theorem exec_emitsPayload {i : Instr} {c : CtxIdx} {dir : Dir} {fl : Flags} (h : i.emitsPayload c dir fl) (s : State) :
    exec i s = finish i.opc s (withCtx c s (emitPayload c dir fl s)) := by
  rcases h with ⟨rfl, rfl, rfl⟩ | ⟨rfl, rfl, rfl⟩ | rfl <;> rfl

@[simp] theorem length_payload (s : State) : s.payload.length = s.plen.toNat := by
  simp [State.payload, pbufRead]

/-- Past the checks, a payload command is its emission. -/
theorem emitPayload_established {c : CtxIdx} {dir : Dir} {fl : Flags} {s : State}
    (hl : s.plen.toNat ≤ s.params.payloadMax) (he : (s.ctx c).lstate = .established) :
    emitPayload c dir fl s = emit c dir fl s.payload s := by
  unfold emitPayload
  rw [if_neg (by simp [State.payloadTooLong]; omega), if_neg (by simp [he])]

/-- A payload command on an established context that can carry the payload, with room for its records, completes. -/
theorem exec_emitsPayload_room {i : Instr} {c : CtxIdx} {dir : Dir} {fl : Flags} {s : State}
    (hi : i.emitsPayload c dir fl) (hc : c.val < s.params.nctx) (hl : s.plen.toNat ≤ s.params.payloadMax)
    (he : (s.ctx c).lstate = .established) (hcar : carries (s.ctx c) s.plen.toNat)
    (hr : s.room (frameCount (s.ctx c).overhead (s.ctx c).mtu.toNat s.plen.toNat * (16 + (s.ctx c).overhead)
      + s.plen.toNat)) :
    ∃ pays, segments (s.ctx c).overhead (s.ctx c).mtu.toNat s.payload = .ok pays ∧
      exec i s = .next ((afterFrames c dir fl pays s).complete i.opc) := by
  obtain ⟨pays, hp, hem⟩ := emit_room c dir fl s.payload s (by rwa [length_payload]) (by rwa [length_payload])
  refine ⟨pays, hp, ?_⟩
  rw [exec_emitsPayload hi, withCtx, if_pos hc, emitPayload_established hl he, hem]
  rfl

/-- The value of a resolved field of at most 64 bits (R111, R126). -/
theorem resolve_value (given : Bool) {w : Nat} (v : BitVec w) (k : StreamIdx) (s : State) (hw : w ≤ 64) :
    (resolve given v k s).1 = if given then v else (lcgNext s.params (s.gen.get k)).extractLsb' (64 - w) w := by
  unfold resolve fieldDraw
  cases given <;> simp [hw]

/-- The streams after it: a given field consumes no draw. -/
theorem resolve_gen (given : Bool) {w : Nat} (v : BitVec w) (k j : StreamIdx) (s : State) (hw : w ≤ 64) :
    (resolve given v k s).2.gen.get j
      = if given = false ∧ k = j then lcgNext s.params (s.gen.get k) else s.gen.get j := by
  unfold resolve fieldDraw
  cases given <;> simp [hw]

@[simp] theorem resolve_params (given : Bool) {w : Nat} (v : BitVec w) (k : StreamIdx) (s : State) :
    (resolve given v k s).2.params = s.params := by
  unfold resolve fieldDraw
  cases given <;> simp
  split <;> simp

theorem resolveAddr_v4 (given : Bool) (v : BitVec 128) (s : State) :
    (resolveAddr .v4 given v s).1 = (if given then v.setWidth 32
      else (lcgNext s.params (s.gen.get 1)).extractLsb' 32 32).setWidth 128 := by
  simp only [resolveAddr]
  rw [resolve_value _ _ _ _ (by decide)]

theorem resolveAddr_v4_gen (given : Bool) (v : BitVec 128) (j : StreamIdx) (s : State) :
    (resolveAddr .v4 given v s).2.gen.get j
      = if given = false ∧ 1 = j then lcgNext s.params (s.gen.get 1) else s.gen.get j := by
  simp only [resolveAddr]
  rw [resolve_gen _ _ _ _ _ (by decide)]

theorem resolveAddr_v6 (given : Bool) (v : BitVec 128) (s : State) :
    (resolveAddr .v6 given v s).1 = if given then v
      else lcgNext s.params (s.gen.get 1) ++ lcgNext s.params (lcgNext s.params (s.gen.get 1)) := by
  simp only [resolveAddr, resolve, fieldDraw]
  cases given <;> simp

theorem resolveAddr_v6_gen (given : Bool) (v : BitVec 128) (j : StreamIdx) (s : State) :
    (resolveAddr .v6 given v s).2.gen.get j
      = if given = false ∧ 1 = j then lcgNext s.params (lcgNext s.params (s.gen.get 1)) else s.gen.get j := by
  simp only [resolveAddr, resolve, fieldDraw]
  cases given
  · by_cases h : (1 : StreamIdx) = j <;> simp [h]
  · simp

@[simp] theorem resolveAddr_params (ver : IpVer) (given : Bool) (v : BitVec 128) (s : State) :
    (resolveAddr ver given v s).2.params = s.params := by
  cases ver
  · exact resolve_params given (v.setWidth 32) 1 s
  · exact resolve_params given v 1 s

/-- A resolved field changes the streams only. -/
theorem resolve_state {s t : State} (h : t = { s with gen := t.gen }) (given : Bool) {w : Nat} (v : BitVec w)
    (k : StreamIdx) : (resolve given v k t).2 = { s with gen := (resolve given v k t).2.gen } := by
  have hd : ∀ {u : State}, u = { s with gen := u.gen } → (draw k u).2 = { s with gen := (draw k u).2.gen } := by
    intro u hu
    simp only [draw]
    rw [hu]
  unfold resolve fieldDraw
  split
  · exact h
  · split
    · exact hd h
    · exact hd (hd h)

theorem resolveAddr_state {s t : State} (h : t = { s with gen := t.gen }) (ver : IpVer) (given : Bool) (v : BitVec 128) :
    (resolveAddr ver given v t).2 = { s with gen := (resolveAddr ver given v t).2.gen } := by
  cases ver
  · exact resolve_state h given (v.setWidth 32) 1
  · exact resolve_state h given v 1

/-- Resolving the fields of a new context changes the streams only (R126). -/
theorem newContext_state (s : State) : (newContext s).2 = { s with gen := (newContext s).2.gen } :=
  resolve_state (resolve_state (resolve_state (resolve_state (resolveAddr_state (resolveAddr_state (resolve_state
    (resolve_state rfl _ _ _) _ _ _) _ _ _) _ _ _) _ _ _) _ _ _) _ _ _) _ _ _

@[simp] theorem newContext_params (s : State) : (newContext s).2.params = s.params := by rw [newContext_state]
@[simp] theorem newContext_status (s : State) : (newContext s).2.status = s.status := by rw [newContext_state]
@[simp] theorem newContext_result (s : State) : (newContext s).2.result = s.result := by rw [newContext_state]
@[simp] theorem newContext_arg (s : State) : (newContext s).2.arg = s.arg := by rw [newContext_state]
@[simp] theorem newContext_plen (s : State) : (newContext s).2.plen = s.plen := by rw [newContext_state]
@[simp] theorem newContext_pbuf (s : State) : (newContext s).2.pbuf = s.pbuf := by rw [newContext_state]
@[simp] theorem newContext_epoch (s : State) : (newContext s).2.epoch = s.epoch := by rw [newContext_state]
@[simp] theorem newContext_cfgTsSec (s : State) : (newContext s).2.cfgTsSec = s.cfgTsSec := by rw [newContext_state]
@[simp] theorem newContext_cfgTsUsec (s : State) : (newContext s).2.cfgTsUsec = s.cfgTsUsec := by rw [newContext_state]
@[simp] theorem newContext_cfgDelayUs (s : State) : (newContext s).2.cfgDelayUs = s.cfgDelayUs := by rw [newContext_state]
@[simp] theorem newContext_cfgCtrl (s : State) : (newContext s).2.cfgCtrl = s.cfgCtrl := by rw [newContext_state]
@[simp] theorem newContext_cfgMtu (s : State) : (newContext s).2.cfgMtu = s.cfgMtu := by rw [newContext_state]
@[simp] theorem newContext_cfgPorts (s : State) : (newContext s).2.cfgPorts = s.cfgPorts := by rw [newContext_state]
@[simp] theorem newContext_cfgSrcSeq (s : State) : (newContext s).2.cfgSrcSeq = s.cfgSrcSeq := by rw [newContext_state]
@[simp] theorem newContext_cfgDstSeq (s : State) : (newContext s).2.cfgDstSeq = s.cfgDstSeq := by rw [newContext_state]
@[simp] theorem newContext_cfgSrcMac (s : State) : (newContext s).2.cfgSrcMac = s.cfgSrcMac := by rw [newContext_state]
@[simp] theorem newContext_cfgDstMac (s : State) : (newContext s).2.cfgDstMac = s.cfgDstMac := by rw [newContext_state]
@[simp] theorem newContext_cfgSrcAddr (s : State) : (newContext s).2.cfgSrcAddr = s.cfgSrcAddr := by rw [newContext_state]
@[simp] theorem newContext_cfgDstAddr (s : State) : (newContext s).2.cfgDstAddr = s.cfgDstAddr := by rw [newContext_state]
@[simp] theorem newContext_cfgVlan (s : State) : (newContext s).2.cfgVlan = s.cfgVlan := by rw [newContext_state]
@[simp] theorem newContext_clkUs (s : State) : (newContext s).2.clkUs = s.clkUs := by rw [newContext_state]
@[simp] theorem newContext_delayUs (s : State) : (newContext s).2.delayUs = s.delayUs := by rw [newContext_state]
@[simp] theorem newContext_out (s : State) : (newContext s).2.out = s.out := by rw [newContext_state]
@[simp] theorem newContext_recCount (s : State) : (newContext s).2.recCount = s.recCount := by rw [newContext_state]
@[simp] theorem newContext_seed (s : State) : (newContext s).2.seed = s.seed := by rw [newContext_state]
@[simp] theorem newContext_ctxs (s : State) : (newContext s).2.ctxs = s.ctxs := by rw [newContext_state]
@[simp] theorem newContext_moves (s : State) : (newContext s).2.moves = s.moves := by rw [newContext_state]
@[simp] theorem newContext_reply (s : State) : (newContext s).2.reply = s.reply := by rw [newContext_state]

@[simp] theorem newContext_lstate (s : State) : (newContext s).1.lstate = .init := rfl

@[simp] theorem newContext_transport (s : State) :
    (newContext s).1.transport = if s.cfgCtrl.getLsbD 0 then .udp else .tcp := rfl

end Sys2Proof.Laws
end

