-- ==== Sys2Proof/Laws/Memory.lean ====
section
/-! SUPPORT. The laws of the payload buffer: a store gives back what it stored, leaves every other index alone, and keeps
the canonical form. -/

namespace Sys2Proof.Laws

open Sys2Proof.Machine

theorem lookup_store (m : List Host.Cell) (a : Nat) (b : Byte) (a' : Nat) :
    Memory.lookup (Memory.store m a b) a' = if a' = a then some b else Memory.lookup m a' := by
  induction m with
  | nil => simp [Memory.store, Memory.lookup]
  | cons e rest ih =>
    obtain ⟨x, v⟩ := e
    by_cases h1 : a < x
    · by_cases h : a' = a <;> simp [Memory.store, Memory.lookup, h1, h]
    · by_cases h2 : a = x
      · subst h2
        by_cases h : a' = a <;> simp [Memory.store, Memory.lookup, h]
      · have hs : Memory.store ((x, v) :: rest) a b = (x, v) :: Memory.store rest a b := by
          simp [Memory.store, h1, h2]
        rw [hs]
        by_cases h3 : a' = x
        · subst h3
          simp [Memory.lookup, Ne.symm h2]
        · simp [Memory.lookup, h3, ih]

/-- Every entry after a store is the stored one or was there before. -/
theorem mem_store {m : List Host.Cell} {a : Nat} {b : Byte} {e : Host.Cell} (h : e ∈ Memory.store m a b) :
    e = (a, b) ∨ e ∈ m := by
  induction m with
  | nil => simpa [Memory.store] using h
  | cons f rest ih =>
    obtain ⟨x, v⟩ := f
    by_cases h1 : a < x
    · simpa [Memory.store, h1] using h
    · by_cases h2 : a = x
      · subst h2
        simp only [Memory.store, Nat.lt_irrefl, if_false, if_true, List.mem_cons] at h
        rcases h with h | h
        · exact .inl h
        · exact .inr (List.mem_cons_of_mem _ h)
      · simp only [Memory.store, h1, h2, if_false, List.mem_cons] at h
        rcases h with h | h
        · exact .inr (by simp [h])
        · rcases ih h with h | h
          · exact .inl h
          · exact .inr (List.mem_cons_of_mem _ h)

theorem wf_iff_pairwise (m : List Host.Cell) : Memory.wf m = true ↔ m.Pairwise fun e f => e.1 < f.1 := by
  induction m with
  | nil => simp [Memory.wf]
  | cons e rest ih =>
    obtain ⟨x, v⟩ := e
    cases rest with
    | nil => simp [Memory.wf]
    | cons f rest =>
      obtain ⟨y, u⟩ := f
      simp only [Memory.wf, Bool.and_eq_true, decide_eq_true_eq, ih, List.pairwise_cons, List.mem_cons]
      constructor
      · rintro ⟨hxy, hy, hr⟩
        refine ⟨?_, hy, hr⟩
        rintro g (rfl | hg)
        · exact hxy
        · exact Nat.lt_trans hxy (hy g hg)
      · rintro ⟨hx, hy, hr⟩
        exact ⟨hx (y, u) (.inl rfl), hy, hr⟩

/-- A store keeps the canonical form. -/
theorem wf_store (m : List Host.Cell) (a : Nat) (b : Byte) (h : Memory.wf m = true) :
    Memory.wf (Memory.store m a b) = true := by
  rw [wf_iff_pairwise] at h ⊢
  induction m with
  | nil => simp [Memory.store]
  | cons e rest ih =>
    obtain ⟨x, v⟩ := e
    rw [List.pairwise_cons] at h
    by_cases h1 : a < x
    · simp only [Memory.store, h1, if_true, List.pairwise_cons, List.mem_cons]
      refine ⟨?_, h.1, h.2⟩
      rintro g (rfl | hg)
      · exact h1
      · exact Nat.lt_trans h1 (h.1 g hg)
    · by_cases h2 : a = x
      · subst h2
        simp only [Memory.store, Nat.lt_irrefl, if_false, if_true, List.pairwise_cons]
        exact h
      · simp only [Memory.store, h1, h2, if_false, List.pairwise_cons]
        refine ⟨fun g hg => ?_, ih h.2⟩
        rcases mem_store hg with rfl | hg
        · exact Nat.lt_of_le_of_ne (Nat.le_of_not_lt h1) (Ne.symm h2)
        · exact h.1 g hg

theorem wf_reset (p : Params) (e : Nat) : Memory.wf (State.resetWith p e).pbuf = true := rfl

end Sys2Proof.Laws
end

