-- ==== Sys2Proof/Laws/PerInstr.lean ====
section
/-! SUPPORT. The family `EncodeMatches`: every command's encoding selects its row of the opcode table (R82). -/

namespace Sys2Proof.Laws.EncodeMatches

/-- The encoding of `i` selects `i`'s row: `(w & mask) = match`, and its opcode byte is `i`'s. -/
def Statement (i : Instr) : Prop :=
  encode i &&& i.row.mask = i.row.matchWord ∧ opcOf (encode i) = i.opc ∧ i.row ∈ opcodeTable

theorem sessionInit : Statement .sessionInit := by unfold Statement; decide
theorem seed (k : StreamIdx) : Statement (.seed k) := by
  unfold Statement; revert k; decide
theorem draw (k : StreamIdx) : Statement (.draw k) := by
  unfold Statement; revert k; decide
theorem insertDelay : Statement .insertDelay := by unfold Statement; decide
theorem render : Statement .render := by unfold Statement; decide
theorem create (c : CtxIdx) : Statement (.create c) := by
  unfold Statement; revert c; decide
theorem emitClient (c : CtxIdx) : Statement (.emitClient c) := by
  unfold Statement; revert c; decide
theorem emitServer (c : CtxIdx) : Statement (.emitServer c) := by
  unfold Statement; revert c; decide
theorem close (c : CtxIdx) : Statement (.close c) := by
  unfold Statement; revert c; decide
theorem reset (c : CtxIdx) : Statement (.reset c) := by
  unfold Statement; revert c; decide
theorem build (c : CtxIdx) (dir : Dir) (flags : Flags) : Statement (.build c dir flags) := by
  obtain ⟨a, b, f, r⟩ := flags
  unfold Statement
  revert c a b f r
  cases dir <;> decide

end Sys2Proof.Laws.EncodeMatches
end

