-- ==== Sys2Proof/Laws/Records.lean ====
section
/-! SUPPORT. The records an emission appends, as `State.recordAt` of its frames in order. -/

namespace Sys2Proof.Laws

open Sys2Proof.Machine

/-- An IPv6 frame carries no identification. -/
theorem frameBytes_ident {x : Context} (h : x.ipver = .v6) (p : Params) (dir : Dir) (fl : Flags) (a b : BitVec 16)
    (pay : List Byte) : frameBytes p x dir fl a pay = frameBytes p x dir fl b pay := by
  simp only [frameBytes, networkHeader, h]

/-- A frame does not depend on the lifecycle state. -/
theorem frameBytes_lstate (x : Context) (l : LState) (p : Params) (dir : Dir) (fl : Flags) (a : BitVec 16)
    (pay : List Byte) : frameBytes p { x with lstate := l } dir fl a pay = frameBytes p x dir fl a pay := by
  cases dir <;> rfl

theorem recordAt_lstate (s : State) (j : Nat) (x : Context) (l : LState) (dir : Dir) (fl : Flags) (pay : List Byte) :
    s.recordAt j { x with lstate := l } dir fl pay = s.recordAt j x dir fl pay := by
  simp only [State.recordAt, frameBytes_lstate]

/-- The record the next frame appends. -/
theorem recordBytes_frameOf (c : CtxIdx) (dir : Dir) (fl : Flags) (pay : List Byte) (s : State) :
    recordBytes (s.clkUs + s.delayUs) (frameOf c dir fl pay s) = s.recordAt 0 (s.ctx c) dir fl pay := by
  have h1 : s.clkUs + BitVec.ofNat 64 (0 + 1) * s.delayUs = s.clkUs + s.delayUs := by
    rw [show BitVec.ofNat 64 (0 + 1) = 1#64 from rfl, BitVec.one_mul]
  rw [State.recordAt, h1]
  congr 1
  unfold frameOf
  cases h : (s.ctx c).ipver with
  | v6 => exact frameBytes_ident h _ _ _ _ _ _
  | v4 => simp [drawIdent, h, fieldDraw, draw, identAfter, streamAfter]

theorem streamAfter_next (p : Params) (g : Dword) (n : Nat) : streamAfter p (lcgNext p g) n = streamAfter p g (n + 1) := by
  induction n with
  | zero => rfl
  | succ n ih => rw [streamAfter, ih]; rfl

theorem afterFrame_gen4 {c : CtxIdx} {s : State} (h : (s.ctx c).ipver = .v4) (dir : Dir) (fl : Flags) (pay : List Byte) :
    (afterFrame c dir fl pay s).gen.get 4 = lcgNext s.params (s.gen.get 4) := by
  simp only [afterFrame, drawIdent, h, fieldDraw, draw]
  exact vector_get_set_self s.gen 4 _

/-- The `j`-th record after one frame of an emission is the next of the records from before it. -/
theorem recordAt_afterFrame {c : CtxIdx} {s : State} {y : Context} (hy : y.ipver = (s.ctx c).ipver) (j : Nat)
    (dir dir' : Dir) (fl fl' : Flags) (pay pay' : List Byte) :
    (afterFrame c dir fl pay s).recordAt j y dir' fl' pay' = s.recordAt (j + 1) y dir' fl' pay' := by
  have hclk : s.clkUs + s.delayUs + BitVec.ofNat 64 (j + 1) * s.delayUs
      = s.clkUs + BitVec.ofNat 64 (j + 1 + 1) * s.delayUs := by
    rw [BitVec.ofNat_add (j + 1) 1, BitVec.add_mul, BitVec.one_mul, BitVec.add_assoc, BitVec.add_comm s.delayUs]
  simp only [State.recordAt, afterFrame_clkUs, afterFrame_delayUs, afterFrame_params, hclk]
  congr 1
  cases h : (s.ctx c).ipver with
  | v6 => exact frameBytes_ident (hy.trans h) _ _ _ _ _ _
  | v4 => rw [afterFrame_gen4 h, identAfter, streamAfter_next, identAfter]

theorem afterSegments_advance (x : Context) (dir : Dir) (fl : Flags) (a n m : Nat) :
    (x.advance dir fl a).afterSegments dir fl n m = x.afterSegments dir fl (a + n) (m + 1) := by
  have hs : ∀ q : Word, seqAfter q fl a + BitVec.ofNat 32 (n + m * seqIncrement fl)
      = q + BitVec.ofNat 32 (a + n + (m + 1) * seqIncrement fl) := by
    intro q
    simp only [seqAfter, BitVec.add_assoc, ← BitVec.ofNat_add, Nat.succ_mul]
    congr 2
    omega
  cases h : x.transport with
  | udp => simp only [Context.afterSegments, Context.advance, h]
  | tcp => cases dir <;> simp only [Context.afterSegments, Context.advance, h, Context.setSender, Context.sender, hs]

@[simp] theorem afterSegments_zero (x : Context) (dir : Dir) (fl : Flags) : x.afterSegments dir fl 0 0 = x := by
  unfold Context.afterSegments
  split
  · cases dir <;> simp [Context.setSender, Context.sender]
  · rfl

@[simp] theorem afterSegments_ipver (x : Context) (dir : Dir) (fl : Flags) (n m : Nat) :
    (x.afterSegments dir fl n m).ipver = x.ipver := by
  cases h : x.transport <;> cases dir <;> simp [Context.afterSegments, h, Context.setSender]

/-- Everything a sequence of frames appends to `OUT`: their records, in order. -/
theorem afterFrames_records (c : CtxIdx) (dir : Dir) (fl : Flags) (pays : List (List Byte)) (s : State) :
    (afterFrames c dir fl pays s).out = s.out ++ (List.range pays.length).flatMap fun j =>
      s.recordAt j ((s.ctx c).afterSegments dir fl (pays.take j).flatten.length j) dir fl (pays.getD j []) := by
  induction pays generalizing s with
  | nil => simp [afterFrames]
  | cons pay rest ih =>
    have e : afterFrames c dir fl (pay :: rest) s = afterFrames c dir fl rest (afterFrame c dir fl pay s) := rfl
    have ho : (afterFrame c dir fl pay s).out = s.out ++ s.recordAt 0 (s.ctx c) dir fl pay := by
      rw [← recordBytes_frameOf]; rfl
    rw [e, ih, ho, afterFrame_ctx, List.length_cons, List.range_succ_eq_map, List.flatMap_cons, List.flatMap_map,
      List.append_assoc]
    simp only [List.take_zero, List.flatten_nil, List.length_nil, afterSegments_zero, List.getD_cons_zero,
      List.take_succ_cons, List.flatten_cons, List.length_append, List.getD_cons_succ, afterSegments_advance]
    congr 3
    funext j
    exact recordAt_afterFrame (by simp) _ _ _ _ _ _ _

end Sys2Proof.Laws
end

