-- ==== Sys2Proof/Laws/Status.lean ====
section
/-! SUPPORT. The fields of a `STATUS` word, read back (R36). -/

namespace Sys2Proof.Laws

open Sys2Proof.Machine

@[simp] theorem statusCode_statusWord (o : Byte) (k : Bool) (c : Byte) : statusCode (statusWord o k c) = c := by
  apply BitVec.eq_of_getLsbD_eq
  intro i hi
  simp only [statusCode, statusWord, BitVec.getLsbD_extractLsb', BitVec.getLsbD_append, Nat.zero_add]
  simp [hi]

@[simp] theorem statusSticky_statusWord (o : Byte) (k : Bool) (c : Byte) : statusSticky (statusWord o k c) = k := by
  simp only [statusSticky, statusWord, BitVec.getLsbD_append]
  simp

@[simp] theorem statusLastOpc_statusWord (o : Byte) (k : Bool) (c : Byte) : statusLastOpc (statusWord o k c) = o := by
  apply BitVec.eq_of_getLsbD_eq
  intro i hi
  simp only [statusLastOpc, statusWord, BitVec.getLsbD_extractLsb', BitVec.getLsbD_append]
  simp [hi, show ¬ 16 + i < 8 by omega, show ¬ 16 + i - 8 < 1 by omega, show ¬ 16 + i - 8 - 1 < 7 by omega,
    show 16 + i - 8 - 1 - 7 = i by omega]

/-- No fault's code is `OK` (R210). -/
theorem faultByte_ne_ok (e : FaultCode) : faultByte e ≠ 0x00#8 := by cases e <;> decide

@[simp] theorem statusCode_statusOk (w : Word) (o : Byte) : statusCode (statusOk w o) = 0x00#8 :=
  statusCode_statusWord _ _ _

@[simp] theorem statusCode_statusFault (o : Byte) (e : FaultCode) : statusCode (statusFault o e) = faultByte e :=
  statusCode_statusWord _ _ _

end Sys2Proof.Laws
end

