-- ==== Sys2Proof/Laws/Validate.lean ====
section
/-! SUPPORT. CREATE's checks (R127): what `validate` answers, in the terms the claims use. -/

namespace Sys2Proof.Laws

open Sys2Proof.Machine

theorem getLsbD_iff {w : Nat} (v : BitVec w) (i : Nat) : v.getLsbD i = true ↔ v.toNat / 2 ^ i % 2 = 1 := by
  rw [BitVec.getLsbD, Nat.testBit_eq_decide_div_mod_eq]
  simp

theorem field_toNat {w : Nat} (v : BitVec w) (lo n : Nat) : (v.extractLsb' lo n).toNat = v.toNat / 2 ^ lo % 2 ^ n := by
  rw [BitVec.extractLsb'_toNat, Nat.shiftRight_eq_div_pow]

theorem field_ne_zero {w : Nat} (v : BitVec w) (lo n : Nat) : (v.extractLsb' lo n != 0#n) = true ↔ v.toNat / 2 ^ lo % 2 ^ n ≠ 0 := by
  rw [bne_iff_ne, Ne, ← BitVec.toNat_inj, field_toNat]
  simp

theorem field_eq_zero {w : Nat} (v : BitVec w) (lo n : Nat) : (v.extractLsb' lo n == 0#n) = true ↔ v.toNat / 2 ^ lo % 2 ^ n = 0 := by
  rw [beq_iff_eq, ← BitVec.toNat_inj, field_toNat]
  simp

/-- Everything `validate` can answer: all option checks come before all address checks (R127). -/
theorem validate_cases (s : State) :
    (s.optionsOk ∧ s.addressesOk ∧ validate s = none) ∨ (¬ s.optionsOk ∧ validate s = some .optionInvalid) ∨
      (s.optionsOk ∧ ¬ s.addressesOk ∧ validate s = some .addressFormat) := by
  have hk := s.cfgCtrl.isLt
  have hm := s.cfgMtu.isLt
  have hs := s.cfgSrcMac.isLt
  have hd := s.cfgDstMac.isLt
  have hsa := s.cfgSrcAddr.isLt
  have hda := s.cfgDstAddr.isLt
  have h1 : (s.cfgCtrl.getLsbD 3 || s.cfgCtrl.extractLsb' 16 16 != 0#16) = true ↔
      ¬ (s.cfgCtrl.toNat / 8 % 2 = 0 ∧ s.cfgCtrl.toNat < 2 ^ 16) := by
    rw [Bool.or_eq_true, getLsbD_iff, field_ne_zero]
    omega
  have h2 : decide (s.params.vlanMax < (s.cfgCtrl.extractLsb' 4 4).toNat) = true ↔
      ¬ s.cfgCtrl.toNat / 16 % 16 ≤ s.params.vlanMax := by
    rw [decide_eq_true_iff, field_toNat]
    omega
  have h3 : (s.cfgMtu.extractLsb' 16 16 != 0#16 || s.cfgMtu.extractLsb' 0 16 == 0#16) = true ↔
      ¬ (1 ≤ s.cfgMtu.toNat ∧ s.cfgMtu.toNat < 2 ^ 16) := by
    rw [Bool.or_eq_true, field_ne_zero, field_eq_zero]
    omega
  have h4 : (s.cfgCtrl.getLsbD 8 && s.cfgSrcMac.extractLsb' 48 16 != 0#16) = true ↔
      ¬ (s.cfgCtrl.toNat / 2 ^ 8 % 2 = 1 → s.cfgSrcMac.toNat < 2 ^ 48) := by
    rw [Bool.and_eq_true, getLsbD_iff, field_ne_zero]
    omega
  have h5 : (s.cfgCtrl.getLsbD 9 && s.cfgDstMac.extractLsb' 48 16 != 0#16) = true ↔
      ¬ (s.cfgCtrl.toNat / 2 ^ 9 % 2 = 1 → s.cfgDstMac.toNat < 2 ^ 48) := by
    rw [Bool.and_eq_true, getLsbD_iff, field_ne_zero]
    omega
  have h6 : ((s.cfgVlan.toList.take (s.cfgCtrl.extractLsb' 4 4).toNat).any fun t => t.extractLsb' 16 16 != 0#16) = true ↔
      ¬ (∀ i : Fin 15, i.val < s.cfgCtrl.toNat / 16 % 16 → (s.cfgVlan.get i).toNat < 2 ^ 16) := by
    have hn : (s.cfgCtrl.extractLsb' 4 4).toNat = s.cfgCtrl.toNat / 16 % 16 := field_toNat ..
    rw [hn, List.any_eq_true]
    constructor
    · rintro ⟨t, ht, hf⟩ hall
      obtain ⟨j, hj, rfl⟩ := List.mem_iff_getElem.1 ht
      simp only [List.length_take, Vector.length_toList] at hj
      rw [field_ne_zero] at hf
      have hlt := hall ⟨j, by omega⟩ (by show j < _; omega)
      simp only [List.getElem_take, Vector.getElem_toList] at hf
      simp only [Vector.get_eq_getElem] at hlt
      omega
    · intro hall
      simp only [not_forall] at hall
      obtain ⟨i, hi, hge⟩ := hall
      refine ⟨s.cfgVlan.get i, ?_, ?_⟩
      · rw [List.mem_iff_getElem]
        refine ⟨i.val, by simp only [List.length_take, Vector.length_toList]; omega, ?_⟩
        simp only [List.getElem_take, Vector.getElem_toList, Vector.get_eq_getElem]
      · rw [field_ne_zero]
        have := (s.cfgVlan.get i).isLt
        omega
  have h7 : decide (2 ≤ (s.cfgCtrl.extractLsb' 1 2).toNat) = true ↔ ¬ s.cfgCtrl.toNat / 2 % 4 < 2 := by
    rw [decide_eq_true_iff, field_toNat]
    omega
  have h8 : (s.cfgCtrl.extractLsb' 1 2 == 0#2 && s.cfgCtrl.getLsbD 10 && s.cfgSrcAddr.extractLsb' 32 96 != 0#96) = true ↔
      ¬ (s.cfgCtrl.toNat / 2 % 4 = 0 → s.cfgCtrl.toNat / 2 ^ 10 % 2 = 1 → s.cfgSrcAddr.toNat < 2 ^ 32) := by
    rw [Bool.and_eq_true, Bool.and_eq_true, getLsbD_iff, field_eq_zero, field_ne_zero]
    omega
  have h9 : (s.cfgCtrl.extractLsb' 1 2 == 0#2 && s.cfgCtrl.getLsbD 11 && s.cfgDstAddr.extractLsb' 32 96 != 0#96) = true ↔
      ¬ (s.cfgCtrl.toNat / 2 % 4 = 0 → s.cfgCtrl.toNat / 2 ^ 11 % 2 = 1 → s.cfgDstAddr.toNat < 2 ^ 32) := by
    rw [Bool.and_eq_true, Bool.and_eq_true, getLsbD_iff, field_eq_zero, field_ne_zero]
    omega
  simp only [validate, firstFault, State.optionsOk, State.addressesOk]
  by_cases c1 : s.cfgCtrl.toNat / 8 % 2 = 0 ∧ s.cfgCtrl.toNat < 2 ^ 16
  swap
  · rw [if_pos (h1.2 c1)]; exact .inr (.inl ⟨fun h => c1 ⟨h.1, h.2.1⟩, rfl⟩)
  rw [if_neg (fun h => h1.1 h c1)]
  split
  · rename_i h; exact .inr (.inl ⟨fun hh => h2.1 h hh.2.2.1, rfl⟩)
  rename_i c2; rw [h2, not_not] at c2
  split
  · rename_i h; exact .inr (.inl ⟨fun hh => h3.1 h hh.2.2.2.1, rfl⟩)
  rename_i c3; rw [h3, not_not] at c3
  split
  · rename_i h; exact .inr (.inl ⟨fun hh => h4.1 h hh.2.2.2.2.1, rfl⟩)
  rename_i c4; rw [h4, not_not] at c4
  split
  · rename_i h; exact .inr (.inl ⟨fun hh => h5.1 h hh.2.2.2.2.2.1, rfl⟩)
  rename_i c5; rw [h5, not_not] at c5
  split
  · rename_i h; exact .inr (.inl ⟨fun hh => h6.1 h hh.2.2.2.2.2.2, rfl⟩)
  rename_i c6; rw [h6, not_not] at c6
  have ho : s.cfgCtrl.toNat / 8 % 2 = 0 ∧ s.cfgCtrl.toNat < 2 ^ 16 ∧ s.cfgCtrl.toNat / 16 % 16 ≤ s.params.vlanMax ∧
    (1 ≤ s.cfgMtu.toNat ∧ s.cfgMtu.toNat < 2 ^ 16) ∧
    (s.cfgCtrl.toNat / 2 ^ 8 % 2 = 1 → s.cfgSrcMac.toNat < 2 ^ 48) ∧
    (s.cfgCtrl.toNat / 2 ^ 9 % 2 = 1 → s.cfgDstMac.toNat < 2 ^ 48) ∧
    (∀ i : Fin 15, i.val < s.cfgCtrl.toNat / 16 % 16 → (s.cfgVlan.get i).toNat < 2 ^ 16) := ⟨c1.1, c1.2, c2, c3, c4, c5, c6⟩
  split
  · rename_i h; exact .inr (.inr ⟨ho, fun hh => h7.1 h hh.1, rfl⟩)
  rename_i c7; rw [h7, not_not] at c7
  split
  · rename_i h; exact .inr (.inr ⟨ho, fun hh => h8.1 h hh.2.1, rfl⟩)
  rename_i c8; rw [h8, not_not] at c8
  split
  · rename_i h; exact .inr (.inr ⟨ho, fun hh => h9.1 h hh.2.2, rfl⟩)
  rename_i c9; rw [h9, not_not] at c9
  exact .inl ⟨ho, ⟨c7, c8, c9⟩, rfl⟩

end Sys2Proof.Laws
end

