-- ==== Sys2Proof/Tests/Slice0.lean ====
section
/-! SUPPORT. Tests. Expected values come from the spec: R81, R89 and 95_test_vectors.md (the vector is named at each test).
The second part shows, for every obligation with hypotheses, a concrete state and operands that meet them. -/

namespace Sys2Proof.Tests

-- One theorem at a time: `decide +kernel` waits for the kernel, and each waiting theorem would hold a thread of its own.
set_option Elab.async false

open Sys2Proof Sys2Proof.Machine

/-! ### Helpers -/

/-- Bytes from their values. -/
def bytes (l : List Nat) : List Byte := l.map (BitVec.ofNat 8)

/-- The next state a command answers; the reset state where it answers none. -/
def after (r : Host.Outcome State Fault Refusal) : State :=
  match r with
  | .next t => t
  | _ => State.reset

/-- The host's writes of a payload from index 0, and of its length (R87's `WRBUF`). -/
def withPayload (l : List Nat) (s : State) : State :=
  { (bytes l).zipIdx.foldl (fun u e => u.storePbuf e.2 e.1) s with plen := BitVec.ofNat 32 l.length }

/-- Program P1's configuration, after its SESSION_INIT (95_test_vectors.md section 3, P1). -/
def p1 : State := { State.reset with
  cfgTsSec := 1000#32, cfgTsUsec := 0#32, clkUs := 1000000000#64
  cfgCtrl := 0x0000FF00#32, cfgSrcMac := 0x020000000001#64, cfgDstMac := 0x020000000002#64
  cfgSrcAddr := 0x0A000001#128, cfgDstAddr := 0x0A000002#128, cfgPorts := 0x0050C000#32
  cfgSrcSeq := 1000#32, cfgDstSeq := 0xFFFFFFFF#32 }

/-- The context of P1 with the given sequence numbers, transport and state. -/
def p1Context (transport : Transport) (cli srv : Word) (l : LState) : Context :=
  { Context.zero with
    transport := transport, mtu := 1500#16, lstate := l
    client := ⟨0x020000000001#48, 0x0A000001#128, 49152#16, cli⟩
    server := ⟨0x020000000002#48, 0x0A000002#128, 80#16, srv⟩ }

/-- P1 with its context 0 open: `open1 .tcp 1001 0` is the state after its CREATE but for the output stream and `GEN[4]`. -/
def open1 (transport : Transport) (cli srv : Word) : State :=
  p1.setCtx 0 (p1Context transport cli srv .established)

/-- Program P3's context 1, open, with the given sequence numbers. -/
def p3Context (cli srv : Word) : Context :=
  { Context.zero with
    ipver := .v6, mtu := 1500#16, vlanCnt := 2#4, lstate := .established
    vlan := (Context.zero.vlan.set 0 0x0064#16).set 1 0x2005#16
    client := ⟨0xAA#48, 0x20010DB8000000000000000000000001#128, 40000#16, cli⟩
    server := ⟨0xBB#48, 0x20010DB8000000000000000000000002#128, 443#16, srv⟩ }

/-! ### Well-formedness: the one check, and an ill-formed term it refuses -/

theorem test_wf_context_below_nctx : (Instr.create 3).wf .default = true := by decide
theorem test_ill_formed_context_is_refused : (Instr.create 4).wf .default = false := by decide
theorem test_ill_formed_build_is_refused :
    (Instr.build 1 .client .none).wf { Params.default with nctx := 1 } = false := by decide

/-! ### Decoding: words written out from the fields of R81 (R89, vectors D-1 to D-14) -/

theorem test_decode_session_init : decode .default 0x00000001#32 = .ok .sessionInit := by decide
theorem test_decode_seed : decode .default 0b0000_0000_0000_0000_0101_0000_0000_0010#32 = .ok (.seed 5) := by decide
theorem test_decode_draw : decode .default 0b0000_0000_0000_0000_0100_0000_0000_0011#32 = .ok (.draw 4) := by decide
theorem test_decode_insert_delay : decode .default 0x00000004#32 = .ok .insertDelay := by decide
theorem test_decode_render : decode .default 0x00000005#32 = .ok .render := by decide
theorem test_decode_create : decode .default 0b0000_0000_0000_0000_0000_0001_0001_0000#32 = .ok (.create 1) := by decide
theorem test_decode_emit_client : decode .default 0x00000011#32 = .ok (.emitClient 0) := by decide
theorem test_decode_emit_server :
    decode .default 0b0000_0000_0000_0000_0000_0011_0001_0010#32 = .ok (.emitServer 3) := by decide
theorem test_decode_close : decode .default 0x00000113#32 = .ok (.close 1) := by decide
theorem test_decode_reset : decode .default 0b0000_0000_0000_0000_0000_0010_0001_0100#32 = .ok (.reset 2) := by decide
theorem test_decode_build :
    decode .default 0b0000_0000_0001_1111_0000_0011_0001_0101#32 = .ok (.build 3 .server ⟨true, true, true, true⟩) := by
  decide
theorem test_decode_build_one_flag_each :
    decode .default 0x00010015#32 = .ok (.build 0 .client .SYN) ∧
    decode .default 0x00020015#32 = .ok (.build 0 .client .SYN_ACK) ∧
    decode .default 0x00040015#32 = .ok (.build 0 .client .FIN) ∧
    decode .default 0x00080015#32 = .ok (.build 0 .client .RST) ∧
    decode .default 0x00100015#32 = .ok (.build 0 .server .none) := by decide
/-- D-2, D-3, D-4, D-5, D-7, D-8, D-9, D-10, D-12, D-13, D-14. -/
theorem test_decode_faults :
    decode .default 0x00000000#32 = .error .badOpcode ∧ decode .default 0x00000006#32 = .error .badOpcode ∧
    decode .default 0x00000016#32 = .error .badOpcode ∧ decode .default 0x00000101#32 = .error .badCommand ∧
    decode .default 0x00008002#32 = .error .badCommand ∧ decode .default 0x00000410#32 = .error .badCtx ∧
    decode .default 0x00000F13#32 = .error .badCtx ∧ decode .default 0x00010011#32 = .error .badCommand ∧
    decode .default 0x00200015#32 = .error .badCommand ∧ decode .default 0x00200416#32 = .error .badOpcode ∧
    decode .default 0x00010410#32 = .error .badCommand := by decide
/-- D-8's STATUS. -/
theorem test_decode_fault_status : (after (issue 0x00000410#32 State.reset)).status = 0x00100105#32 := by decide
theorem test_encode_build : encode (.build 2 .server .RST) = 0x00180215#32 := by decide
theorem test_table_word : decodeTableWord 32 0x00000312 = some (.emitServer 3) := by decide
theorem test_fetch_word : (after (step (State.reset.withFetchWord 32 0x00000005))).status = 0x00050000#32 := by decide

/-! ### The encoders, the checksum engine, the generator and the builder (U-B*, U-C*, U-G*, FB-*) -/

/-- U-B1, U-B3, U-B5, U-B7. -/
theorem test_byte_order :
    be16 0x86DD#16 = bytes [0x86, 0xdd] ∧ le32 0xA1B2C3D4#32 = bytes [0xd4, 0xc3, 0xb2, 0xa1] ∧
    beN 0x020000000001#48 6 = bytes [0x02, 0, 0, 0, 0, 0x01] ∧ be16dec (bytes [0xc0, 0x00]) = 49152 := by decide
/-- U-C1 to U-C6. -/
theorem test_checksum_corners :
    cks [] 0 = 0xFFFF#16 ∧ cks [] 0x1FFFE = 0x0000#16 ∧ cks (bytes [0x01]) 0 = 0xFEFF#16 ∧
    osum (bytes [0x00, 0x01, 0xf2, 0x03, 0xf4, 0xf5, 0xf6, 0xf7]) 0 = 0xDDF2 ∧
    cks (bytes [0xff, 0xff]) 0 = 0x0000#16 ∧ osum (bytes [0xff, 0xff, 0xff, 0xff]) 0 = 0xFFFF := by decide +kernel
/-- U-C7. -/
theorem test_checksum_header :
    cks (bytes [0x45, 0, 0, 0x28, 0x75, 0x4d, 0, 0, 0x40, 0x06, 0, 0, 0x0a, 0, 0, 0x01, 0x0a, 0, 0, 0x02]) 0
      = 0xF180#16 := by decide +kernel
/-- U-G5, U-G6 and R111's 128-bit form, from U-G1 and U-G2. -/
theorem test_fields_of_a_draw :
    (fieldDraw 2 16 State.reset).1 = 0xC4A9#16 ∧ (fieldDraw 0 48 State.reset).1 = 0x14057B7EF767#48 ∧
    (fieldDraw 0 128 State.reset).1 = 0x14057B7EF767814F1A08EE1184BA6D32#128 := by decide +kernel
/-- FB-S6 and FB-S10. -/
theorem test_segments :
    segments 42 50 (bytes [0, 1, 2, 3, 4, 5, 6, 7, 8, 9, 10, 11, 12, 13, 14, 15, 16])
      = .ok [bytes [0, 1, 2, 3, 4, 5, 6, 7], bytes [8, 9, 10, 11, 12, 13, 14, 15], bytes [16]] ∧
    segments 54 53 [] = .error .segImpossible := by decide +kernel
/-- FB-Q1, FB-Q2, FB-Q4. -/
theorem test_sequence_advance :
    seqAfter 0xFFFFFFFF#32 .SYN_ACK 0 = 0#32 ∧ seqAfter 0xFFFFFFFE#32 .none 3 = 1#32 ∧
    seqAfter 1000#32 ⟨true, true, true, false⟩ 5 = 1006#32 := by decide
/-- 42_frame_builder.md's record framing vector: the clock 1700000000999995 advanced by 10. -/
theorem test_record_header_carry :
    (recordHeader (1700000000999995#64 + 10#64) 54).take 8 = bytes [0x01, 0xf1, 0x53, 0x65, 0x05, 0, 0, 0] := by
  decide +kernel
/-- FB-F2, record 1: UDP over IPv6 with one tag, empty payload, client to server. -/
theorem test_frame_udp_ipv6 :
    frameBytes .default { Context.zero with
        transport := .udp, ipver := .v6, mtu := 1500#16, vlanCnt := 1#4, vlan := Context.zero.vlan.set 0 5#16
        client := ⟨0x0A#48, 0xFE800000000000000000000000000001#128, 1000#16, 0#32⟩
        server := ⟨0x0B#48, 0xFE800000000000000000000000000002#128, 2000#16, 0#32⟩ } .client .none 0#16 []
      = bytes [0, 0, 0, 0, 0, 0x0b, 0, 0, 0, 0, 0, 0x0a, 0x81, 0, 0, 0x05, 0x86, 0xdd, 0x60, 0, 0, 0, 0, 0x08, 0x11, 0x40,
        0xfe, 0x80, 0, 0, 0, 0, 0, 0, 0, 0, 0, 0, 0, 0, 0, 0x01, 0xfe, 0x80, 0, 0, 0, 0, 0, 0, 0, 0, 0, 0, 0, 0, 0, 0x02,
        0x03, 0xe8, 0x07, 0xd0, 0, 0x08, 0, 0] := by decide +kernel
/-- FB-F3: TCP over IPv6 with two tags and an odd payload. -/
theorem test_frame_tcp_ipv6 :
    frameBytes .default (p3Context 0x80000000#32 1#32) .client .none 0#16 (bytes [0x61, 0x62, 0x63])
      = bytes [0, 0, 0, 0, 0, 0xbb, 0, 0, 0, 0, 0, 0xaa, 0x81, 0, 0, 0x64, 0x91, 0, 0x20, 0x05, 0x86, 0xdd, 0x60, 0, 0, 0,
        0, 0x17, 0x06, 0x40, 0x20, 0x01, 0x0d, 0xb8, 0, 0, 0, 0, 0, 0, 0, 0, 0, 0, 0, 0x01, 0x20, 0x01, 0x0d, 0xb8, 0, 0,
        0, 0, 0, 0, 0, 0, 0, 0, 0, 0x02, 0x9c, 0x40, 0x01, 0xbb, 0x80, 0, 0, 0, 0, 0, 0, 0x01, 0x50, 0x10, 0xff, 0xff,
        0x71, 0xfd, 0, 0, 0x61, 0x62, 0x63] := by decide +kernel

/-! ### The commands, one step each -/

/-- S-2. -/
theorem test_session_init :
    (after (exec .sessionInit { State.reset with cfgTsSec := 1000#32 })).clkUs = 1000000000#64 := by decide
/-- S-3. -/
theorem test_session_init_bad_timestamp :
    (after (exec .sessionInit { State.reset with cfgTsUsec := 1000000#32 })).status = 0x00010101#32 := by decide
/-- R234 and R196: SEED takes effect at once. -/
theorem test_seed :
    (after (exec (.seed 3) { State.reset with arg := 0x1234#64 })).gen.get 3 = 0x1234#64 ∧
    (after (exec (.seed 3) { State.reset with arg := 0x1234#64 })).seed.get 2 = 2#64 := by decide
/-- S-5. -/
theorem test_draw : (after (exec (.draw 2) State.reset)).result = 0xC4A963D990927FA9#64 := by decide
/-- S-9. -/
theorem test_insert_delay_wraps :
    (after (exec .insertDelay { State.reset with clkUs := 0xFFFFFFFFFFFFFFFF#64, arg := 2#64 })).clkUs = 1#64 := by decide
/-- S-10. -/
theorem test_render : (after (exec .render State.reset)).reply = .container (bytes [0xd4, 0xc3, 0xb2, 0xa1, 0x02, 0, 0x04, 0,
    0, 0, 0, 0, 0, 0, 0, 0, 0xff, 0xff, 0, 0, 0x01, 0, 0, 0]) := by decide
/-- C-1: P1's record 1, header and frame (FB-F1). -/
theorem test_create_first_record :
    (after (exec (.create 0) p1)).out.take 70 = bytes [0xe8, 0x03, 0, 0, 0x10, 0x27, 0, 0, 0x36, 0, 0, 0, 0x36, 0, 0, 0,
      0x02, 0, 0, 0, 0, 0x02, 0x02, 0, 0, 0, 0, 0x01, 0x08, 0, 0x45, 0, 0, 0x28, 0x75, 0x4d, 0, 0, 0x40, 0x06, 0xf1, 0x80,
      0x0a, 0, 0, 0x01, 0x0a, 0, 0, 0x02, 0xc0, 0, 0, 0x50, 0, 0, 0x03, 0xe8, 0, 0, 0, 0, 0x50, 0x02, 0xff, 0xff, 0xd7,
      0xa7, 0, 0] := by decide +kernel
/-- X-3: an overflow on the second handshake record keeps nothing. -/
theorem test_create_overflow :
    after (exec (.create 0) { p1 with params := { Params.default with outMax := some 100 } })
      = { p1 with params := { Params.default with outMax := some 100 }, status := 0x00100109#32 } := by
  decide +kernel
/-- P1's record 4, checksums included, with P1's fourth identification. -/
theorem test_emit_client :
    (after (exec (.emitClient 0) { withPayload [0x48, 0x69] (open1 .tcp 1001#32 0#32) with
        gen := State.reset.gen.set 4 (streamAfter .default 4#64 3) })).out.drop 16
      = bytes [0x02, 0, 0, 0, 0, 0x02, 0x02, 0, 0, 0, 0, 0x01, 0x08, 0, 0x45, 0, 0, 0x2a, 0x53, 0xeb, 0, 0, 0x40, 0x06,
        0x12, 0xe1, 0x0a, 0, 0, 0x01, 0x0a, 0, 0, 0x02, 0xc0, 0, 0, 0x50, 0, 0, 0x03, 0xe9, 0, 0, 0, 0, 0x50, 0x10, 0xff,
        0xff, 0x8f, 0x2d, 0, 0, 0x48, 0x69] := by decide +kernel
/-- FB-F4: P1's record 5. -/
theorem test_emit_server :
    (after (exec (.emitServer 0) { withPayload [0x42, 0x79, 0x65] (open1 .tcp 1003#32 0#32) with
        gen := State.reset.gen.set 4 (streamAfter .default 4#64 4) })).out.drop 16
      = bytes [0x02, 0, 0, 0, 0, 0x01, 0x02, 0, 0, 0, 0, 0x02, 0x08, 0, 0x45, 0, 0, 0x2b, 0x07, 0xe9, 0, 0, 0x40, 0x06,
        0x5e, 0xe2, 0x0a, 0, 0, 0x02, 0x0a, 0, 0, 0x01, 0, 0x50, 0xc0, 0, 0, 0, 0, 0, 0, 0, 0x03, 0xeb, 0x50, 0x10, 0xff,
        0xff, 0x30, 0x1a, 0, 0, 0x42, 0x79, 0x65] := by decide +kernel
/-- P1's CLOSE: three records, the sequence numbers it leaves, and the context's state. -/
theorem test_close_tcp :
    let t := after (exec (.close 0) (open1 .tcp 1003#32 3#32))
    t.recCount = 3#64 ∧ t.out.length = 210 ∧ t.ctx 0 = p1Context .tcp 1004#32 4#32 .closed := by decide +kernel
/-- C-20. -/
theorem test_close_udp :
    let t := after (exec (.close 0) (open1 .udp 0#32 0#32))
    t.out = [] ∧ t.clkUs = 1000000000#64 ∧ (t.ctx 0).lstate = .closed := by decide +kernel
/-- P3's record 5. -/
theorem test_reset_tcp :
    ((after (exec (.reset 1) (State.reset.setCtx 1 (p3Context 0x80000003#32 1#32)))).out.drop 16).drop 62
      = bytes [0x9c, 0x40, 0x01, 0xbb, 0x80, 0, 0, 0x03, 0, 0, 0, 0x01, 0x50, 0x14, 0xff, 0xff, 0x36, 0x5c, 0, 0] := by
  decide +kernel
/-- FB-Q5 (program P4): two segments, each with FIN and its own increment. -/
theorem test_build_fin_segments :
    let t := after (exec (.build 0 .client .FIN) (withPayload (List.range 50)
      ((open1 .tcp 0xC7D64416#32 0x062F5316#32).setCtx 0
        { p1Context .tcp 0xC7D64416#32 0x062F5316#32 .established with mtu := 100#16 })))
    t.recCount = 2#64 ∧ (t.ctx 0).client.seq = 0xC7D6444A#32 ∧ t.out.length = 16 + 100 + 16 + 58 := by decide +kernel
/-- P4's record 6: the additive quirk, flag byte 0x04 and acknowledgment 0. -/
theorem test_build_quirk :
    ((after (exec (.build 0 .server ⟨true, true, false, false⟩)
      { open1 .tcp 0xC7D6444A#32 0x062F5316#32 with plen := 0#32 })).out.drop 54).take 10
      = bytes [0x06, 0x2f, 0x53, 0x16, 0, 0, 0, 0, 0x50, 0x04] := by decide +kernel

/-! ### The host's register and buffer accesses -/

/-- R44, R45: an RO register ignores a write, a context block mirrors its context, an unmapped address reads 0. -/
theorem test_register_map :
    Reg.write .clkUs 5#128 p1 = p1 ∧ Reg.read (.ctxPorts 0) (open1 .tcp 0#32 0#32) = 0x0050C000#128 ∧
    Reg.read (.ctxCtrl 1) (State.reset.setCtx 1 (p3Context 0#32 0#32)) = 0x00000222#128 ∧
    regAccess .default 0x01C#12 4 = .unmapped ∧ regAccess .default 0x00A#12 4 = .partialReg := by decide +kernel

/-! ### Witnesses: for each obligation with hypotheses, states and operands that meet them

Each theorem is the hypotheses of one obligation, clause by clause, at concrete values. -/

/-- A command's outcome is the next state `after` reads off it. -/
theorem exec_after (i : Instr) (s : State) : exec i s = .next (after (exec i s)) := by
  have h : ∀ o u r, finish o u r = .next (after (finish o u r)) := by
    intro o u r
    cases r <;> rfl
  cases i <;> first | rfl | exact h _ _ _

/-- Any record fits an unbounded output stream. -/
theorem room_unbounded {s : State} (h : s.params.outMax = none) (n : Nat) : s.room n := by
  intro m hm
  rw [h] at hm
  cases hm

/-- The machine `s` with an output stream of at most `m` bytes. -/
def bounded (m : Nat) (s : State) : State := { s with params := { Params.default with outMax := some m } }

/-- The last context of the default machine, and the first that does not exist. -/
theorem witness_DecodeOfEncodeIsTheCommand :
    (Instr.build 3 .server .RST).wf .default = true ∧ (Instr.build 4 .server .RST).wf .default = false := by decide

theorem witness_EncodeOfDecodeIsTheWord :
    decode .default 0x001F0315#32 = .ok (.build 3 .server ⟨true, true, true, true⟩) := by decide

/-- One word per clause: an unknown opcode, a bit outside the free fields, the context `NCTX`, and the last context with
a command that has none. -/
theorem witness_CommandWordsFaultInDecodeOrder :
    (∀ r ∈ opcodeTable, opcOf r.matchWord ≠ opcOf 0x00000016#32) ∧
    (⟨"BUILD", 0x00000015#32, 0xFFE0F0FF#32⟩ ∈ opcodeTable ∧ opcOf 0x00000015#32 = opcOf 0x00200015#32 ∧
      0x00200015#32 &&& 0xFFE0F0FF#32 ≠ 0x00000015#32) ∧
    (⟨"CREATE", 0x00000010#32, 0xFFFFF0FF#32⟩ ∈ opcodeTable ∧ opcOf 0x00000010#32 = opcOf 0x00000410#32 ∧
      0x00000410#32 &&& 0xFFFFF0FF#32 = 0x00000010#32 ∧ 0xFFFFF0FF#32 &&& 0x00000F00#32 = 0#32 ∧
      State.reset.params.nctx ≤ (ctxOf 0x00000410#32).val) ∧
    (0x00000310#32 &&& 0xFFFFF0FF#32 = 0x00000010#32 ∧ (ctxOf 0x00000310#32).val < State.reset.params.nctx) ∧
    (⟨"RENDER", 0x00000005#32, 0xFFFFFFFF#32⟩ ∈ opcodeTable ∧ 0x00000005#32 &&& 0xFFFFFFFF#32 = 0x00000005#32 ∧
      0xFFFFFFFF#32 &&& 0x00000F00#32 ≠ 0#32) := by decide

theorem witness_StepRunsTheDecodedCommand :
    ({ p1 with moves := [.write 0#12 4 0x310#128] }.moves = .write 0#12 4 0x310#128 :: [] ∧
      decode p1.params ((0x310#128).setWidth 32) = .ok (.create 3)) ∧
    ({ p1 with moves := [.write 0#12 4 0x410#128, .readOut 0] }.moves = .write 0#12 4 0x410#128 :: [.readOut 0] ∧
      decode p1.params ((0x410#128).setWidth 32) = .error .badCtx) ∧
    p1.moves = [] ∧ 32 ≤ 32 := by decide

theorem witness_ResetLeavesTheSpecifiedValues :
    { p1 with moves := [.reset] }.params = .default ∧ { p1 with moves := [.reset] }.moves = .reset :: [] := by
  decide +kernel

/-- The last valid and the first invalid microsecond. -/
theorem witness_SessionInitStartsASession :
    { p1 with cfgTsUsec := 999999#32 }.cfgTsUsec.toNat < 1000000 ∧
    1000000 ≤ { p1 with cfgTsUsec := 1000000#32 }.cfgTsUsec.toNat ∧ State.reset = State.reset := by decide

/-- A BUILD and stream 3; an EMIT_CLIENT and stream 5 with an IPv4 frame; SEED 3 is not SEED 2. -/
theorem witness_StreamsMoveOnlyByTheirOwnDraws :
    exec (.seed 3) p1 = .next (after (exec (.seed 3) p1)) ∧ (Instr.seed 3).mayWriteStream 2 = false ∧
    Instr.seed 3 ≠ .seed 2 := ⟨exec_after _ _, by decide⟩

theorem witness_UnusedStreamsDoNotInfluenceACommand :
    (Instr.create 0).mayWriteStream 5 = false ∧ exec (.create 0) p1 = .next (after (exec (.create 0) p1)) :=
  ⟨by decide, exec_after _ _⟩

theorem witness_StoredChecksumVerifies : (bytes [0x45, 0x00]).length % 2 = 0 := by decide

theorem witness_DeliveredFramesVerify :
    (p1Context .tcp 0#32 0#32 .established).ipver = .v4 ∧ (p1Context .tcp 0#32 0#32 .established).transport = .tcp := by
  decide

/-- The innermost of fifteen tags. -/
theorem witness_LinkHeaderFieldsAsSpecified :
    (14 : Fin 15).val < { p3Context 0#32 0#32 with vlanCnt := 15#4 }.vlanCnt.toNat := by decide

/-- The longest payload of an IPv4 frame under R163's bound. -/
theorem witness_Ipv4HeaderFieldsAsSpecified :
    let x := p1Context .tcp 0#32 0#32 .established
    x.ipver = .v4 ∧ x.overhead + (List.replicate 65481 0#8).length ≤ 65535 := by
  rw [List.length_replicate]
  decide

theorem witness_Ipv6HeaderFieldsAsSpecified :
    let x := p3Context 0#32 0#32
    x.ipver = .v6 ∧ x.overhead + (List.replicate 65453 0#8).length ≤ 65535 := by
  rw [List.length_replicate]
  decide

theorem witness_TcpHeaderFieldsAsSpecified : (p3Context 0#32 0#32).transport = .tcp := by decide

theorem witness_UdpHeaderFieldsAsSpecified :
    let x := p1Context .udp 0#32 0#32 .established
    x.transport = .udp ∧ x.overhead + (List.replicate 65493 0#8).length ≤ 65535 := by
  rw [List.length_replicate]
  decide

/-- The longest frame whose length the header's field holds, and a record that is appended. -/
theorem witness_RecordHeaderFieldsAsSpecified : (List.replicate 4294967295 0#8).length < 2 ^ 32 ∧
    emitRecord [7#8] p1 = .ok { p1 with
      clkUs := p1.clkUs + p1.delayUs, out := recordBytes (p1.clkUs + p1.delayUs) [7#8], recCount := 1#64 } := by
  rw [List.length_replicate]
  exact ⟨by decide, rfl⟩

/-- The smallest chunk, and the first payload that does not fit. -/
theorem witness_SegmentationCutsFullChunksFirst :
    54 < 55 ∧ 55 < 54 + (bytes [1, 2]).length ∧ 54 < 1500 ∧ 1500 < 54 + (List.replicate 1447 0#8).length := by
  rw [List.length_replicate]
  decide

theorem witness_SegmentationCornerCases :
    54 ≤ 54 ∧ (2 ≤ 2 ∧ 54 < 56 ∧ (bytes [1, 2, 3, 4]).length = (56 - 54) * 2) ∧
    (54 < 56 ∧ (bytes [1, 2, 3]).length = 56 - 54 + 1) ∧ (54 ≤ 54 ∧ 54 < 54 + (bytes [1]).length) := by decide

/-- A payload of two bytes on an open IPv4 connection: it fits an MTU of 1500, and one of 55 takes two frames. -/
theorem witness_PayloadCommandsComplete :
    let s := withPayload [0x48, 0x69] (open1 .tcp 1001#32 0#32)
    let u := s.setCtx 0 { s.ctx 0 with mtu := 55#16 }
    ((Instr.emitClient 0).emitsPayload 0 .client .none ∧ (0 : CtxIdx).val < s.params.nctx ∧
      s.plen.toNat ≤ s.params.payloadMax ∧ (s.ctx 0).lstate = .established ∧ carries (s.ctx 0) s.plen.toNat ∧
      s.room (frameCount (s.ctx 0).overhead (s.ctx 0).mtu.toNat s.plen.toNat * (16 + (s.ctx 0).overhead)
        + s.plen.toNat)) ∧
    ((Instr.emitServer 0).emitsPayload 0 .server .none ∧ u.plen.toNat ≤ u.params.payloadMax ∧
      (u.ctx 0).lstate = .established ∧ carries (u.ctx 0) u.plen.toNat ∧
      u.room (frameCount (u.ctx 0).overhead (u.ctx 0).mtu.toNat u.plen.toNat * (16 + (u.ctx 0).overhead)
        + u.plen.toNat)) ∧
    (Instr.build 0 .server .FIN).emitsPayload 0 .server .FIN := by
  refine ⟨⟨.inl ⟨rfl, rfl, rfl⟩, by decide +kernel, by decide +kernel, by decide +kernel, .inl (by decide +kernel),
    room_unbounded rfl _⟩, ⟨.inr (.inl ⟨rfl, rfl, rfl⟩), by decide +kernel, by decide +kernel, .inr (by decide +kernel),
    room_unbounded rfl _⟩, .inr (.inr rfl)⟩

/-- A bounded output stream with exactly the room two frames of one byte each need. -/
theorem witness_EmittedFramesCarryThePayload :
    let s := bounded 142 ((withPayload [0x48, 0x69] (open1 .tcp 1001#32 0#32)).setCtx 0
      { p1Context .tcp 1001#32 0#32 .established with mtu := 55#16 })
    (Instr.emitClient 0).emitsPayload 0 .client .none ∧ (0 : CtxIdx).val < s.params.nctx ∧
      s.plen.toNat ≤ s.params.payloadMax ∧ (s.ctx 0).lstate = .established ∧ carries (s.ctx 0) s.plen.toNat ∧
      s.room (frameCount (s.ctx 0).overhead (s.ctx 0).mtu.toNat s.plen.toNat * (16 + (s.ctx 0).overhead)
        + s.plen.toNat) := by
  refine ⟨.inl ⟨rfl, rfl, rfl⟩, by decide +kernel, by decide +kernel, by decide +kernel, .inr (by decide +kernel), ?_⟩
  intro m hm
  cases hm
  decide +kernel

/-- Three segments of an IPv6 connection, with every flag. -/
theorem witness_EverySegmentRepeatsTheFlags :
    let s := (withPayload [1, 2, 3] State.reset).setCtx 1 { p3Context 1001#32 0#32 with mtu := 83#16 }
    (Instr.build 1 .server ⟨true, true, true, true⟩).emitsPayload 1 .server ⟨true, true, true, true⟩ ∧
      (1 : CtxIdx).val < s.params.nctx ∧ s.plen.toNat ≤ s.params.payloadMax ∧ (s.ctx 1).lstate = .established ∧
      (s.ctx 1).transport = .tcp ∧ carries (s.ctx 1) s.plen.toNat ∧
      s.room (frameCount (s.ctx 1).overhead (s.ctx 1).mtu.toNat s.plen.toNat * (16 + (s.ctx 1).overhead)
        + s.plen.toNat) :=
  ⟨.inr (.inr rfl), by decide +kernel, by decide +kernel, by decide +kernel, by decide +kernel,
    .inr (by decide +kernel), room_unbounded rfl _⟩

/-- An emission of exactly the MTU. -/
theorem witness_OneFrameEmissionInFull :
    let s := (withPayload [0x48, 0x69] (open1 .udp 0#32 0#32)).setCtx 0
      { p1Context .udp 0#32 0#32 .established with mtu := 44#16 }
    (Instr.emitServer 0).emitsPayload 0 .server .none ∧ (0 : CtxIdx).val < s.params.nctx ∧
      s.plen.toNat ≤ s.params.payloadMax ∧ (s.ctx 0).lstate = .established ∧
      (s.ctx 0).overhead + s.plen.toNat ≤ (s.ctx 0).mtu.toNat ∧ s.room (16 + (s.ctx 0).overhead + s.plen.toNat) :=
  ⟨.inr (.inl ⟨rfl, rfl, rfl⟩), by decide +kernel, by decide +kernel, by decide +kernel, by decide +kernel,
    room_unbounded rfl _⟩

/-- P1's configuration opens a TCP connection in a context still in `INIT`, and in one that was closed; with an MTU of
exactly the overhead too. -/
theorem witness_CreateTcpEmitsTheHandshake :
    let s := { p1.setCtx 1 (p1Context .udp 5#32 6#32 .closed) with cfgMtu := 54#32 }
    (0 : CtxIdx).val < s.params.nctx ∧ ((s.ctx 0).lstate = .init ∨ (s.ctx 0).lstate = .closed) ∧
      ((s.ctx 1).lstate = .init ∨ (s.ctx 1).lstate = .closed) ∧ s.optionsOk ∧ s.addressesOk ∧
      s.cfgCtrl.getLsbD 0 = false ∧ (newContext s).1.overhead ≤ (newContext s).1.mtu.toNat ∧
      s.room (3 * (16 + (newContext s).1.overhead)) := by
  refine ⟨by decide +kernel, by decide +kernel, by decide +kernel, ?_, ?_, by decide +kernel, by decide +kernel,
    room_unbounded rfl _⟩
  · unfold State.optionsOk
    decide +kernel
  · unfold State.addressesOk
    decide +kernel

/-- A UDP connection over IPv6 with four tags and nothing given. -/
theorem witness_CreateUdpEmitsNothing :
    let s := { State.reset with cfgCtrl := 0x00000043#32 }
    (3 : CtxIdx).val < s.params.nctx ∧ ((s.ctx 3).lstate = .init ∨ (s.ctx 3).lstate = .closed) ∧ s.optionsOk ∧
      s.addressesOk ∧ s.cfgCtrl.getLsbD 0 = true := by
  refine ⟨by decide +kernel, by decide +kernel, ?_, ?_, by decide +kernel⟩
  · unfold State.optionsOk
    decide +kernel
  · unfold State.addressesOk
    decide +kernel

/-- Both IP versions, all given and none given. -/
theorem witness_NewContextFieldsGivenOrDrawn :
    p1.addressesOk ∧ (newContext p1).1.ipver = .v4 ∧ { State.reset with cfgCtrl := 2#32 }.addressesOk ∧
    (newContext { State.reset with cfgCtrl := 2#32 }).1.ipver = .v6 := by
  refine ⟨?_, by decide +kernel, ?_, by decide +kernel⟩ <;> unfold State.addressesOk <;> decide +kernel

/-- A context in use; five tags where four are possible; an IP version of 2; an MTU one below the overhead. -/
theorem witness_CreateFaultsInOrder :
    let a := open1 .tcp 0#32 0#32
    let b := { p1 with cfgCtrl := 0x0000FF50#32 }
    let d := { p1 with cfgCtrl := 0x0000FF04#32 }
    let e := { p1 with cfgMtu := 53#32 }
    ((0 : CtxIdx).val < a.params.nctx ∧ (a.ctx 0).lstate ≠ .init ∧ (a.ctx 0).lstate ≠ .closed) ∧
    ((b.ctx 0).lstate = .init ∧ ¬ b.optionsOk) ∧
    ((d.ctx 0).lstate = .init ∧ d.optionsOk ∧ ¬ d.addressesOk) ∧
    ((e.ctx 0).lstate = .init ∧ e.optionsOk ∧ e.addressesOk ∧ e.cfgCtrl.getLsbD 0 = false ∧
      (newContext e).1.mtu.toNat < (newContext e).1.overhead) := by
  unfold State.optionsOk State.addressesOk
  exact ⟨by decide +kernel, by decide +kernel, by decide +kernel, by decide +kernel⟩

/-- An MTU of exactly the overhead. -/
theorem witness_CloseTcpEmitsTheTeardown :
    let s := (open1 .tcp 0#32 0#32).setCtx 0 { p1Context .tcp 7#32 9#32 .established with mtu := 54#16 }
    (0 : CtxIdx).val < s.params.nctx ∧ (s.ctx 0).lstate = .established ∧ (s.ctx 0).transport = .tcp ∧
      (s.ctx 0).overhead ≤ (s.ctx 0).mtu.toNat ∧ s.room (3 * (16 + (s.ctx 0).overhead)) :=
  ⟨by decide +kernel, by decide +kernel, by decide +kernel, by decide +kernel, room_unbounded rfl _⟩

theorem witness_ResetTcpEmitsOneRst :
    let s := State.reset.setCtx 3 (p3Context 0xFFFFFFFF#32 1#32)
    (3 : CtxIdx).val < s.params.nctx ∧ (s.ctx 3).lstate = .established ∧ (s.ctx 3).transport = .tcp ∧
      (s.ctx 3).overhead ≤ (s.ctx 3).mtu.toNat ∧ s.room (16 + (s.ctx 3).overhead) :=
  ⟨by decide +kernel, by decide +kernel, by decide +kernel, by decide +kernel, room_unbounded rfl _⟩

theorem witness_UdpCloseAndResetOnlyClose :
    let s := open1 .udp 0#32 0#32
    (0 : CtxIdx).val < s.params.nctx ∧ (s.ctx 0).lstate = .established ∧ (s.ctx 0).transport = .udp := by
  decide +kernel

/-- The invariant holds of a machine with an open connection and bytes in its payload buffer. -/
theorem inv_open : (withPayload [0x48, 0x69] (open1 .tcp 1001#32 0#32)).Inv := by
  refine ⟨by decide +kernel, by decide +kernel, by decide +kernel, ?_, ?_, by decide +kernel, ?_⟩
  · unfold statusOkForm
    decide +kernel
  · unfold Context.Ok
    decide +kernel
  · intro m hm
    cases hm

theorem witness_CloseAndResetOfAnOpenContextComplete :
    let s := withPayload [0x48, 0x69] (open1 .tcp 1001#32 0#32)
    s.Inv ∧ (0 : CtxIdx).val < s.params.nctx ∧ (s.ctx 0).lstate = .established ∧
      s.room (3 * (16 + (s.ctx 0).overhead)) :=
  ⟨inv_open, by decide +kernel, by decide +kernel, room_unbounded rfl _⟩

/-- One state per clause: CREATE, a payload command, CLOSE and RESET that complete, and the cells R121 does not list. -/
theorem witness_LifecycleFollowsTheTable :
    let s := open1 .tcp 1001#32 0#32
    (0 : CtxIdx).val < p1.params.nctx ∧
    (exec (.create 0) p1 = .next (after (exec (.create 0) p1)) ∧
      statusCode (after (exec (.create 0) p1)).status = 0x00#8) ∧
    ((Instr.build 0 .client .RST).emitsPayload 0 .client .RST ∧
      exec (.build 0 .client .RST) s = .next (after (exec (.build 0 .client .RST) s)) ∧
      statusCode (after (exec (.build 0 .client .RST) s)).status = 0x00#8) ∧
    (exec (.close 0) s = .next (after (exec (.close 0) s)) ∧ statusCode (after (exec (.close 0) s)).status = 0x00#8) ∧
    (exec (.reset 0) s = .next (after (exec (.reset 0) s)) ∧ statusCode (after (exec (.reset 0) s)).status = 0x00#8) ∧
    ((s.ctx 0).lstate ≠ .init ∧ (s.ctx 0).lstate ≠ .closed) ∧
    ((p1.ctx 0).lstate ≠ .established ∧ p1.plen.toNat ≤ p1.params.payloadMax ∧
      (Instr.emitClient 0).emitsPayload 0 .client .none) := by
  refine ⟨by decide +kernel, ⟨exec_after _ _, by decide +kernel⟩, ⟨.inr (.inr rfl), exec_after _ _, by decide +kernel⟩,
    ⟨exec_after _ _, by decide +kernel⟩, ⟨exec_after _ _, by decide +kernel⟩, by decide +kernel, by decide +kernel,
    by decide +kernel, .inl ⟨rfl, rfl, rfl⟩⟩

/-- EMIT_CLIENT on a context in `INIT` faults. -/
theorem witness_FaultingCommandWritesOnlyStatus :
    exec (.emitClient 0) p1 = .next (after (exec (.emitClient 0) p1)) ∧
    statusCode (after (exec (.emitClient 0) p1)).status ≠ 0x00#8 := ⟨exec_after _ _, by decide +kernel⟩

/-- A move that issues no command, and the reset input. -/
theorem witness_EveryCommandReportsInStatus :
    let s := { p1 with moves := [.write 0x010#12 8 5#128] }
    let u := { p1 with moves := [.reset] }
    (s.moves = .write 0x010#12 8 5#128 :: [] ∧ step s = .next { p1 with arg := 5#64 } ∧
      (∀ v, HostMove.write 0x010#12 8 5#128 ≠ .write 0#12 4 v) ∧ HostMove.write 0x010#12 8 5#128 ≠ .reset) ∧
    (u.moves = .reset :: [] ∧ step u = .next (hostReset p1) ∧ ∀ v, HostMove.reset ≠ .write 0#12 4 v) := by
  refine ⟨⟨rfl, rfl, ?_, by decide⟩, rfl, rfl, ?_⟩ <;> intro v h <;> cases h

/-- Context `NCTX`; a payload one byte too long; a context in `INIT`; an MTU of the overhead with one byte to send. -/
theorem witness_PayloadCommandFaultPriority :
    let a := { p1 with plen := 65537#32 }
    let b := { p1 with plen := 65536#32 }
    let e := { open1 .tcp 0#32 0#32 with plen := 1#32 }.setCtx 0
      { p1Context .tcp 0#32 0#32 .established with mtu := 54#16 }
    (Instr.emitClient 4).emitsPayload 4 .client .none ∧ p1.params.nctx ≤ (4 : CtxIdx).val ∧
    (Instr.emitClient 3).emitsPayload 3 .client .none ∧
    ((3 : CtxIdx).val < a.params.nctx ∧ a.params.payloadMax < a.plen.toNat) ∧
    ((3 : CtxIdx).val < b.params.nctx ∧ b.plen.toNat ≤ b.params.payloadMax ∧ (b.ctx 3).lstate ≠ .established) ∧
    (Instr.emitServer 0).emitsPayload 0 .server .none ∧
    ((0 : CtxIdx).val < e.params.nctx ∧ e.plen.toNat ≤ e.params.payloadMax ∧ (e.ctx 0).lstate = .established ∧
      (e.ctx 0).mtu.toNat ≤ (e.ctx 0).overhead ∧ (e.ctx 0).mtu.toNat < (e.ctx 0).overhead + e.plen.toNat) :=
  ⟨.inl ⟨rfl, rfl, rfl⟩, by decide, .inl ⟨rfl, rfl, rfl⟩, by decide +kernel, by decide +kernel, .inr (.inl ⟨rfl, rfl, rfl⟩),
    by decide +kernel⟩

/-- An output stream one byte short of two frames. -/
theorem witness_OverflowDiscardsTheWholeEmission :
    let s := bounded 141 ((withPayload [0x48, 0x69] (open1 .tcp 1001#32 0#32)).setCtx 0
      { p1Context .tcp 1001#32 0#32 .established with mtu := 55#16 })
    (Instr.emitClient 0).emitsPayload 0 .client .none ∧ (0 : CtxIdx).val < s.params.nctx ∧
      s.plen.toNat ≤ s.params.payloadMax ∧ (s.ctx 0).lstate = .established ∧ carries (s.ctx 0) s.plen.toNat ∧
      s.params.outMax = some 141 ∧
      141 < s.out.length + frameCount (s.ctx 0).overhead (s.ctx 0).mtu.toNat s.plen.toNat * (16 + (s.ctx 0).overhead)
        + s.plen.toNat :=
  ⟨.inl ⟨rfl, rfl, rfl⟩, by decide +kernel, by decide +kernel, by decide +kernel, .inr (by decide +kernel), rfl,
    by decide +kernel⟩

/-- An output stream one byte short of three frames, and one short of one frame. -/
theorem witness_OverflowUndoesAConnectionCommand :
    let a := bounded 209 p1
    let b := bounded 209 (open1 .tcp 0#32 0#32)
    let d := bounded 69 (open1 .tcp 0#32 0#32)
    (0 : CtxIdx).val < a.params.nctx ∧ a.params.outMax = some 209 ∧ (a.ctx 0).lstate = .init ∧ a.optionsOk ∧
    a.addressesOk ∧ a.cfgCtrl.getLsbD 0 = false ∧ (newContext a).1.overhead ≤ (newContext a).1.mtu.toNat ∧
    209 < a.out.length + 3 * (16 + (newContext a).1.overhead) ∧
    ((b.ctx 0).lstate = .established ∧ (b.ctx 0).transport = .tcp ∧ (b.ctx 0).overhead ≤ (b.ctx 0).mtu.toNat ∧
      209 < b.out.length + 3 * (16 + (b.ctx 0).overhead)) ∧
    (d.params.outMax = some 69 ∧ (d.ctx 0).lstate = .established ∧ 69 < d.out.length + (16 + (d.ctx 0).overhead)) := by
  unfold State.optionsOk State.addressesOk
  decide +kernel

/-- CREATE of a UDP connection, and CLOSE of one, that fault. -/
theorem witness_EachCommandRaisesOnlyItsFaults :
    let s := { open1 .udp 0#32 0#32 with cfgCtrl := 1#32 }
    let u := p1.setCtx 0 (p1Context .udp 0#32 0#32 .closed)
    exec (.create 0) s = .next (after (exec (.create 0) s)) ∧
    statusCode (after (exec (.create 0) s)).status ≠ 0x00#8 ∧ (Instr.create 0).wf s.params = true ∧
    s.cfgCtrl.getLsbD 0 = true ∧
    exec (.close 0) u = .next (after (exec (.close 0) u)) ∧ statusCode (after (exec (.close 0) u)).status ≠ 0x00#8 ∧
    (u.ctx 0).transport = .udp :=
  ⟨exec_after _ _, by decide +kernel, by decide +kernel, by decide +kernel, exec_after _ _, by decide +kernel,
    by decide +kernel⟩

theorem witness_CommandsWriteOnlyTheirRegisters :
    exec (.create 0) p1 = .next (after (exec (.create 0) p1)) ∧ (∀ k, Instr.create 0 ≠ .seed k) ∧
    (∀ k, Instr.create 0 ≠ .draw k) ∧ Instr.create 0 ≠ .sessionInit ∧ Instr.create 0 ≠ .render :=
  ⟨exec_after _ _, by decide⟩

theorem witness_CommandsWriteOnlyTheirContext :
    let s := open1 .tcp 1001#32 0#32
    exec (.emitClient 0) s = .next (after (exec (.emitClient 0) s)) ∧ Instr.emitClient 0 ≠ .sessionInit ∧
    (Instr.emitClient 0).ctx? ≠ some 1 ∧ Instr.emitClient 0 ≠ .create 0 ∧ Instr.emitClient 0 ≠ .close 0 ∧
    Instr.emitClient 0 ≠ .reset 0 := ⟨exec_after _ _, by decide⟩

theorem witness_OutGrowsAndClockFollowsRecords :
    exec (.create 0) p1 = .next (after (exec (.create 0) p1)) ∧ Instr.create 0 ≠ .sessionInit ∧
    Instr.create 0 ≠ .insertDelay := ⟨exec_after _ _, by decide⟩

/-- A step that issues EMIT_CLIENT from a state with the invariant. -/
theorem witness_EveryStepKeepsTheInvariant :
    let s := { withPayload [0x48, 0x69] (open1 .tcp 1001#32 0#32) with moves := [.write 0#12 4 0x11#128] }
    s.Inv ∧ step s = .next (after (step s)) :=
  ⟨inv_open, exec_after (.emitClient 0) (withPayload [0x48, 0x69] (open1 .tcp 1001#32 0#32))⟩

/-- A step that issues EMIT_CLIENT after the three records of a CREATE. -/
theorem witness_EveryStepKeepsTheContainerSplitting :
    let s := { after (exec (.create 0) p1) with moves := [.write 0#12 4 0x11#128] }
    s.containerSplits ∧ s.recCount = 3#64 ∧ step s = .next (after (step s)) :=
  ⟨⟨by decide +kernel, (framesOf ((after (exec (.create 0) p1)).container.drop 24)).getD [], by decide +kernel,
    by decide +kernel, by decide +kernel⟩, by decide +kernel, exec_after (.emitClient 0) (after (exec (.create 0) p1))⟩

theorem witness_RegisterWritesAreReadBackAlone :
    Reg.arg.access = .rw ∧ Reg.ctxVlan 15 14 ≠ .cmd ∧ (Reg.ctxVlan 15 14).access ≠ .rw ∧ Reg.arg ≠ .cmd ∧
    Reg.arg ≠ Reg.ctxVlan 15 14 := by decide

/-- The last register of the default map, whole; half of `ARG`; no byte at all, inside a register and off every one; the
first address past `REC_COUNT`; the last word of the register space; and one byte past it. -/
theorem witness_HostRegisterAccesses :
    let p := Params.default
    (Reg.ctxVlan 3 3 ≠ .cmd ∧ regAccess p 0x9DC#12 4 = .whole (.ctxVlan 3 3)) ∧
    ((0x014#12).toNat + 4 ≤ 0x1000 ∧ (∀ r ∈ mappedRegs p, ¬ (r.addr = (0x014#12).toNat ∧ r.bytes = 4)) ∧
      ∃ r ∈ mappedRegs p, r.overlaps (0x014#12).toNat 4 = true) ∧
    ((0x012#12).toNat + 0 ≤ 0x1000 ∧ (∀ r ∈ mappedRegs p, ¬ (r.addr = (0x012#12).toNat ∧ r.bytes = 0)) ∧
      ∃ r ∈ mappedRegs p, r.overlaps (0x012#12).toNat 0 = true) ∧
    ((0xFFF#12).toNat + 0 ≤ 0x1000 ∧ (∀ r ∈ mappedRegs p, ¬ (r.addr = (0xFFF#12).toNat ∧ r.bytes = 0)) ∧ (0 : Nat) = 0) ∧
    0x1000 < (0xFFD#12).toNat + 4 ∧
    ((0x050#12).toNat + 4 ≤ 0x1000 ∧ (4 : Nat) ≠ 0 ∧ ∀ r ∈ mappedRegs p, r.overlaps (0x050#12).toNat 4 = false) ∧
    ((0xFFC#12).toNat + 4 ≤ 0x1000 ∧ ∀ r ∈ mappedRegs p, r.overlaps (0xFFC#12).toNat 4 = false) := by
  decide +kernel

/-- The queues `HostRegisterAccesses` speaks of. -/
theorem witness_HostRegisterAccesses_moves :
    { p1 with moves := [.write 0x9DC#12 4 1#128] }.moves = .write 0x9DC#12 4 1#128 :: [] ∧
    { p1 with moves := [.read 0x9DC#12 4, .reset] }.moves = .read 0x9DC#12 4 :: [.reset] := by decide

theorem witness_ReadsHaveNoSideEffect :
    let s := { p1 with moves := [.readPbuf 65535, .readOut 0] }
    s.moves = .readPbuf 65535 :: [.readOut 0] ∧ (∃ a, HostMove.readPbuf 65535 = .readPbuf a) ∧
    step s = .next { p1 with moves := [.readOut 0], reply := .byte (p1.pbufByte 65535) } :=
  ⟨rfl, ⟨_, rfl⟩, rfl⟩

/-- The last payload byte, the first that does not exist, and an index of `OUT`. -/
theorem witness_ReadsHaveNoSideEffect_bytes :
    { p1 with moves := [.readPbuf 65535] }.moves = .readPbuf 65535 :: [] ∧ 65535 < p1.params.payloadMax ∧
    { p1 with moves := [.readPbuf 65536] }.moves = .readPbuf 65536 :: [] ∧ p1.params.payloadMax ≤ 65536 ∧
    { p1 with moves := [.readOut 0] }.moves = .readOut 0 :: [] := by decide

/-- The last byte of the payload buffer, and the first that does not exist. -/
theorem witness_PayloadBytesAreReadBack :
    { p1 with moves := [.writePbuf 65535 1#8] }.moves = .writePbuf 65535 1#8 :: [] ∧ 65535 < p1.params.payloadMax ∧
    { p1 with moves := [.writePbuf 65536 1#8] }.moves = .writePbuf 65536 1#8 :: [] ∧ p1.params.payloadMax ≤ 65536 := by
  decide

/-- Two frames of one byte each in an output stream with exactly the room they need. -/
theorem witness_EmittedRecordsInOrder :
    let s := bounded 142 ((withPayload [0x48, 0x69] (open1 .tcp 1001#32 0#32)).setCtx 0
      { p1Context .tcp 1001#32 0#32 .established with mtu := 55#16 })
    (Instr.build 0 .client .FIN).emitsPayload 0 .client .FIN ∧ (0 : CtxIdx).val < s.params.nctx ∧
      s.plen.toNat ≤ s.params.payloadMax ∧ (s.ctx 0).lstate = .established ∧ carries (s.ctx 0) s.plen.toNat ∧
      s.room (frameCount (s.ctx 0).overhead (s.ctx 0).mtu.toNat s.plen.toNat * (16 + (s.ctx 0).overhead)
        + s.plen.toNat) := by
  refine ⟨.inr (.inr rfl), by decide +kernel, by decide +kernel, by decide +kernel, .inr (by decide +kernel), ?_⟩
  intro m hm
  cases hm
  decide +kernel

/-- CREATE in a context still in `INIT`, and CLOSE and RESET of an open one, each with an MTU of exactly the overhead. -/
theorem witness_ConnectionRecordsInOrder :
    let a := { p1 with cfgMtu := 54#32 }
    let b := (open1 .tcp 0#32 0#32).setCtx 0 { p1Context .tcp 7#32 9#32 .established with mtu := 54#16 }
    ((0 : CtxIdx).val < a.params.nctx ∧ ((a.ctx 0).lstate = .init ∨ (a.ctx 0).lstate = .closed) ∧ a.optionsOk ∧
      a.addressesOk ∧ a.cfgCtrl.getLsbD 0 = false ∧ (newContext a).1.overhead ≤ (newContext a).1.mtu.toNat ∧
      a.room (3 * (16 + (newContext a).1.overhead))) ∧
    ((0 : CtxIdx).val < b.params.nctx ∧ (b.ctx 0).lstate = .established ∧ (b.ctx 0).transport = .tcp ∧
      (b.ctx 0).overhead ≤ (b.ctx 0).mtu.toNat ∧ b.room (3 * (16 + (b.ctx 0).overhead)) ∧
      b.room (16 + (b.ctx 0).overhead)) := by
  refine ⟨⟨by decide +kernel, by decide +kernel, ?_, ?_, by decide +kernel, by decide +kernel, room_unbounded rfl _⟩,
    by decide +kernel, by decide +kernel, by decide +kernel, by decide +kernel, room_unbounded rfl _,
    room_unbounded rfl _⟩
  · unfold State.optionsOk
    decide +kernel
  · unfold State.addressesOk
    decide +kernel

end Sys2Proof.Tests
end

/-! What each command can do, said once: `Effect` lists the eight ways a command completes (R90 to R136, R193 to R199),
and `exec_cases` shows that every command ends in one of them or in a fault. -/

namespace Sys2Proof.Proofs

open Sys2Proof Sys2Proof.Machine Sys2Proof.Laws

/-! ### What a connection command leaves unchanged -/

/-- The context `y` is `x` but for the lifecycle state and the two sequence numbers (R29). -/
def KeepsIdentity (x y : Context) : Prop :=
  y = { x with
    lstate := y.lstate
    client := { x.client with seq := y.client.seq }
    server := { x.server with seq := y.server.seq } }

theorem KeepsIdentity.refl (x : Context) : KeepsIdentity x x := rfl

theorem KeepsIdentity.trans {x y z : Context} (hxy : KeepsIdentity x y) (hyz : KeepsIdentity y z) :
    KeepsIdentity x z :=
  Eq.trans hyz (by rw [hxy])

theorem KeepsIdentity.lstate_left {x y : Context} {l : LState} (h : KeepsIdentity { x with lstate := l } y) :
    KeepsIdentity x y := h

theorem KeepsIdentity.lstate_right {x y : Context} (h : KeepsIdentity x y) (l : LState) :
    KeepsIdentity x { y with lstate := l } :=
  h.trans (.refl _)

theorem KeepsIdentity.transport {x y : Context} (h : KeepsIdentity x y) : y.transport = x.transport := by rw [h]

theorem KeepsIdentity.mtu {x y : Context} (h : KeepsIdentity x y) : y.mtu = x.mtu := by rw [h]

theorem KeepsIdentity.overhead {x y : Context} (h : KeepsIdentity x y) : y.overhead = x.overhead := by rw [h]; rfl

/-- A connection command on context `c` takes `s` to `u`: the emission state alone is written, of the contexts only `c`,
`OUT` grows by at least a record header for each record counted, the clock moves with the records, and `OUT` stays
inside `OUT_MAX` (R25, R29, R63, R181). -/
structure Emits (c : CtxIdx) (s u : State) : Prop where
  frame : u = { s with gen := u.gen, ctxs := u.ctxs, clkUs := u.clkUs, out := u.out, recCount := u.recCount }
  ctx_ne : ∀ d, d ≠ c → u.ctx d = s.ctx d
  out_prefix : s.out <+: u.out
  records : ∃ m : Nat, u.recCount = s.recCount + BitVec.ofNat 64 m ∧ s.out.length + 16 * m ≤ u.out.length ∧
    u.clkUs = s.clkUs + BitVec.ofNat 64 m * s.delayUs
  out_le : ∀ m, s.params.outMax = some m → s.out.length ≤ m → u.out.length ≤ m

/-- An emission on context `c`: beyond `Emits`, the context itself keeps all but its sequence numbers, and its MTU
carries an empty frame. -/
structure Sends (c : CtxIdx) (s u : State) : Prop extends Emits c s u where
  identity : KeepsIdentity (s.ctx c) (u.ctx c)
  lstate : (u.ctx c).lstate = (s.ctx c).lstate
  carried : (s.ctx c).overhead ≤ (s.ctx c).mtu.toNat

/-- A CREATE of context `c` that completes (R125 to R129). -/
structure Opens (c : CtxIdx) (s u : State) : Prop extends Emits c s u where
  options : s.optionsOk
  identity : KeepsIdentity (newContext s).1 (u.ctx c)
  lstate : (u.ctx c).lstate = .established
  carried : (newContext s).1.transport = .tcp → (newContext s).1.overhead ≤ (newContext s).1.mtu.toNat

/-- A CLOSE or RESET of context `c` that completes (R133 to R136). -/
structure Closes (c : CtxIdx) (s u : State) : Prop extends Emits c s u where
  established : (s.ctx c).lstate = .established
  identity : KeepsIdentity (s.ctx c) (u.ctx c)
  lstate : (u.ctx c).lstate = .closed

section Emits

variable {c : CtxIdx} {s u v : State}

theorem Emits.params (h : Emits c s u) : u.params = s.params := by rw [h.frame]

theorem Emits.status (h : Emits c s u) : u.status = s.status := by rw [h.frame]

theorem Emits.delayUs (h : Emits c s u) : u.delayUs = s.delayUs := by rw [h.frame]

theorem Emits.pbuf (h : Emits c s u) : u.pbuf = s.pbuf := by rw [h.frame]

theorem Emits.seed (h : Emits c s u) : u.seed = s.seed := by rw [h.frame]

theorem Emits.result (h : Emits c s u) : u.result = s.result := by rw [h.frame]

theorem Emits.reply (h : Emits c s u) : u.reply = s.reply := by rw [h.frame]

theorem Emits.trans (hsu : Emits c s u) (huv : Emits c u v) : Emits c s v where
  frame := huv.frame.trans (by rw [hsu.frame])
  ctx_ne d hd := (huv.ctx_ne d hd).trans (hsu.ctx_ne d hd)
  out_prefix := hsu.out_prefix.trans huv.out_prefix
  records := by
    obtain ⟨m, hrec, hlen, hclk⟩ := hsu.records
    obtain ⟨n, hrec', hlen', hclk'⟩ := huv.records
    refine ⟨m + n, ?_, by omega, ?_⟩
    · rw [hrec', hrec, BitVec.ofNat_add, BitVec.add_assoc]
    · rw [hclk', hclk, hsu.delayUs, BitVec.ofNat_add, BitVec.add_mul, BitVec.add_assoc]
  out_le m hm hs := huv.out_le m (hsu.params ▸ hm) (hsu.out_le m hm hs)

/-- Writing the context and the streams emits nothing. -/
theorem emits_setCtx (c : CtxIdx) (s : State) (x : Context) (g : Vector Dword 8) :
    Emits c s ({ s with gen := g }.setCtx c x) where
  frame := rfl
  ctx_ne _ hd := ctx_setCtx_ne _ x (Ne.symm hd)
  out_prefix := List.prefix_refl _
  records := ⟨0, by simp⟩
  out_le _ _ hs := hs

theorem emits_setLstate (c : CtxIdx) (s : State) (l : LState) : Emits c s (s.setLstate c l) :=
  emits_setCtx c s _ s.gen

theorem setLstate_ctx_lstate (c : CtxIdx) (s : State) (l : LState) : ((s.setLstate c l).ctx c).lstate = l := by
  rw [setLstate_eq, ctx_setCtx_self]

theorem setLstate_identity (c : CtxIdx) (s : State) (l : LState) :
    KeepsIdentity (s.ctx c) ((s.setLstate c l).ctx c) := by
  rw [setLstate_eq, ctx_setCtx_self]
  exact (KeepsIdentity.refl _).lstate_right l

theorem Sends.trans (hsu : Sends c s u) (huv : Sends c u v) : Sends c s v where
  toEmits := hsu.toEmits.trans huv.toEmits
  identity := hsu.identity.trans huv.identity
  lstate := huv.lstate.trans hsu.lstate
  carried := hsu.carried

end Emits

/-! ### The emissions -/

/-- Each frame appends at least its record header (R182). -/
theorem length_afterFrames_out (c : CtxIdx) (dir : Dir) (fl : Flags) (pays : List (List Byte)) (s : State) :
    s.out.length + 16 * pays.length ≤ (afterFrames c dir fl pays s).out.length := by
  induction pays generalizing s with
  | nil => exact Nat.le_refl _
  | cons pay rest ih =>
    have hrest := ih (afterFrame c dir fl pay s)
    rw [length_afterFrame_out] at hrest
    change _ ≤ (afterFrames c dir fl rest (afterFrame c dir fl pay s)).out.length
    rw [List.length_cons]
    omega

theorem afterFrames_identity (c : CtxIdx) (dir : Dir) (fl : Flags) (pays : List (List Byte)) (s : State) :
    KeepsIdentity (s.ctx c) ((afterFrames c dir fl pays s).ctx c) := by
  rw [afterFrames_ctx]
  cases (s.ctx c).transport with
  | udp => rfl
  | tcp => cases dir <;> rfl

theorem afterFrames_lstate (c : CtxIdx) (dir : Dir) (fl : Flags) (pays : List (List Byte)) (s : State) :
    ((afterFrames c dir fl pays s).ctx c).lstate = (s.ctx c).lstate := by
  rw [afterFrames_ctx]
  cases (s.ctx c).transport with
  | udp => rfl
  | tcp => cases dir <;> rfl

/-- The probe passes only where the MTU carries an empty frame (R152, R154). -/
theorem overhead_le_of_segments {oh m : Nat} {data : List Byte} {pays : List (List Byte)}
    (h : segments oh m data = .ok pays) : oh ≤ m := by
  obtain ⟨-, hfit, -, hne⟩ := segments_ok h
  have := hfit _ (List.getElem_mem (show 0 < pays.length by omega))
  omega

theorem emit_sends {c : CtxIdx} {dir : Dir} {fl : Flags} {data : List Byte} {s t : State}
    (h : emit c dir fl data s = .ok t) : Sends c s t := by
  obtain ⟨pays, hseg, rfl⟩ := emit_ok h
  exact {
    frame := by rw [afterFrames_frame]
    ctx_ne := fun d hd => afterFrames_ctx_ne c d hd dir fl pays s
    out_prefix := by rw [afterFrames_records]; exact List.prefix_append ..
    records := ⟨pays.length, afterFrames_recCount .., length_afterFrames_out .., afterFrames_clkUs ..⟩
    out_le := fun m hm hs => emit_out_le h m hm hs
    identity := afterFrames_identity ..
    lstate := afterFrames_lstate ..
    carried := overhead_le_of_segments hseg }

/-- Three emissions in a row, as in the handshake and the close (R128, R133). -/
theorem emit_three_sends {c : CtxIdx} {d₁ d₂ d₃ : Dir} {f₁ f₂ f₃ : Flags} {p₁ p₂ p₃ : List Byte} {s t : State}
    (h : andThen (andThen (emit c d₁ f₁ p₁ s) (emit c d₂ f₂ p₂)) (emit c d₃ f₃ p₃) = .ok t) : Sends c s t := by
  obtain ⟨u₂, h₂, h₃⟩ := andThen_ok.1 h
  obtain ⟨u₁, h₁, h₂⟩ := andThen_ok.1 h₂
  exact ((emit_sends h₁).trans (emit_sends h₂)).trans (emit_sends h₃)

/-! ### The connection commands -/

theorem emitPayload_sends {c : CtxIdx} {dir : Dir} {fl : Flags} {s t : State}
    (h : emitPayload c dir fl s = .ok t) : (s.ctx c).lstate = .established ∧ Sends c s t := by
  unfold emitPayload at h
  split at h
  · cases h
  · split at h
    · cases h
    · next hest => exact ⟨not_not.1 hest, emit_sends h⟩

/-- Loading the new context, with any lifecycle state, is a context write after draws (R125, R126). -/
theorem emits_load (c : CtxIdx) (s : State) (x : Context) : Emits c s ((newContext s).2.setCtx c x) := by
  rw [newContext_state]
  exact emits_setCtx c s x _

theorem openContext_ok {c : CtxIdx} {s t : State} (h : openContext c s = .ok t) :
    Emits c s t ∧ KeepsIdentity (newContext s).1 (t.ctx c) ∧ (t.ctx c).lstate = .established ∧
    ((newContext s).1.transport = .tcp → (newContext s).1.overhead ≤ (newContext s).1.mtu.toNat) := by
  unfold openContext at h
  dsimp only at h
  split at h
  · next hudp =>
    cases h
    refine ⟨(emits_load c s _).trans (emits_setLstate ..), ?_, setLstate_ctx_lstate .., fun htcp => ?_⟩
    · simpa only [ctx_setCtx_self] using setLstate_identity c ((newContext s).2.setCtx c (newContext s).1) .established
    · cases hudp.symm.trans htcp
  · obtain ⟨u, hu, hend⟩ := andThen_ok.1 h
    cases hend
    have hs : Sends c _ u := emit_three_sends hu
    have hid := hs.identity
    have hcar := hs.carried
    simp only [setLstate_eq, ctx_setCtx_self, setCtx_setCtx] at hid hcar
    exact ⟨((emits_load c s _).trans (emits_setLstate ..)).trans (hs.toEmits.trans (emits_setLstate ..)),
      hid.lstate_left.trans (setLstate_identity ..), setLstate_ctx_lstate .., fun _ => hcar⟩

theorem createContext_opens {c : CtxIdx} {s t : State} (h : createContext c s = .ok t) : Opens c s t := by
  unfold createContext at h
  split at h
  · cases h
  · split at h
    · cases h
    · next hval =>
      obtain ⟨hem, hid, hest, hcar⟩ := openContext_ok h
      rcases validate_cases s with ⟨hopt, -, -⟩ | ⟨-, hbad⟩ | ⟨-, -, hbad⟩
      · exact { toEmits := hem, options := hopt, identity := hid, lstate := hest, carried := hcar }
      · cases hval.symm.trans hbad
      · cases hval.symm.trans hbad

/-- Closing a context: without frames (R136), or around the frames of the command (R133, R135). -/
theorem closes_of_setLstate {c : CtxIdx} {s : State} (hest : (s.ctx c).lstate = .established) :
    Closes c s (s.setLstate c .closed) where
  toEmits := emits_setLstate ..
  established := hest
  identity := setLstate_identity ..
  lstate := setLstate_ctx_lstate ..

theorem closes_of_sends {c : CtxIdx} {s u : State} {l : LState} (hest : (s.ctx c).lstate = .established)
    (h : Sends c (s.setLstate c l) u) : Closes c s (u.setLstate c .closed) where
  toEmits := ((emits_setLstate c s l).trans h.toEmits).trans (emits_setLstate ..)
  established := hest
  identity := ((setLstate_identity c s l).trans h.identity).trans (setLstate_identity ..)
  lstate := setLstate_ctx_lstate ..

theorem closeContext_closes {c : CtxIdx} {s t : State} (h : closeContext c s = .ok t) : Closes c s t := by
  unfold closeContext at h
  split at h
  · cases h
  · next hest =>
    rw [not_not] at hest
    split at h
    · cases h
      exact closes_of_setLstate hest
    · obtain ⟨u, hu, hend⟩ := andThen_ok.1 h
      cases hend
      exact closes_of_sends hest (emit_three_sends hu)

theorem resetContext_closes {c : CtxIdx} {s t : State} (h : resetContext c s = .ok t) : Closes c s t := by
  unfold resetContext at h
  split at h
  · cases h
  · next hest =>
    rw [not_not] at hest
    split at h
    · cases h
      exact closes_of_setLstate hest
    · obtain ⟨u, hu, hend⟩ := andThen_ok.1 h
      cases hend
      exact closes_of_sends hest (emit_sends hu)

/-! ### Every command -/

/-- The ways a command `i` issued in `s` completes: `u` is the state before `STATUS` is written. -/
inductive Effect (s : State) : Instr → State → Prop
  | sessionInit : Effect s .sessionInit s.newSession
  | seed (k : StreamIdx) :
      Effect s (.seed k) { s with seed := s.seed.set k.val s.arg k.isLt, gen := s.gen.set k.val s.arg k.isLt }
  | draw (k : StreamIdx) : Effect s (.draw k) { (draw k s).2 with result := (draw k s).1 }
  | insertDelay : Effect s .insertDelay { s with clkUs := s.clkUs + s.arg }
  | render : Effect s .render { s with reply := .container s.container }
  | opens {c : CtxIdx} {u : State} (hc : c.val < s.params.nctx) (h : Opens c s u) : Effect s (.create c) u
  | sends {i : Instr} {c : CtxIdx} {dir : Dir} {fl : Flags} {u : State} (hi : i.emitsPayload c dir fl)
      (hc : c.val < s.params.nctx) (hest : (s.ctx c).lstate = .established) (h : Sends c s u) : Effect s i u
  | closes {i : Instr} {c : CtxIdx} {u : State} (hi : i = .close c ∨ i = .reset c) (hc : c.val < s.params.nctx)
      (h : Closes c s u) : Effect s i u

/-- A payload command completes by its emission (R130, R131, R185). -/
theorem exec_emitsPayload_cases {i : Instr} {c : CtxIdx} {dir : Dir} {fl : Flags} (hi : i.emitsPayload c dir fl)
    {s t : State} (h : exec i s = .next t) :
    (∃ u, Effect s i u ∧ t = u.complete i.opc) ∨ ∃ e, t = s.raise i.opc e := by
  rw [exec_emitsPayload hi] at h
  rcases finish_cases h with ⟨u, hu, rfl⟩ | ⟨e, -, rfl⟩
  · obtain ⟨hc, hu⟩ := withCtx_ok.1 hu
    obtain ⟨hest, hs⟩ := emitPayload_sends hu
    exact .inl ⟨u, .sends hi hc hest hs, rfl⟩
  · exact .inr ⟨e, rfl⟩

/-- Everything a command can do: complete with one of the effects, or raise a fault (R213). -/
theorem exec_cases {i : Instr} {s t : State} (h : exec i s = .next t) :
    (∃ u, Effect s i u ∧ t = u.complete i.opc) ∨ ∃ e, t = s.raise i.opc e := by
  cases i with
  | sessionInit =>
    rcases finish_cases h with ⟨u, hu, rfl⟩ | ⟨e, -, rfl⟩
    · split at hu
      · cases hu
      · cases hu
        exact .inl ⟨_, .sessionInit, rfl⟩
    · exact .inr ⟨e, rfl⟩
  | seed k => cases h; exact .inl ⟨_, .seed k, rfl⟩
  | draw k => cases h; exact .inl ⟨_, .draw k, rfl⟩
  | insertDelay => cases h; exact .inl ⟨_, .insertDelay, rfl⟩
  | render => cases h; exact .inl ⟨_, .render, rfl⟩
  | create c =>
    rcases finish_cases h with ⟨u, hu, rfl⟩ | ⟨e, -, rfl⟩
    · obtain ⟨hc, hu⟩ := withCtx_ok.1 hu
      exact .inl ⟨u, .opens hc (createContext_opens hu), rfl⟩
    · exact .inr ⟨e, rfl⟩
  | emitClient c => exact exec_emitsPayload_cases (.inl ⟨rfl, rfl, rfl⟩) h
  | emitServer c => exact exec_emitsPayload_cases (.inr (.inl ⟨rfl, rfl, rfl⟩)) h
  | build c dir fl => exact exec_emitsPayload_cases (.inr (.inr rfl)) h
  | close c =>
    rcases finish_cases h with ⟨u, hu, rfl⟩ | ⟨e, -, rfl⟩
    · obtain ⟨hc, hu⟩ := withCtx_ok.1 hu
      exact .inl ⟨u, .closes (.inl rfl) hc (closeContext_closes hu), rfl⟩
    · exact .inr ⟨e, rfl⟩
  | reset c =>
    rcases finish_cases h with ⟨u, hu, rfl⟩ | ⟨e, -, rfl⟩
    · obtain ⟨hc, hu⟩ := withCtx_ok.1 hu
      exact .inl ⟨u, .closes (.inr rfl) hc (resetContext_closes hu), rfl⟩
    · exact .inr ⟨e, rfl⟩

/-- Every command answers a next state (R213, R214). -/
theorem exec_next (i : Instr) (s : State) : ∃ t, exec i s = .next t := by
  cases i with
  | seed _ | draw _ | insertDelay | render => exact ⟨_, rfl⟩
  | _ => exact finish_next ..

section NewSession

variable (s : State)

theorem newSession_params : s.newSession.params = s.params := by rw [State.newSession]
theorem newSession_status : s.newSession.status = s.status := by rw [State.newSession]
theorem newSession_pbuf : s.newSession.pbuf = s.pbuf := by rw [State.newSession]
theorem newSession_seed : s.newSession.seed = s.seed := by rw [State.newSession]
theorem newSession_result : s.newSession.result = s.result := by rw [State.newSession]
theorem newSession_reply : s.newSession.reply = s.reply := by rw [State.newSession]
theorem newSession_out : s.newSession.out = [] := by rw [State.newSession]
theorem newSession_ctx (c : CtxIdx) : s.newSession.ctx c = .zero := by
  rw [State.newSession]
  exact vector_get_replicate ..

end NewSession

/-- No command's effect writes STATUS; `finish` does (R36). -/
theorem Effect.status {s u : State} {i : Instr} (h : Effect s i u) : u.status = s.status := by
  cases h with
  | sessionInit => exact newSession_status s
  | seed | draw | insertDelay | render => rfl
  | opens _ h | sends _ _ _ h | closes _ _ h => exact h.status

end Sys2Proof.Proofs

/-! The invariant of the machine (O50): it is kept by every command's effect, by the end of a command, and by every other
host move. -/

namespace Sys2Proof.Proofs

open Sys2Proof Sys2Proof.Machine Sys2Proof.Laws

/-! ### Contexts -/

/-- The part of `Context.Ok` that is about what a context keeps from its CREATE: tags and IPv4 addresses in range. -/
def FieldsOk (p : Params) (x : Context) : Prop :=
  x.vlanCnt.toNat ≤ p.vlanMax ∧
  (∀ i : Fin 15, x.vlanCnt.toNat ≤ i.val → x.vlan.get i = 0#16) ∧
  (x.ipver = .v4 → x.client.addr.toNat < 2 ^ 32 ∧ x.server.addr.toNat < 2 ^ 32)

theorem FieldsOk.of_identity {p : Params} {x y : Context} (h : FieldsOk p x) (hid : KeepsIdentity x y) :
    FieldsOk p y := by
  rw [hid]
  exact h

theorem fieldsOk_of_ok {p : Params} {x : Context} (h : x.Ok p) : FieldsOk p x := by
  obtain ⟨hcnt, htags, -, -, haddr, -⟩ := h
  exact ⟨hcnt, htags, haddr⟩

/-- A context past its CREATE is as it may be where its fields are, and an open TCP connection's MTU carries a frame. -/
theorem ok_of_fieldsOk {p : Params} {x : Context} (h : FieldsOk p x)
    (hl : x.lstate = .established ∨ x.lstate = .closed)
    (hmtu : x.lstate = .established → x.transport = .tcp → x.overhead ≤ x.mtu.toNat) : x.Ok p := by
  obtain ⟨hcnt, htags, haddr⟩ := h
  have hinit : x.lstate ≠ .init := by rcases hl with hl | hl <;> simp [hl]
  exact ⟨hcnt, htags, .inr hl, fun hi => absurd hi hinit, haddr, hmtu⟩

theorem ok_zero (p : Params) : Context.zero.Ok p :=
  ⟨Nat.zero_le _, fun i _ => vector_get_replicate _ i, .inl rfl, fun _ => rfl, fun _ => by decide, fun h => by cases h⟩

theorem copyTags_get (cfg : Vector Word 15) (n : Nat) (i : Fin 15) :
    (copyTags cfg n).get i = if i.val < n then (cfg.get i).extractLsb' 0 16 else 0#16 := by
  simp [copyTags, Vector.get_eq_getElem]

/-- An IPv4 address is held zero-extended from 32 bits, given or drawn (R28, R125). -/
theorem resolveAddr_v4_lt (given : Bool) (v : BitVec 128) (s : State) :
    (resolveAddr .v4 given v s).1.toNat < 2 ^ 32 := by
  rw [resolveAddr_v4, BitVec.toNat_setWidth]
  exact Nat.lt_of_le_of_lt (Nat.mod_le _ _) (BitVec.isLt _)

/-- CREATE's checks put the fields of the new context in range (R125, R127). -/
theorem newContext_fieldsOk {s : State} (h : s.optionsOk) : FieldsOk s.params (newContext s).1 := by
  obtain ⟨-, -, htagCount, -⟩ := h
  refine ⟨?_, fun i hi => ?_, fun hv4 => ?_⟩
  · change (s.cfgCtrl.extractLsb' 4 4).toNat ≤ _
    rwa [field_toNat]
  · exact (copyTags_get ..).trans (if_neg (Nat.not_lt.2 hi))
  · change (if s.cfgCtrl.extractLsb' 1 2 == 1#2 then IpVer.v6 else .v4) = .v4 at hv4
    simp only [newContext, hv4]
    exact ⟨resolveAddr_v4_lt .., resolveAddr_v4_lt ..⟩

/-- The context a payload command emits from. -/
theorem Sends.ok {c : CtxIdx} {s u : State} (h : Sends c s u) (hest : (s.ctx c).lstate = .established)
    (hok : (s.ctx c).Ok s.params) : (u.ctx c).Ok s.params :=
  ok_of_fieldsOk ((fieldsOk_of_ok hok).of_identity h.identity) (.inl (h.lstate.trans hest))
    fun _ _ => by rw [h.identity.overhead, h.identity.mtu]; exact h.carried

theorem Opens.ok {c : CtxIdx} {s u : State} (h : Opens c s u) : (u.ctx c).Ok s.params :=
  ok_of_fieldsOk ((newContext_fieldsOk h.options).of_identity h.identity) (.inl h.lstate)
    fun _ htcp => by
      rw [h.identity.overhead, h.identity.mtu]
      exact h.carried (h.identity.transport ▸ htcp)

theorem Closes.ok {c : CtxIdx} {s u : State} (h : Closes c s u) (hok : (s.ctx c).Ok s.params) :
    (u.ctx c).Ok s.params :=
  ok_of_fieldsOk ((fieldsOk_of_ok hok).of_identity h.identity) (.inr h.lstate)
    fun hest => by cases h.lstate.symm.trans hest

/-! ### The state between a command's start and its end -/

/-- The invariant speaks of the parameters, the payload buffer, STATUS, the contexts and `OUT` only. -/
theorem inv_of_unchanged {s t : State} (h : s.Inv) (hparams : t.params = s.params) (hpbuf : t.pbuf = s.pbuf)
    (hstatus : t.status = s.status) (hctxs : t.ctxs = s.ctxs) (hout : t.out = s.out) : t.Inv := by
  have hctx : ∀ c, t.ctx c = s.ctx c := fun c => congrArg (Vector.get · c) hctxs
  unfold State.Inv
  simp only [hparams, hpbuf, hstatus, hctx, hout]
  exact h

theorem Emits.inv {c : CtxIdx} {s u : State} (h : Emits c s u) (hc : c.val < s.params.nctx) (hinv : s.Inv)
    (hok : (u.ctx c).Ok s.params) : u.Inv := by
  obtain ⟨hvalid, hwf, hcells, hstatus, hctx, habsent, hout⟩ := hinv
  unfold State.Inv
  rw [h.params, h.pbuf, h.status]
  refine ⟨hvalid, hwf, hcells, hstatus, fun d => ?_, fun d hd => ?_, fun m hm => h.out_le m hm (hout m hm)⟩
  · by_cases hdc : d = c
    · exact hdc ▸ hok
    · rw [h.ctx_ne d hdc]
      exact hctx d
  · have hdc : d ≠ c := by
      rintro rfl
      exact absurd hc (Nat.not_lt.2 hd)
    rw [h.ctx_ne d hdc]
    exact habsent d hd

theorem newSession_inv {s : State} (h : s.Inv) : s.newSession.Inv := by
  obtain ⟨hvalid, hwf, hcells, hstatus, -, -, -⟩ := h
  unfold State.Inv
  simp only [newSession_params, newSession_pbuf, newSession_status, newSession_ctx, newSession_out]
  exact ⟨hvalid, hwf, hcells, hstatus, fun _ => ok_zero _, fun _ _ => trivial, fun m _ => Nat.zero_le m⟩

theorem Effect.inv {i : Instr} {s u : State} (h : Effect s i u) (hinv : s.Inv) : u.Inv := by
  have ⟨_, _, _, _, hctx, _, _⟩ := hinv
  cases h with
  | sessionInit => exact newSession_inv hinv
  | seed | draw | insertDelay | render => exact inv_of_unchanged hinv rfl rfl rfl rfl rfl
  | opens hc h => exact h.inv hc hinv h.ok
  | sends _ hc hest h => exact h.inv hc hinv (h.ok hest (hctx _))
  | closes _ hc h => exact h.inv hc hinv (h.ok (hctx _))

/-! ### STATUS -/

theorem statusOkForm_statusWord {o c : Byte} {k : Bool} (hc : c.toNat ≤ 9) (hk : c ≠ 0#8 → k = true) :
    statusOkForm (statusWord o k c) := by
  simpa only [statusOkForm, statusLastOpc_statusWord, statusSticky_statusWord, statusCode_statusWord, true_and]
    using And.intro hc hk

theorem statusOkForm_reset : statusOkForm 0#32 := ⟨by decide, by decide, fun hne => absurd rfl hne⟩

theorem inv_setStatus {s : State} (h : s.Inv) {st : Word} (hst : statusOkForm st) :
    { s with status := st }.Inv := by
  obtain ⟨hvalid, hwf, hcells, -, hctx, habsent, hout⟩ := h
  exact ⟨hvalid, hwf, hcells, hst, hctx, habsent, hout⟩

theorem complete_inv {s : State} (h : s.Inv) (o : Byte) : (s.complete o).Inv :=
  inv_setStatus h (statusOkForm_statusWord (by decide) fun hne => absurd rfl hne)

theorem raise_inv {s : State} (h : s.Inv) (o : Byte) (e : FaultCode) : (s.raise o e).Inv :=
  inv_setStatus h (statusOkForm_statusWord (by cases e <;> decide) fun _ => rfl)

theorem exec_inv {i : Instr} {s t : State} (hinv : s.Inv) (h : exec i s = .next t) : t.Inv := by
  rcases exec_cases h with ⟨u, hu, rfl⟩ | ⟨e, rfl⟩
  · exact complete_inv (hu.inv hinv) _
  · exact raise_inv hinv _ _

theorem issue_inv {w : Word} {s t : State} (hinv : s.Inv) (h : issue w s = .next t) : t.Inv := by
  unfold issue at h
  split at h
  · exact exec_inv hinv h
  · cases h
    exact raise_inv hinv _ _

/-! ### The host's moves -/

/-- No register write reaches what the invariant speaks of: the writable registers are operands, seeds and the
configuration (R44). -/
theorem write_inv {s : State} (hinv : s.Inv) (r : Reg) (v : BitVec 128) : (r.write v s).Inv := by
  cases r <;> exact inv_of_unchanged hinv rfl rfl rfl rfl rfl

theorem storePbuf_inv {s : State} (hinv : s.Inv) {a : Nat} (ha : a < s.params.payloadMax) (b : Byte) :
    (s.storePbuf a b).Inv := by
  obtain ⟨hvalid, hwf, hcells, hstatus, hctx, habsent, hout⟩ := hinv
  refine ⟨hvalid, wf_store _ a b hwf, fun cell hcell => ?_, hstatus, hctx, habsent, hout⟩
  rcases mem_store hcell with rfl | hold
  · exact ha
  · exact hcells cell hold

theorem resetWith_inv {p : Params} (hp : p.valid = true) (epoch : Nat) : (State.resetWith p epoch).Inv := by
  have hctx : ∀ c, (State.resetWith p epoch).ctx c = .zero := fun c => vector_get_replicate _ c
  refine ⟨hp, wf_reset p epoch, fun cell hcell => ?_, ?_, fun c => ?_, fun c _ => hctx c, fun m _ => Nat.zero_le m⟩
  · cases hcell
  · exact statusOkForm_reset
  · rw [hctx]
    exact ok_zero _

theorem hostReset_inv {s : State} (hinv : s.Inv) : (hostReset s).Inv := by
  obtain ⟨hvalid, -⟩ := hinv
  exact inv_of_unchanged (resetWith_inv hvalid (s.epoch + 1)) rfl rfl rfl rfl rfl

/-- What a host write can do: issue a command, write another register, or nothing (R62). -/
theorem hostWrite_cases {addr : BitVec 12} {n : Nat} {v : BitVec 128} {s t : State}
    (h : hostWrite addr n v s = .next t) :
    (regAccess s.params addr n = .whole .cmd ∧ issue (v.setWidth 32) s = .next t) ∨ (∃ r : Reg, t = r.write v s) ∨
      t = s := by
  unfold hostWrite at h
  split at h
  · next hcmd => exact .inl ⟨hcmd, h⟩
  · next r _ _ =>
    cases h
    exact .inr (.inl ⟨r, rfl⟩)
  · cases h
    exact .inr (.inr rfl)
  · cases h
  · cases h

theorem hostWrite_inv {addr : BitVec 12} {n : Nat} {v : BitVec 128} {s t : State} (hinv : s.Inv)
    (h : hostWrite addr n v s = .next t) : t.Inv := by
  rcases hostWrite_cases h with ⟨-, hissue⟩ | ⟨r, rfl⟩ | rfl
  · exact issue_inv hinv hissue
  · exact write_inv hinv r v
  · exact hinv

theorem reply_inv {s : State} (hinv : s.Inv) (r : HostReply) : { s with reply := r }.Inv :=
  inv_of_unchanged hinv rfl rfl rfl rfl rfl

/-- A read writes what the host gets back, and nothing else (R62, R70). -/
theorem hostRead_next {addr : BitVec 12} {n : Nat} {s t : State} (h : hostRead addr n s = .next t) :
    t = { s with reply := t.reply } := by
  unfold hostRead at h
  split at h <;> cases h <;> rfl

theorem hostMove_inv {m : HostMove} {s t : State} (hinv : s.Inv) (h : hostMove m s = .next t) : t.Inv := by
  cases m with
  | write addr n v => exact hostWrite_inv hinv h
  | read addr n =>
    rw [hostRead_next h]
    exact reply_inv hinv _
  | writePbuf a b =>
    simp only [hostMove] at h
    split at h
    · next ha =>
      cases h
      exact storePbuf_inv hinv ha b
    · cases h
  | readPbuf a =>
    simp only [hostMove] at h
    split at h
    · cases h
      exact reply_inv hinv _
    · cases h
  | readOut a =>
    cases h
    exact reply_inv hinv _
  | reset =>
    cases h
    exact hostReset_inv hinv

/-- Settles O50: a step is the host's next move, from a state that differs from the given one in the queue alone. -/
theorem everyStepKeepsTheInvariant : Obligations.EveryStepKeepsTheInvariant := by
  intro s t hinv h
  unfold step at h
  split at h
  · cases h
    exact hinv
  · next m rest _ => exact hostMove_inv (inv_of_unchanged (t := { s with moves := rest }) hinv rfl rfl rfl rfl rfl) h

end Sys2Proof.Proofs

/-! What commands report and what they write: STATUS (O42), the registers (O47), the contexts (O48), `OUT` and the clock
(O49). -/

namespace Sys2Proof.Proofs

open Sys2Proof Sys2Proof.Machine Sys2Proof.Laws

/-! ### STATUS -/

theorem extractLsb'_statusWord_reservedLow (o c : Byte) (k : Bool) :
    (statusWord o k c).extractLsb' 9 7 = 0#7 := by
  apply BitVec.eq_of_getLsbD_eq
  intro i hi
  simp only [statusWord, BitVec.getLsbD_extractLsb', BitVec.getLsbD_append]
  simp [hi, show ¬ 9 + i < 8 by omega, show ¬ 9 + i - 8 < 1 by omega, show 9 + i - 8 - 1 < 7 by omega]

theorem extractLsb'_statusWord_reservedHigh (o c : Byte) (k : Bool) :
    (statusWord o k c).extractLsb' 24 8 = 0#8 := by
  apply BitVec.eq_of_getLsbD_eq
  intro i hi
  simp only [statusWord, BitVec.getLsbD_extractLsb', BitVec.getLsbD_append]
  simp [hi, show ¬ 24 + i < 8 by omega, show ¬ 24 + i - 8 < 1 by omega, show ¬ 24 + i - 8 - 1 < 7 by omega,
    show ¬ 24 + i - 8 - 1 - 7 < 8 by omega]

/-- The opcode of the command a word selects is the word's bits [7:0] (R81, R82). -/
theorem opc_of_assemble {w : Word} {i : Instr} (h : assemble w = some i) : i.opc = opcOf w := by
  apply BitVec.eq_of_toNat_eq
  unfold assemble at h
  split at h <;> cases h <;> exact Eq.symm ‹_›

theorem opc_of_decode {p : Params} {w : Word} {i : Instr} (h : decode p w = .ok i) : i.opc = opcOf w := by
  unfold decode at h
  split at h
  · cases h
  · next j hj =>
    split at h
    · cases h
    · split at h
      · cases h
        exact opc_of_assemble hj
      · cases h

/-- The two `STATUS` words a command can leave (R36, R212, R214). -/
theorem exec_status {i : Instr} {s t : State} (h : exec i s = .next t) :
    t.status = statusOk s.status i.opc ∨ ∃ e, t.status = statusFault i.opc e := by
  rcases exec_cases h with ⟨u, hu, rfl⟩ | ⟨e, rfl⟩
  · exact .inl (by rw [complete_status, hu.status])
  · exact .inr ⟨e, rfl⟩

theorem issue_status (w : Word) (s : State) :
    ∃ t, issue w s = .next t ∧ (t.status = statusOk s.status (opcOf w) ∨ ∃ e, t.status = statusFault (opcOf w) e) := by
  unfold issue
  cases hw : decode s.params w with
  | ok i =>
    obtain ⟨t, ht⟩ := exec_next i s
    exact ⟨t, ht, opc_of_decode hw ▸ exec_status ht⟩
  | error e => exact ⟨_, rfl, .inr ⟨e, rfl⟩⟩

/-- `CMD` is reached by a four-byte access at address 0 only (R44). -/
theorem access_of_cmd {p : Params} {addr : BitVec 12} {n : Nat} (h : regAccess p addr n = .whole .cmd) :
    addr = 0#12 ∧ n = 4 := by
  unfold regAccess at h
  dsimp only at h
  split at h
  · cases h
  · split at h
    · next r hr =>
      cases h
      have hmatch := List.find?_some hr
      simp only [Bool.and_eq_true, beq_iff_eq] at hmatch
      obtain ⟨haddr, hbytes⟩ := hmatch
      exact ⟨BitVec.eq_of_toNat_eq haddr.symm, hbytes.symm⟩
    · split at h <;> cases h

theorem write_status (r : Reg) (v : BitVec 128) (s : State) : (r.write v s).status = s.status := by
  cases r <;> rfl

/-- A host write that is not to `CMD` leaves STATUS as it was. -/
theorem hostWrite_status {addr : BitVec 12} {n : Nat} {v : BitVec 128} {s t : State}
    (hcmd : ¬ (addr = 0#12 ∧ n = 4)) (h : hostWrite addr n v s = .next t) : t.status = s.status := by
  rcases hostWrite_cases h with ⟨hacc, -⟩ | ⟨r, rfl⟩ | rfl
  · exact absurd (access_of_cmd hacc) hcmd
  · exact write_status r v s
  · rfl

theorem hostMove_status {m : HostMove} {s t : State} (hcmd : ∀ v, m ≠ .write 0#12 4 v) (hreset : m ≠ .reset)
    (h : hostMove m s = .next t) : t.status = s.status := by
  cases m with
  | write addr n v =>
    refine hostWrite_status (fun hcmdAddr => ?_) h
    obtain ⟨rfl, rfl⟩ := hcmdAddr
    exact hcmd v rfl
  | read addr n => rw [hostRead_next h]
  | writePbuf a b | readPbuf a =>
    simp only [hostMove] at h
    split at h <;> cases h
    rfl
  | readOut a =>
    cases h
    rfl
  | reset => exact absurd rfl hreset

/-- Settles O42: a command ends in `statusOk` or `statusFault` of its opcode, and no other move but the reset input
writes STATUS. -/
theorem everyCommandReportsInStatus : Obligations.EveryCommandReportsInStatus := by
  refine ⟨fun w s => ?_, fun i s => ?_, fun s t m rest hm h hcmd => ?_⟩
  · obtain ⟨t, ht, hst⟩ := issue_status w s
    refine ⟨t, ht, ?_⟩
    rcases hst with hst | ⟨e, hst⟩ <;> rw [hst]
    · exact ⟨statusLastOpc_statusWord .., extractLsb'_statusWord_reservedLow .., extractLsb'_statusWord_reservedHigh ..,
        .inl ⟨statusCode_statusOk .., statusSticky_statusWord ..⟩⟩
    · exact ⟨statusLastOpc_statusWord .., extractLsb'_statusWord_reservedLow .., extractLsb'_statusWord_reservedHigh ..,
        .inr ⟨⟨e, statusCode_statusFault ..⟩, statusSticky_statusWord ..⟩⟩
  · obtain ⟨t, ht⟩ := exec_next i s
    refine ⟨t, ht, ?_⟩
    rcases exec_status ht with hst | ⟨e, hst⟩ <;> rw [hst] <;> exact statusLastOpc_statusWord ..
  · simp only [step, hm] at h
    refine ⟨fun hreset => hostMove_status (s := { s with moves := rest }) hcmd hreset h, ?_⟩
    rintro rfl
    cases h
    rfl

/-! ### Registers -/

/-- What no command writes: everything but STATUS, the emission state, and the registers of one command each. -/
def KeepsHostRegisters (s t : State) : Prop :=
  t = { s with
    status := t.status, clkUs := t.clkUs, out := t.out, recCount := t.recCount, gen := t.gen, ctxs := t.ctxs
    seed := t.seed, result := t.result, delayUs := t.delayUs, reply := t.reply }

theorem Emits.keepsHostRegisters {c : CtxIdx} {s u : State} (h : Emits c s u) : KeepsHostRegisters s u :=
  h.frame.trans (by rw [h.frame])

theorem newSession_keepsHostRegisters (s : State) : KeepsHostRegisters s s.newSession := by
  unfold KeepsHostRegisters
  rw [State.newSession]

theorem Effect.keepsHostRegisters {i : Instr} {s u : State} (h : Effect s i u) : KeepsHostRegisters s u := by
  cases h with
  | sessionInit => exact newSession_keepsHostRegisters s
  | seed | draw | insertDelay | render => rfl
  | opens _ h | sends _ _ _ h | closes _ _ h => exact h.keepsHostRegisters

/-- The registers that one command each writes (R24, R37, R196, R199). -/
theorem Effect.ownRegisters {i : Instr} {s u : State} (h : Effect s i u) :
    ((∀ k, i ≠ .seed k) → u.seed = s.seed) ∧ ((∀ k, i ≠ .draw k) → u.result = s.result) ∧
    (i ≠ .sessionInit → u.delayUs = s.delayUs) ∧ (i ≠ .render → u.reply = s.reply) := by
  cases h with
  | sessionInit =>
    exact ⟨fun _ => newSession_seed s, fun _ => newSession_result s, fun hne => absurd rfl hne,
      fun _ => newSession_reply s⟩
  | seed k => exact ⟨fun hne => absurd rfl (hne k), fun _ => rfl, fun _ => rfl, fun _ => rfl⟩
  | draw k => exact ⟨fun _ => rfl, fun hne => absurd rfl (hne k), fun _ => rfl, fun _ => rfl⟩
  | insertDelay => exact ⟨fun _ => rfl, fun _ => rfl, fun _ => rfl, fun _ => rfl⟩
  | render => exact ⟨fun _ => rfl, fun _ => rfl, fun _ => rfl, fun hne => absurd rfl hne⟩
  | opens _ h | sends _ _ _ h | closes _ _ h =>
    exact ⟨fun _ => h.seed, fun _ => h.result, fun _ => h.delayUs, fun _ => h.reply⟩

/-- Settles O47: a completed command adds only STATUS to what its effect writes, and a fault writes STATUS alone. -/
theorem commandsWriteOnlyTheirRegisters : Obligations.CommandsWriteOnlyTheirRegisters := by
  intro i s t h
  rcases exec_cases h with ⟨u, hu, rfl⟩ | ⟨e, rfl⟩
  · exact ⟨congrArg (State.complete · i.opc) hu.keepsHostRegisters, hu.ownRegisters⟩
  · exact ⟨rfl, fun _ => rfl, fun _ => rfl, fun _ => rfl, fun _ => rfl⟩

/-! ### Contexts -/

theorem ctx?_of_emitsPayload {i : Instr} {c : CtxIdx} {dir : Dir} {fl : Flags} (h : i.emitsPayload c dir fl) :
    i.ctx? = some c := by
  rcases h with ⟨rfl, -, -⟩ | ⟨rfl, -, -⟩ | rfl <;> rfl

theorem ctx?_of_close_or_reset {i : Instr} {c : CtxIdx} (h : i = .close c ∨ i = .reset c) : i.ctx? = some c := by
  rcases h with rfl | rfl <;> rfl

section Contexts

variable {i : Instr} {s u : State} {c : CtxIdx}

/-- No effect but SESSION_INIT's reaches a context that the command does not name (R29). -/
theorem Effect.ctx_of_not_named (h : Effect s i u) (hi : i ≠ .sessionInit) (hc : i.ctx? ≠ some c) :
    u.ctx c = s.ctx c := by
  cases h with
  | sessionInit => exact absurd rfl hi
  | seed | draw | insertDelay | render => rfl
  | opens _ h => exact h.ctx_ne c fun hcd => hc (congrArg some hcd.symm)
  | sends hp _ _ h => exact h.ctx_ne c fun hcd => hc (hcd ▸ ctx?_of_emitsPayload hp)
  | closes hr _ h => exact h.ctx_ne c fun hcd => hc (hcd ▸ ctx?_of_close_or_reset hr)

/-- Of the context it names, a command other than CREATE writes the lifecycle state and the sequence numbers only. -/
theorem Effect.identity_of_named (h : Effect s i u) (hc : i.ctx? = some c) (hcreate : i ≠ .create c) :
    KeepsIdentity (s.ctx c) (u.ctx c) := by
  cases h with
  | sessionInit | seed | draw | insertDelay | render => cases hc
  | opens _ h =>
    cases hc
    exact absurd rfl hcreate
  | sends hp _ _ h =>
    cases (ctx?_of_emitsPayload hp).symm.trans hc
    exact h.identity
  | closes hr _ h =>
    cases (ctx?_of_close_or_reset hr).symm.trans hc
    exact h.identity

/-- Of the commands that name a context, only CREATE, CLOSE and RESET write its lifecycle state. -/
theorem Effect.lstate_of_named (h : Effect s i u) (hc : i.ctx? = some c) (hcreate : i ≠ .create c)
    (hclose : i ≠ .close c) (hreset : i ≠ .reset c) : (u.ctx c).lstate = (s.ctx c).lstate := by
  cases h with
  | sessionInit | seed | draw | insertDelay | render => cases hc
  | opens _ h =>
    cases hc
    exact absurd rfl hcreate
  | sends hp _ _ h =>
    cases (ctx?_of_emitsPayload hp).symm.trans hc
    exact h.lstate
  | closes hr _ h =>
    cases (ctx?_of_close_or_reset hr).symm.trans hc
    exact hr.elim (absurd · hclose) (absurd · hreset)

end Contexts

/-- Settles O48, by whether the command names the context. -/
theorem commandsWriteOnlyTheirContext : Obligations.CommandsWriteOnlyTheirContext := by
  intro i s t h hi
  rcases exec_cases h with ⟨u, hu, rfl⟩ | ⟨e, rfl⟩
  · refine ⟨fun d hd => hu.ctx_of_not_named hi hd, fun c hcreate => ?_⟩
    by_cases hc : i.ctx? = some c
    · exact ⟨hu.identity_of_named hc hcreate, hu.lstate_of_named hc hcreate⟩
    · have hctx : (u.complete i.opc).ctx c = s.ctx c := hu.ctx_of_not_named hi hc
      rw [hctx]
      exact ⟨rfl, fun _ _ => rfl⟩
  · exact ⟨fun _ _ => rfl, fun _ _ => ⟨rfl, fun _ _ => rfl⟩⟩

/-! ### `OUT`, the record count and the clock -/

/-- What a command that counts `m` records does to `OUT`, `REC_COUNT` and the clock (R25, R181, R193). -/
theorem Effect.records {i : Instr} {s u : State} (h : Effect s i u) (hi : i ≠ .sessionInit) :
    s.out <+: u.out ∧
    ∃ m : Nat, u.recCount = s.recCount + BitVec.ofNat 64 m ∧ s.out.length + 16 * m ≤ u.out.length ∧
      (i ≠ .insertDelay → u.clkUs = s.clkUs + BitVec.ofNat 64 m * s.delayUs) := by
  cases h with
  | sessionInit => exact absurd rfl hi
  | seed | draw | insertDelay | render => exact ⟨List.prefix_refl _, 0, by simp⟩
  | opens _ h | sends _ _ _ h | closes _ _ h =>
    obtain ⟨m, hrec, hlen, hclk⟩ := h.records
    exact ⟨h.out_prefix, m, hrec, hlen, fun _ => hclk⟩

/-- Settles O49: a command that faults counts no record. -/
theorem outGrowsAndClockFollowsRecords : Obligations.OutGrowsAndClockFollowsRecords := by
  intro i s t h hi
  rcases exec_cases h with ⟨u, hu, rfl⟩ | ⟨e, rfl⟩
  · exact hu.records hi
  · exact ⟨List.prefix_refl _, 0, by simp⟩

end Sys2Proof.Proofs

/-! The register map: what a register write is read back as (O53), where every register stands (O52), and what every
register reads as (O57). -/

namespace Sys2Proof.Proofs

open Sys2Proof Sys2Proof.Machine Sys2Proof.Laws

/-! ### Writes -/

/-- A value written to a register of `w` bits reads back cut to them, zero-extended (R44, R62). -/
theorem toNat_setWidth_setWidth_128 {w : Nat} (hw : w ≤ 128) (v : BitVec 128) :
    ((v.setWidth w).setWidth 128).toNat = v.toNat % 2 ^ w := by
  rw [BitVec.toNat_setWidth_of_le hw, BitVec.toNat_setWidth]

theorem read_write_self {r : Reg} (h : r.access = .rw) (v : BitVec 128) (s : State) :
    (r.read (r.write v s)).toNat = v.toNat % 2 ^ (8 * r.bytes) := by
  cases r with
  | cfgSrcAddr | cfgDstAddr => exact (Nat.mod_eq_of_lt v.isLt).symm
  | seed k | cfgVlan k =>
    simp only [Reg.read, Reg.write, vector_get_set_self]
    exact toNat_setWidth_setWidth_128 (by decide) v
  | arg | plen | cfgTsSec | cfgTsUsec | cfgDelayUs | cfgCtrl | cfgMtu | cfgPorts | cfgSrcSeq | cfgDstSeq | cfgSrcMac
  | cfgDstMac => exact toNat_setWidth_setWidth_128 (by decide) v
  | _ => cases h

theorem write_of_not_rw {r : Reg} (h : r.access ≠ .rw) (v : BitVec 128) (s : State) : r.write v s = s := by
  cases r with
  | arg | plen | cfgTsSec | cfgTsUsec | cfgDelayUs | seed _ | cfgCtrl | cfgMtu | cfgPorts | cfgSrcSeq | cfgDstSeq
  | cfgSrcMac | cfgDstMac | cfgSrcAddr | cfgDstAddr | cfgVlan _ => exact absurd rfl h
  | _ => rfl

/-- Each writable register has a field, or a slot of a field, of its own, which no other register reads. -/
theorem read_write_ne {q r : Reg} (h : q ≠ r) (v : BitVec 128) (s : State) : q.read (r.write v s) = q.read s := by
  by_cases hrw : r.access = .rw
  · cases r with
    | seed k =>
      cases q with
      | seed j =>
        have hkj : k ≠ j := fun hkj => h (congrArg Reg.seed hkj.symm)
        simp only [Reg.read, Reg.write, vector_get_set_ne _ _ hkj]
      | _ => rfl
    | cfgVlan i =>
      cases q with
      | cfgVlan j =>
        have hij : i ≠ j := fun hij => h (congrArg Reg.cfgVlan hij.symm)
        simp only [Reg.read, Reg.write, vector_get_set_ne _ _ hij]
      | _ => rfl
    | arg | plen | cfgTsSec | cfgTsUsec | cfgDelayUs | cfgCtrl | cfgMtu | cfgPorts | cfgSrcSeq | cfgDstSeq | cfgSrcMac
    | cfgDstMac | cfgSrcAddr | cfgDstAddr => cases q <;> (try contradiction) <;> rfl
    | _ => cases hrw
  · rw [write_of_not_rw hrw]

/-- Settles O53: reading the written register, writing a read-only one, and reading another are one lemma each. -/
theorem registerWritesAreReadBackAlone : Obligations.RegisterWritesAreReadBackAlone :=
  fun s _ v => ⟨fun hrw => read_write_self hrw v s, fun _ hrw => write_of_not_rw hrw v s,
    fun _ _ hq => read_write_ne hq v s⟩

/-! ### The map -/

/-- `mappedRegs` lists exactly the registers the parameters give (R44, R45). -/
theorem mem_mappedRegs_iff (p : Params) (r : Reg) : r ∈ mappedRegs p ↔ r.isMapped p := by
  cases r <;> simp [mappedRegs, sessionRegs, configRegs, ctxRegs, Reg.isMapped]

/-- Settles O52: addresses, widths and kinds by the definitions, the map for all parameters, and the map of the decided
parameters by evaluation. -/
theorem everyMappedRegisterIsReached : Obligations.EveryMappedRegisterIsReached := by
  refine ⟨by decide, fun k => ⟨rfl, rfl⟩, fun i => rfl, fun c => ⟨?_, fun i => rfl⟩, mem_mappedRegs_iff, ?_, ?_, ?_⟩
  · simp [Reg.addr, Reg.bytes, Reg.access, ctxBase]
  · decide +kernel
  · decide +kernel
  · decide +kernel

/-! ### Reads -/

theorem toNat_append {m n : Nat} (a : BitVec m) (b : BitVec n) : (a ++ b).toNat = b.toNat + 2 ^ n * a.toNat := by
  rw [BitVec.toNat_append, ← Nat.shiftLeft_add_eq_or_of_lt b.isLt, Nat.shiftLeft_eq, Nat.mul_comm, Nat.add_comm]

/-- The fields of `CTX_CTRL` at their places (R27, R45). -/
theorem toNat_ctxCtrlWord (x : Context) :
    (ctxCtrlWord x).toNat = (transportBit x.transport).toNat + 2 ^ 1 * (ipverBits x.ipver).toNat
      + 2 ^ 4 * x.vlanCnt.toNat + 2 ^ 8 * (lstateBits x.lstate).toNat := by
  simp only [ctxCtrlWord, toNat_append, BitVec.toNat_ofNat]
  omega

/-- Settles O57: every register reads its value zero-extended, and the packed words of a context block read field by
field; the numbers of `CTX_CTRL` are checked for each transport, IP version and lifecycle state. -/
theorem registersReadAsTheirState : Obligations.RegistersReadAsTheirState := by
  intro s
  simp (disch := decide) only [Reg.read, BitVec.toNat_setWidth_of_le, toNat_append, toNat_ctxCtrlWord, State.outLen,
    BitVec.toNat_ofNat, implies_true, and_true, true_and]
  intro c
  cases (s.ctx c).transport <;> cases (s.ctx c).ipver <;> cases (s.ctx c).lstate <;> rfl

end Sys2Proof.Proofs

/-! The host's accesses of the memory spaces: register accesses (O54), payload bytes (O56), reads (O55), and the bound of
the output stream (O44). -/

namespace Sys2Proof.Proofs

open Sys2Proof Sys2Proof.Machine Sys2Proof.Laws

/-- A step is the host's next move, in the state without it (R20, R72). -/
theorem step_of_moves {s : State} {m : HostMove} {rest : List HostMove} (h : s.moves = m :: rest) :
    step s = hostMove m { s with moves := rest } := by
  simp only [step, h]

/-! ### Overflow of `OUT` -/

/-- An emission whose records together exceed `OUT_MAX` faults (R63). -/
theorem emit_overflow {c : CtxIdx} (dir : Dir) (fl : Flags) {data : List Byte} {s : State} {m : Nat}
    (hcar : carries (s.ctx c) data.length) (hm : s.params.outMax = some m)
    (hover : m < s.out.length
      + (frameCount (s.ctx c).overhead (s.ctx c).mtu.toNat data.length * (16 + (s.ctx c).overhead) + data.length)) :
    emit c dir fl data s = .error .outOverflow := by
  obtain ⟨pays, hseg⟩ := segments_of_carries hcar
  obtain ⟨hflat, -, hcount, hpos⟩ := segments_ok hseg
  simp only [emit, hseg]
  refine emitChunks_overflow c dir fl pays s m (List.ne_nil_of_length_pos hpos) hm ?_
  rwa [recordsLength, hflat, hcount]

/-- Settles O44: past its checks a payload command is its emission, and the emission's fault is raised in the state before
the command. -/
theorem overflowDiscardsTheWholeEmission : Obligations.OverflowDiscardsTheWholeEmission := by
  intro i c dir fl s m hi hc hlen hest hcar hm hover
  have hemit : emit c dir fl s.payload s = .error .outOverflow :=
    emit_overflow dir fl (by rwa [length_payload]) hm (by rwa [length_payload, ← Nat.add_assoc])
  rw [exec_emitsPayload hi, withCtx, if_pos hc, emitPayload_established hlen hest, hemit]
  rfl

/-! ### Register accesses -/

/-- An access that runs past 0xFFF (R60). -/
theorem regAccess_outside {p : Params} {addr : BitVec 12} {n : Nat} (h : 0x1000 < addr.toNat + n) :
    regAccess p addr n = .outside :=
  if_pos h

/-- An access inside the register space that is of no register's whole width at its address (R62). -/
theorem regAccess_of_not_whole {p : Params} {addr : BitVec 12} {n : Nat} (hin : addr.toNat + n ≤ 0x1000)
    (hwhole : ∀ r ∈ mappedRegs p, ¬ (r.addr = addr.toNat ∧ r.bytes = n)) :
    regAccess p addr n =
      if n == 0 || (mappedRegs p).any fun r => r.overlaps addr.toNat n then .partialReg else .unmapped := by
  have hfind : ((mappedRegs p).find? fun r => r.addr == addr.toNat && r.bytes == n) = none := by
    simpa only [List.find?_eq_none, Bool.and_eq_true, beq_iff_eq] using hwhole
  simp only [regAccess, if_neg (Nat.not_lt.2 hin), hfind]

/-- An access that reaches a register in part, or several, or that is of no byte (log entry 6). -/
theorem regAccess_partialReg {p : Params} {addr : BitVec 12} {n : Nat} (hin : addr.toNat + n ≤ 0x1000)
    (hwhole : ∀ r ∈ mappedRegs p, ¬ (r.addr = addr.toNat ∧ r.bytes = n))
    (hreach : (∃ r ∈ mappedRegs p, r.overlaps addr.toNat n = true) ∨ n = 0) :
    regAccess p addr n = .partialReg := by
  rw [regAccess_of_not_whole hin hwhole]
  refine if_pos ?_
  rwa [Bool.or_eq_true, beq_iff_eq, List.any_eq_true, or_comm]

/-- A register that a nonempty access is the whole of is reached by it. -/
theorem overlaps_of_whole {r : Reg} {a n : Nat} (hn : n ≠ 0) (haddr : r.addr = a) (hbytes : r.bytes = n) :
    r.overlaps a n = true := by
  simp only [Reg.overlaps, Bool.and_eq_true, decide_eq_true_eq]
  omega

/-- An access of bytes that belong to no register (R44). -/
theorem regAccess_unmapped {p : Params} {addr : BitVec 12} {n : Nat} (hin : addr.toNat + n ≤ 0x1000) (hn : n ≠ 0)
    (hfree : ∀ r ∈ mappedRegs p, r.overlaps addr.toNat n = false) : regAccess p addr n = .unmapped := by
  have hwhole : ∀ r ∈ mappedRegs p, ¬ (r.addr = addr.toNat ∧ r.bytes = n) := by
    rintro r hr ⟨haddr, hbytes⟩
    exact Bool.false_ne_true ((hfree r hr).symm.trans (overlaps_of_whole hn haddr hbytes))
  rw [regAccess_of_not_whole hin hwhole]
  refine if_neg ?_
  rw [Bool.or_eq_true, beq_iff_eq, List.any_eq_true]
  rintro (hzero | ⟨r, hr, hover⟩)
  · exact hn hzero
  · exact Bool.false_ne_true ((hfree r hr).symm.trans hover)

section Accesses

variable {s : State} {addr : BitVec 12} {n : Nat} {v : BitVec 128}

/-- A write of a whole register other than `CMD` (R62). -/
theorem hostWrite_whole {r : Reg} (hr : r ≠ .cmd) (h : regAccess s.params addr n = .whole r) :
    hostWrite addr n v s = .next (r.write v s) := by
  cases r with
  | cmd => exact absurd rfl hr
  | _ => simp only [hostWrite, h]

theorem hostWrite_unmapped (h : regAccess s.params addr n = .unmapped) :
    hostWrite addr n v s = .next s := by
  simp only [hostWrite, h]

theorem hostWrite_partialReg (h : regAccess s.params addr n = .partialReg) :
    hostWrite addr n v s = .refused (.partialRegisterAccess addr n) := by
  simp only [hostWrite, h]

theorem hostWrite_outside (h : regAccess s.params addr n = .outside) :
    hostWrite addr n v s = .fault (.noSuchRegisterByte addr n) := by
  simp only [hostWrite, h]

theorem hostRead_whole {r : Reg} (h : regAccess s.params addr n = .whole r) :
    hostRead addr n s = .next { s with reply := .register (r.read s) } := by
  simp only [hostRead, h]

theorem hostRead_unmapped (h : regAccess s.params addr n = .unmapped) :
    hostRead addr n s = .next { s with reply := .register 0#128 } := by
  simp only [hostRead, h]

theorem hostRead_partialReg (h : regAccess s.params addr n = .partialReg) :
    hostRead addr n s = .refused (.partialRegisterAccess addr n) := by
  simp only [hostRead, h]

theorem hostRead_outside (h : regAccess s.params addr n = .outside) :
    hostRead addr n s = .fault (.noSuchRegisterByte addr n) := by
  simp only [hostRead, h]

end Accesses

/-- No register reads the host's queue. -/
theorem read_setMoves (r : Reg) (s : State) (rest : List HostMove) : r.read { s with moves := rest } = r.read s := by
  cases r <;> rfl

/-- Settles O54: each clause decides what the access reaches, and the write and the read of it follow. -/
theorem hostRegisterAccesses : Obligations.HostRegisterAccesses := by
  intro s rest addr n v
  refine ⟨fun r hr hacc hm => ?_, fun r hacc hm => ?_, fun hin hwhole hreach => ?_, fun hin hn hfree => ?_,
    fun hout => ?_⟩
  · rw [step_of_moves hm]
    exact hostWrite_whole hr hacc
  · rw [step_of_moves hm, ← read_setMoves r s rest]
    exact hostRead_whole hacc
  · have hacc := regAccess_partialReg hin hwhole hreach
    exact ⟨fun hm => (step_of_moves hm).trans (hostWrite_partialReg hacc),
      fun hm => (step_of_moves hm).trans (hostRead_partialReg hacc)⟩
  · have hacc := regAccess_unmapped hin hn hfree
    exact ⟨fun hm => (step_of_moves hm).trans (hostWrite_unmapped hacc),
      fun hm => (step_of_moves hm).trans (hostRead_unmapped hacc)⟩
  · have hacc := regAccess_outside (p := s.params) hout
    exact ⟨fun hm => (step_of_moves hm).trans (hostWrite_outside hacc),
      fun hm => (step_of_moves hm).trans (hostRead_outside hacc)⟩

/-! ### Payload bytes -/

/-- The payload buffer after a host write: the byte written, and every other as it was (R34, R61). -/
theorem pbufByte_storePbuf (s : State) (a : Nat) (b : Byte) (d : Nat) :
    (s.storePbuf a b).pbufByte d = if d = a then b else s.pbufByte d := by
  simp only [State.pbufByte, storePbuf_pbuf, storePbuf_epoch, lookup_store]
  split <;> rfl

theorem hostMove_writePbuf {s : State} {a : Nat} {b : Byte} (ha : a < s.params.payloadMax) :
    hostMove (.writePbuf a b) s = .next (s.storePbuf a b) :=
  if_pos ha

theorem hostMove_writePbuf_outside {s : State} {a : Nat} {b : Byte} (ha : s.params.payloadMax ≤ a) :
    hostMove (.writePbuf a b) s = .fault (.noSuchPbufByte a) :=
  if_neg (Nat.not_lt.2 ha)

/-- Settles O56: a `PBUF` write is a store, and every reader of the buffer goes through `pbufByte`. -/
theorem payloadBytesAreReadBack : Obligations.PayloadBytesAreReadBack := by
  intro s rest a b hm
  refine ⟨fun ha => ?_, fun ha => (step_of_moves hm).trans (hostMove_writePbuf_outside ha)⟩
  have hbyte : ∀ d, ({ s with moves := rest }.storePbuf a b).pbufByte d = if d = a then b else s.pbufByte d :=
    pbufByte_storePbuf { s with moves := rest } a b
  exact ⟨_, (step_of_moves hm).trans (hostMove_writePbuf ha), (hbyte a).trans (if_pos rfl),
    fun d hd => (hbyte d).trans (if_neg hd), fun i n => List.map_congr_left fun j _ => hbyte (i + j), rfl⟩

/-! ### Reads -/

theorem hostMove_readPbuf {s : State} {a : Nat} (ha : a < s.params.payloadMax) :
    hostMove (.readPbuf a) s = .next { s with reply := .byte (s.pbufByte a) } :=
  if_pos ha

theorem hostMove_readPbuf_outside {s : State} {a : Nat} (ha : s.params.payloadMax ≤ a) :
    hostMove (.readPbuf a) s = .fault (.noSuchPbufByte a) :=
  if_neg (Nat.not_lt.2 ha)

/-- A payload-buffer read writes what the host gets back, and nothing else (R60, R70). -/
theorem hostMove_readPbuf_next {s t : State} {a : Nat} (h : hostMove (.readPbuf a) s = .next t) :
    t = { s with reply := t.reply } := by
  rcases Nat.lt_or_ge a s.params.payloadMax with ha | ha
  · cases (hostMove_readPbuf ha).symm.trans h
    rfl
  · cases (hostMove_readPbuf_outside ha).symm.trans h

/-- An index at or past `OUT_LEN` reads 0 (R64). -/
theorem outByte_eq_ite (s : State) (a : Nat) : s.outByte a = if a < s.out.length then s.out.getD a 0#8 else 0#8 := by
  split
  · rfl
  · next ha => exact List.getD_eq_default _ _ (Nat.not_lt.1 ha)

/-- Settles O55, by the space that is read. -/
theorem readsHaveNoSideEffect : Obligations.ReadsHaveNoSideEffect := by
  refine ⟨fun s t m rest hm hread h => ?_, fun s rest a => ⟨fun hm => ⟨fun ha => ?_, fun ha => ?_⟩, fun hm => ?_⟩⟩
  · rw [step_of_moves hm] at h
    rcases hread with ⟨addr, n, rfl⟩ | ⟨a, rfl⟩ | ⟨a, rfl⟩
    · exact hostRead_next h
    · exact hostMove_readPbuf_next h
    · cases h
      rfl
  · exact (step_of_moves hm).trans (hostMove_readPbuf ha)
  · exact (step_of_moves hm).trans (hostMove_readPbuf_outside ha)
  · rw [step_of_moves hm, ← outByte_eq_ite]
    rfl

end Sys2Proof.Proofs

/-! The encoding (R81 to R89): the encoder and the decoder invert each other (O2, O3), a word faults in the order of R83
(O4), the words of R89 decode and fault as listed (O1), and a step runs the command its word decodes to (O5). -/

namespace Sys2Proof.Proofs

open Sys2Proof Sys2Proof.Machine Sys2Proof.Laws

/-! ### The fields of a packed word (R81) -/

section Fields
variable (dir : Bool) (fl : Flags) (stream : BitVec 3) (ctx : BitVec 4) (opc : Byte)

@[simp] theorem ctxOf_packWord : ctxOf (packWord dir fl stream ctx opc) = ctx.toFin := by
  refine congrArg BitVec.toFin (BitVec.eq_of_getLsbD_eq fun j hj => ?_)
  simp only [packWord, BitVec.getLsbD_extractLsb', BitVec.getLsbD_append]
  simp [hj, show ¬ 8 + j < 8 by omega]

@[simp] theorem streamOf_packWord : streamOf (packWord dir fl stream ctx opc) = stream.toFin := by
  refine congrArg BitVec.toFin (BitVec.eq_of_getLsbD_eq fun j hj => ?_)
  simp only [packWord, BitVec.getLsbD_extractLsb', BitVec.getLsbD_append]
  simp [hj, show ¬ 12 + j < 8 by omega, show ¬ 12 + j - 8 < 4 by omega, show 12 + j - 8 - 4 = j by omega]

@[simp] theorem flagsOf_packWord : flagsOf (packWord dir fl stream ctx opc) = fl := by
  simp only [flagsOf, packWord, BitVec.getLsbD_append]
  simp

@[simp] theorem dirOf_packWord (d : Dir) : dirOf (packWord (d == .server) fl stream ctx opc) = d := by
  simp only [dirOf, packWord, BitVec.getLsbD_append]
  cases d <;> simp

/-- A word cut to its opcode and to a packed mask is the word's fields, each cut to the mask's field, packed again. -/
theorem and_packWord (w : Word) : w &&& packWord dir fl stream ctx 0xFF#8 =
    packWord (w.getLsbD 20 && dir)
      ⟨w.getLsbD 16 && fl.syn, w.getLsbD 17 && fl.synAck, w.getLsbD 18 && fl.fin, w.getLsbD 19 && fl.rst⟩
      (w.extractLsb' 12 3 &&& stream) (w.extractLsb' 8 4 &&& ctx) (opcOf w) := by
  refine BitVec.eq_of_getLsbD_eq fun j hj => ?_
  simp only [packWord, opcOf, BitVec.getLsbD_append, BitVec.getLsbD_extractLsb', BitVec.getLsbD_and]
  interval_cases j <;> simp

end Fields

/-! ### A word cut to its opcode and a command's free fields (R83) -/

theorem dirOf_beq_server (w : Word) : (dirOf w == .server) = w.getLsbD 20 := by
  unfold dirOf
  cases w.getLsbD 20 <;> rfl

theorem and_opcMask (w : Word) : w &&& (0xFF#32 ||| 0#32) = packWord false .none 0#3 0#4 (opcOf w) := by
  rw [show 0xFF#32 ||| 0#32 = packWord false .none 0#3 0#4 0xFF#8 by decide, and_packWord]
  simp only [Flags.none, Bool.and_false, BitVec.and_zero]

theorem and_streamMask (w : Word) :
    w &&& (0xFF#32 ||| 0x7000#32) = packWord false .none (.ofFin (streamOf w)) 0#4 (opcOf w) := by
  rw [show 0xFF#32 ||| 0x7000#32 = packWord false .none (.allOnes 3) 0#4 0xFF#8 by decide, and_packWord]
  simp only [Flags.none, Bool.and_false, BitVec.and_zero, BitVec.and_allOnes, streamOf]

theorem and_ctxMask (w : Word) :
    w &&& (0xFF#32 ||| 0xF00#32) = packWord false .none 0#3 (.ofFin (ctxOf w)) (opcOf w) := by
  rw [show 0xFF#32 ||| 0xF00#32 = packWord false .none 0#3 (.allOnes 4) 0xFF#8 by decide, and_packWord]
  simp only [Flags.none, Bool.and_false, BitVec.and_zero, BitVec.and_allOnes, ctxOf]

theorem and_buildMask (w : Word) : w &&& (0xFF#32 ||| (0xF00#32 ||| 0x1F0000#32)) =
    packWord (dirOf w == .server) (flagsOf w) 0#3 (.ofFin (ctxOf w)) (opcOf w) := by
  have hmask : 0xFF#32 ||| (0xF00#32 ||| 0x1F0000#32)
      = packWord true ⟨true, true, true, true⟩ 0#3 (.allOnes 4) 0xFF#8 := by decide
  rw [hmask, and_packWord, dirOf_beq_server]
  simp only [Bool.and_true, BitVec.and_zero, BitVec.and_allOnes, ctxOf, flagsOf]

/-- Encoding the command a word's opcode selects keeps the opcode and that command's free fields, and clears every other
bit of the word. -/
theorem encode_of_assemble {w : Word} {i : Instr} (h : assemble w = some i) :
    encode i = w &&& (0x000000FF#32 ||| i.freeBits) := by
  have hopc := opc_of_assemble h
  unfold assemble at h
  split at h <;> cases h <;>
    simp only [encode, hopc, Instr.freeBits, and_opcMask, and_streamMask, and_ctxMask, and_buildMask]

/-! ### A command's row of the opcode table (R82) -/

theorem encodeMatches : ∀ i : Instr, EncodeMatches.Statement i
  | .sessionInit => EncodeMatches.sessionInit
  | .seed k => EncodeMatches.seed k
  | .draw k => EncodeMatches.draw k
  | .insertDelay => EncodeMatches.insertDelay
  | .render => EncodeMatches.render
  | .create c => EncodeMatches.create c
  | .emitClient c => EncodeMatches.emitClient c
  | .emitServer c => EncodeMatches.emitServer c
  | .close c => EncodeMatches.close c
  | .reset c => EncodeMatches.reset c
  | .build c dir fl => EncodeMatches.build c dir fl

theorem encode_and_mask (i : Instr) : encode i &&& i.row.mask = i.row.matchWord := (encodeMatches i).left

theorem opcOf_encode (i : Instr) : opcOf (encode i) = i.opc := by
  obtain ⟨-, hopc, -⟩ := encodeMatches i
  exact hopc

theorem row_mem_opcodeTable (i : Instr) : i.row ∈ opcodeTable := by
  obtain ⟨-, -, hmem⟩ := encodeMatches i
  exact hmem

theorem row_mask (i : Instr) : i.row.mask = ~~~i.freeBits := by
  cases i <;> simp only [Instr.row, Instr.freeBits] <;> decide

theorem opcOf_row_matchWord (i : Instr) : opcOf i.row.matchWord = i.opc := by
  cases i <;> rfl

theorem row_matchWord_and_not_opcMask (i : Instr) : i.row.matchWord &&& ~~~0xFF#32 = 0#32 := by
  cases i <;> simp only [Instr.row] <;> decide

/-- A row with the opcode of a word is the row of the command that the word selects. -/
theorem exists_assemble_of_row {w : Word} {r : OpcodeRow} (hr : r ∈ opcodeTable)
    (hopc : opcOf r.matchWord = opcOf w) : ∃ i, assemble w = some i ∧ i.row = r := by
  rw [assemble, ← hopc]
  simp only [opcodeTable, List.mem_cons, List.not_mem_nil, or_false] at hr
  rcases hr with rfl | rfl | rfl | rfl | rfl | rfl | rfl | rfl | rfl | rfl | rfl <;> exact ⟨_, rfl, rfl⟩

theorem assemble_eq_none {w : Word} (h : ∀ r ∈ opcodeTable, opcOf r.matchWord ≠ opcOf w) : assemble w = none := by
  refine Option.eq_none_iff_forall_ne_some.2 fun i hi => h i.row (row_mem_opcodeTable i) ?_
  rw [opcOf_row_matchWord, opc_of_assemble hi]

/-- The context is checked exactly where the row's mask leaves the `CTX` field free (R83). -/
theorem wf_iff_of_assemble {p : Params} {w : Word} {i : Instr} (h : assemble w = some i) :
    i.wf p = true ↔ (i.row.mask &&& 0x00000F00#32 = 0#32 → (ctxOf w).val < p.nctx) := by
  unfold assemble at h
  split at h <;> cases h <;> simp [Instr.wf, Instr.ctx?, Instr.row]

/-! ### Decoding (R83) -/

theorem assemble_encode (i : Instr) : assemble (encode i) = some i := by
  rw [assemble, opcOf_encode]
  cases i <;> simp [Instr.opc, encode]

theorem and_not_eq_zero_iff {n : Nat} (x m : BitVec n) : x &&& ~~~m = 0#n ↔ x &&& m = x := by
  simp only [BitVec.eq_of_getLsbD_eq_iff]
  refine forall₂_congr fun j hj => ?_
  cases hm : m.getLsbD j <;> simp [hj, hm]

/-- Once the opcode is known, a word has no bit outside the free fields exactly where it is the encoding of the command
it selects. -/
theorem decode_of_assemble {p : Params} {w : Word} {i : Instr} (h : assemble w = some i) :
    decode p w = if encode i = w then if i.wf p then .ok i else .error .badCtx else .error .badCommand := by
  simp only [decode, h, ne_eq, and_not_eq_zero_iff, ← encode_of_assemble h, ite_not]

theorem decode_of_assemble_none {p : Params} {w : Word} (h : assemble w = none) : decode p w = .error .badOpcode := by
  simp only [decode, h]

theorem decode_eq_ok_iff {p : Params} {w : Word} {i : Instr} :
    decode p w = .ok i ↔ encode i = w ∧ i.wf p = true := by
  constructor
  · intro h
    cases hj : assemble w with
    | none => cases (decode_of_assemble_none hj).symm.trans h
    | some j =>
      rw [decode_of_assemble hj] at h
      split_ifs at h with hw hwf
      cases h
      exact ⟨hw, hwf⟩
  · rintro ⟨rfl, hwf⟩
    rw [decode_of_assemble (assemble_encode i), if_pos rfl, if_pos hwf]

/-- Matching the row of the command it selects makes a word that command's encoding. -/
theorem and_mask_eq_matchWord_iff {w : Word} {i : Instr} (h : assemble w = some i) :
    w &&& i.row.mask = i.row.matchWord ↔ encode i = w := by
  constructor
  · intro hmatch
    rw [encode_of_assemble h, ← and_not_eq_zero_iff]
    calc w &&& ~~~(0x000000FF#32 ||| i.freeBits)
        = (w &&& i.row.mask) &&& ~~~0x000000FF#32 := by
          rw [BitVec.not_or, BitVec.and_comm (~~~_), ← BitVec.and_assoc, row_mask]
      _ = 0#32 := by rw [hmatch, row_matchWord_and_not_opcMask]
  · rintro rfl
    exact encode_and_mask i

/-- Settles O2: the opcode and the fields of an encoding select the command again, and no other bit is set. -/
theorem decodeOfEncodeIsTheCommand : Obligations.DecodeOfEncodeIsTheCommand := by
  refine fun p i => ⟨fun hwf => decode_eq_ok_iff.2 ⟨rfl, hwf⟩, fun hwf => ?_⟩
  rw [decode_of_assemble (assemble_encode i), if_pos rfl, hwf]
  rfl

/-- Settles O3: a word with no bit outside the free fields is its own cut to them. -/
theorem encodeOfDecodeIsTheWord : Obligations.EncodeOfDecodeIsTheWord :=
  fun _ _ _ => decode_eq_ok_iff.1

/-! ### Issuing a word -/

theorem issue_of_decode_ok {w : Word} {s : State} {i : Instr} (h : decode s.params w = .ok i) :
    issue w s = exec i s := by
  simp only [issue, h]

theorem issue_of_decode_error {w : Word} {s : State} {e : FaultCode} (h : decode s.params w = .error e) :
    issue w s = .next { s with status := statusFault (opcOf w) e } := by
  simp only [issue, h, State.raise]

/-- Settles O4: the word's row is the row of the command its opcode selects, and the decoder's three checks are that the
command exists, that the word is its encoding, and that the command is well-formed. -/
theorem commandWordsFaultInDecodeOrder : Obligations.CommandWordsFaultInDecodeOrder := by
  refine fun w s => ⟨fun hnone => issue_of_decode_error (decode_of_assemble_none (assemble_eq_none hnone)),
    fun r hr hopc => ?_⟩
  obtain ⟨i, hi, rfl⟩ := exists_assemble_of_row hr hopc
  have hdecode := decode_of_assemble (p := s.params) hi
  have hwf := wf_iff_of_assemble (p := s.params) hi
  rw [Ne, and_mask_eq_matchWord_iff hi, ← hwf]
  refine ⟨fun hne => ?_, fun heq hctx hge => ?_, fun heq hok => ?_⟩
  · exact issue_of_decode_error (hdecode.trans (if_neg hne))
  · have hill : ¬ i.wf s.params = true := fun h => Nat.not_lt.2 hge (hwf.1 h hctx)
    exact issue_of_decode_error (by rw [hdecode, if_pos heq, if_neg hill])
  · exact ⟨i, heq, rfl, issue_of_decode_ok (decode_eq_ok_iff.2 ⟨heq, hok⟩)⟩

/-- Settles O1, by evaluation: the words and the parameters are literals. -/
theorem encodingExamplesDecodeAsListed : Obligations.EncodingExamplesDecodeAsListed := by
  unfold Obligations.EncodingExamplesDecodeAsListed
  decide

/-! ### The step -/

/-- `CMD` is the first register of every map (R44), so a write of it issues its word (R33). -/
theorem hostMove_write_cmd (v : BitVec 128) (s : State) : hostMove (.write 0#12 4 v) s = issue (v.setWidth 32) s := rfl

/-- Settles O5: the move is the write of `CMD`, and issuing its word is the decoder's answer. -/
theorem stepRunsTheDecodedCommand : Obligations.StepRunsTheDecodedCommand := by
  refine ⟨fun s rest v i hm h => ?_, fun s rest v e hm h => ?_, fun s hm => ?_, fun s nbits w _ => ?_⟩
  · rw [step_of_moves hm, hostMove_write_cmd]
    exact issue_of_decode_ok h
  · rw [step_of_moves hm, hostMove_write_cmd]
    exact issue_of_decode_error h
  · simp only [step, hm]
  · rw [step_of_moves rfl, hostMove_write_cmd, BitVec.setWidth_ofNat_of_le (by decide)]
    rfl

end Sys2Proof.Proofs

/-! The generator streams (O13, O14): what a command does commutes with writing a stream the command may not use, and so
it leaves that stream as it was (R110, R112). -/

namespace Sys2Proof.Proofs

open Sys2Proof Sys2Proof.Machine Sys2Proof.Laws

/-- `s` with the value `v` in `GEN[k]`. -/
def withGen (s : State) (k : StreamIdx) (v : Dword) : State := { s with gen := s.gen.set k.val v k.isLt }

/-- A draw that does not look at stream `k`, whose value it passes on. -/
def DrawIgnores {α : Type} (k : StreamIdx) (f : State → α × State) : Prop :=
  ∀ s v, f (withGen s k v) = ((f s).1, withGen (f s).2 k v)

/-- A command's part that does not look at stream `k`, whose value it passes on where it completes. -/
def Ignores (k : StreamIdx) (f : State → Except FaultCode State) : Prop :=
  ∀ s v, f (withGen s k v) = (f s).map (withGen · k v)

section Streams

variable {j k : StreamIdx}

theorem withGen_gen_get (s : State) (k : StreamIdx) (v : Dword) : (withGen s k v).gen.get k = v :=
  vector_get_set_self s.gen k v

@[simp] theorem withGen_ctx (s : State) (k : StreamIdx) (v : Dword) (c : CtxIdx) :
    (withGen s k v).ctx c = s.ctx c := rfl

theorem withGen_self (s : State) (k : StreamIdx) : withGen s k (s.gen.get k) = s := by
  simp [withGen, Vector.get_eq_getElem]

/-! ### The draws -/

theorem draw_ignores (h : j ≠ k) : DrawIgnores k (draw j) := by
  intro s v
  have hne : k.val ≠ j.val := fun hv => h (Fin.ext hv.symm)
  have hget : (s.gen.set k.val v k.isLt).get j = s.gen.get j := vector_get_set_ne s.gen v h.symm
  simp only [draw, withGen, hget, Vector.set_comm _ _ hne]

theorem fieldDraw_ignores (h : j ≠ k) (w : Nat) : DrawIgnores k (fieldDraw j w) := by
  intro s v
  unfold fieldDraw
  split <;> simp only [draw_ignores h _ _]

theorem resolve_ignores (h : j ≠ k) (given : Bool) {w : Nat} (x : BitVec w) : DrawIgnores k (resolve given x j) := by
  cases given with
  | true => exact fun _ _ => rfl
  | false => exact fieldDraw_ignores h w

theorem resolveAddr_ignores (h : 1 ≠ k) (ver : IpVer) (given : Bool) (x : BitVec 128) :
    DrawIgnores k (resolveAddr ver given x) := by
  cases ver with
  | v6 => exact resolve_ignores h given x
  | v4 =>
    intro s v
    simp only [resolveAddr, resolve_ignores h _ _ s v]

theorem drawIdent_ignores (h : 4 ≠ k) (x : Context) : DrawIgnores k (drawIdent x) := by
  intro s v
  unfold drawIdent
  cases x.ipver with
  | v4 => exact fieldDraw_ignores h 16 s v
  | v6 => rfl

/-- CREATE resolves the new context's fields on streams 0 to 3 (R126). -/
theorem newContext_ignores (h : 4 < k.val) : DrawIgnores k newContext := by
  have hne (j : StreamIdx) (hj : j.val < 4) : j ≠ k := fun e => by rw [e] at hj; omega
  have h0 := hne 0 (by decide)
  have h1 := hne 1 (by decide)
  have h2 := hne 2 (by decide)
  have h3 := hne 3 (by decide)
  intro s v
  simp only [newContext, resolve_ignores h0 _ _ _ v, resolveAddr_ignores h1 _ _ _ _ v, resolve_ignores h2 _ _ _ v,
    resolve_ignores h3 _ _ _ v]
  rfl

/-! ### The emissions -/

theorem Ignores.andThen {f g : State → Except FaultCode State} (hf : Ignores k f) (hg : Ignores k g) :
    Ignores k (fun s => andThen (f s) g) := by
  intro s v
  simp only [hf s v]
  cases f s with
  | error _ => rfl
  | ok t => exact hg t v

theorem afterFrame_withGen (h : 4 ≠ k) (c : CtxIdx) (dir : Dir) (fl : Flags) (pay : List Byte) (s : State) (v : Dword) :
    afterFrame c dir fl pay (withGen s k v) = withGen (afterFrame c dir fl pay s) k v := by
  have hident := drawIdent_ignores h (s.ctx c) s v
  simp only [afterFrame, frameOf, withGen_ctx, hident]
  rfl

theorem buildFrame_ignores (h : 4 ≠ k) (c : CtxIdx) (dir : Dir) (fl : Flags) (pay : List Byte) :
    Ignores k (buildFrame c dir fl pay) := by
  intro s v
  have hfull (n : Nat) : (withGen s k v).outFull n = s.outFull n := rfl
  rw [buildFrame_eq, buildFrame_eq, withGen_ctx, hfull, afterFrame_withGen h]
  split <;> rfl

theorem emitChunks_ignores (h : 4 ≠ k) (c : CtxIdx) (dir : Dir) (fl : Flags) (pays : List (List Byte)) :
    Ignores k (emitChunks c dir fl pays) := by
  induction pays with
  | nil => exact fun _ _ => rfl
  | cons pay rest ih => exact (buildFrame_ignores h c dir fl pay).andThen ih

theorem emit_ignores (h : 4 ≠ k) {c : CtxIdx} {dir : Dir} {fl : Flags} {data : List Byte} :
    Ignores k (emit c dir fl data) := by
  intro s v
  unfold emit
  rw [withGen_ctx]
  split
  · rfl
  · exact emitChunks_ignores h c dir fl _ s v

theorem handshake_ignores (h : 4 ≠ k) (c : CtxIdx) : Ignores k (handshake c) :=
  ((emit_ignores h).andThen (emit_ignores h)).andThen (emit_ignores h)

theorem closeFrames_ignores (h : 4 ≠ k) (c : CtxIdx) : Ignores k (closeFrames c) :=
  ((emit_ignores h).andThen (emit_ignores h)).andThen (emit_ignores h)

/-! ### The connection commands -/

/-- The lifecycle state around an emission of a command (R125, R133, R135). -/
theorem Ignores.between {f : State → Except FaultCode State} (hf : Ignores k f) (c : CtxIdx) (l l' : LState) :
    Ignores k (fun s => Machine.andThen (f (s.setLstate c l)) fun t => .ok (t.setLstate c l')) :=
  Ignores.andThen (fun s v => hf (s.setLstate c l) v) (fun _ _ => rfl)

/-- A check before a part of a command, where it does not look at the streams. -/
theorem Ignores.guard {f : State → Except FaultCode State} (hf : Ignores k f) {P : State → Prop} [DecidablePred P]
    (hP : ∀ s v, P (withGen s k v) ↔ P s) (e : FaultCode) : Ignores k (fun s => if P s then .error e else f s) := by
  intro s v
  by_cases hs : P s
  · simp only [hs, (hP s v).2 hs, if_true]
    rfl
  · simpa only [hs, mt (hP s v).1 hs, if_false] using hf s v

theorem emitPayload_ignores (h : 4 ≠ k) (c : CtxIdx) (dir : Dir) (fl : Flags) : Ignores k (emitPayload c dir fl) := by
  have hemit : Ignores k (fun s => emit c dir fl s.payload s) := fun s v => emit_ignores h s v
  exact (hemit.guard (P := fun s => (s.ctx c).lstate ≠ .established) (fun _ _ => .rfl) .badState).guard
    (P := fun s => s.payloadTooLong) (fun _ _ => .rfl) .payloadLen

theorem openContext_ignores (h : 4 < k.val) (c : CtxIdx) : Ignores k (openContext c) := by
  intro s v
  have h4 : (4 : StreamIdx) ≠ k := fun e => by rw [← e] at h; exact absurd h (by decide)
  simp only [openContext, newContext_ignores h s v]
  cases (newContext s).1.transport with
  | udp => rfl
  | tcp => exact ((handshake_ignores h4 c).between c .handshaking .established) ((newContext s).2.setCtx c _) v

theorem createContext_ignores (h : 4 < k.val) (c : CtxIdx) : Ignores k (createContext c) := by
  refine Ignores.guard (P := fun s => (s.ctx c).lstate ≠ .init ∧ (s.ctx c).lstate ≠ .closed) (fun s v => ?_)
    (fun _ _ => .rfl) .badState
  have hvalid : validate (withGen s k v) = validate s := rfl
  rw [hvalid, openContext_ignores h c s v]
  cases validate s <;> rfl

theorem closeContext_ignores (h : 4 ≠ k) (c : CtxIdx) : Ignores k (closeContext c) := by
  refine Ignores.guard (P := fun s => (s.ctx c).lstate ≠ .established) (fun s v => ?_) (fun _ _ => .rfl) .badState
  rw [withGen_ctx]
  cases (s.ctx c).transport with
  | udp => rfl
  | tcp => exact ((closeFrames_ignores h c).between c .closing .closed) s v

theorem resetContext_ignores (h : 4 ≠ k) (c : CtxIdx) : Ignores k (resetContext c) := by
  refine Ignores.guard (P := fun s => (s.ctx c).lstate ≠ .established) (fun s v => ?_) (fun _ _ => .rfl) .badState
  rw [withGen_ctx]
  cases (s.ctx c).transport with
  | udp => rfl
  | tcp => exact ((emit_ignores h).between c .reset .closed) s v

/-! ### Every command -/

theorem Ignores.withCtx {f : State → Except FaultCode State} (hf : Ignores k f) (c : CtxIdx) :
    Ignores k (fun s => withCtx c s (f s)) := by
  intro s v
  have hparams : (withGen s k v).params = s.params := rfl
  simp only [Machine.withCtx, hparams, hf s v]
  split <;> rfl

/-- However a command ends, completed or faulted, the stream's value is passed on (R213). -/
theorem Ignores.finish {f : State → Except FaultCode State} (hf : Ignores k f) {o : Byte} {s t : State} (v : Dword)
    (h : finish o s (f s) = .next t) :
    finish o (withGen s k v) (f (withGen s k v)) = .next (withGen t k v) := by
  rw [hf s v]
  rcases finish_cases h with ⟨u, hu, rfl⟩ | ⟨e, he, rfl⟩
  · rw [hu]; rfl
  · rw [he]; rfl

/-- A command does the same, and passes the value on, whatever a stream holds that it may not use (R112). -/
theorem exec_withGen {i : Instr} {s t : State} (hi : i.mayWriteStream k = false) (h : exec i s = .next t) (v : Dword) :
    exec i (withGen s k v) = .next (withGen t k v) := by
  cases i with
  | sessionInit => cases hi
  | seed j =>
    have hne : k.val ≠ j.val := fun e => ne_of_beq_false hi (Fin.ext e.symm)
    cases h
    simp only [exec, execSeed, withGen, finish, State.complete, Vector.set_comm _ _ hne]
  | draw j =>
    cases h
    simp only [exec, execDraw, draw_ignores (ne_of_beq_false hi) s v]
    rfl
  | insertDelay => cases h; rfl
  | render => cases h; rfl
  | create c =>
    have hk : 4 < k.val := by simpa [Instr.mayWriteStream] using hi
    exact ((createContext_ignores hk c).withCtx c).finish v h
  | emitClient c => exact ((emitPayload_ignores (ne_of_beq_false hi).symm c .client .none).withCtx c).finish v h
  | emitServer c => exact ((emitPayload_ignores (ne_of_beq_false hi).symm c .server .none).withCtx c).finish v h
  | close c => exact ((closeContext_ignores (ne_of_beq_false hi).symm c).withCtx c).finish v h
  | reset c => exact ((resetContext_ignores (ne_of_beq_false hi).symm c).withCtx c).finish v h
  | build c dir fl => exact ((emitPayload_ignores (ne_of_beq_false hi).symm c dir fl).withCtx c).finish v h

/-- A stream that a command may not use keeps its value: the command does the same with that value written again. -/
theorem exec_gen_get {i : Instr} {s t : State} (hi : i.mayWriteStream k = false) (h : exec i s = .next t) :
    t.gen.get k = s.gen.get k := by
  have hv := exec_withGen hi h (s.gen.get k)
  rw [withGen_self, h, Host.Outcome.next.injEq] at hv
  calc t.gen.get k = (withGen t k (s.gen.get k)).gen.get k := by rw [← hv]
    _ = s.gen.get k := withGen_gen_get ..

/-- Only SEED of a stream writes its seed (R32). -/
theorem Effect.seed_get {i : Instr} {s u : State} (h : Effect s i u) (hi : i ≠ .seed k) :
    u.seed.get k = s.seed.get k := by
  cases h with
  | sessionInit => rw [newSession_seed]
  | seed j => exact vector_get_set_ne s.seed s.arg fun e => hi (e ▸ rfl)
  | draw | insertDelay | render => rfl
  | opens _ h | sends _ _ _ h | closes _ _ h => rw [h.seed]

end Streams

/-- Settles O14: every part of a command commutes with writing a stream that the command may not use. -/
theorem unusedStreamsDoNotInfluenceACommand : Obligations.UnusedStreamsDoNotInfluenceACommand :=
  fun _ _ _ _ v hi h => exec_withGen hi h v

/-- Settles O13: the streams by the noninterference of O14, the seeds by the command's effect. -/
theorem streamsMoveOnlyByTheirOwnDraws : Obligations.StreamsMoveOnlyByTheirOwnDraws := by
  intro i s t k h
  refine ⟨fun hi => exec_gen_get hi h, fun hi => ?_⟩
  rcases exec_cases h with ⟨u, hu, rfl⟩ | ⟨e, rfl⟩
  · exact hu.seed_get hi
  · rfl

end Sys2Proof.Proofs

/-! The checksums (O15, O16): a checksum stored in the field it was computed without makes its range sum to 0xFFFF (R105),
and the IPv4 and TCP checksums of a frame are stored that way (R160, R175). -/

namespace Sys2Proof.Proofs

open Sys2Proof Sys2Proof.Machine Sys2Proof.Laws

/-- A sum that is a multiple of 65535 and not 0 folds to 0xFFFF (R101). -/
theorem osum_eq_allOnes {b : List Byte} {seed : Nat} (hne : seed + wordSum b ≠ 0)
    (hmod : (seed + wordSum b) % 65535 = 0) : osum b seed = 0xFFFF := by
  have hle := osum_le b seed
  have hfold := osum_mod b seed
  have hzero := osum_eq_zero b seed
  omega

/-- The words around a 16-bit field at an even offset (R103). -/
theorem wordSum_field {pre : List Byte} (h : pre.length % 2 = 0) (v : BitVec 16) (post : List Byte) :
    wordSum (pre ++ be16 v ++ post) = wordSum pre + v.toNat + wordSum post := by
  have heven : (pre ++ be16 v).length % 2 = 0 := by rw [List.length_append, length_be16]; omega
  rw [wordSum_append _ _ heven, wordSum_append _ _ h, wordSum_be16]

/-- Modulo 65535 the stored checksum is the negative of the sum without it (R102, R105). -/
theorem osum_stored_cks {pre : List Byte} (h : pre.length % 2 = 0) (post : List Byte) (seed : Nat) :
    osum (pre ++ be16 (cks (pre ++ be16 0#16 ++ post) seed) ++ post) seed = 0xFFFF := by
  have hck := cks_toNat (pre ++ be16 0#16 ++ post) seed
  have hle := osum_le (pre ++ be16 0#16 ++ post) seed
  have hmod := osum_mod (pre ++ be16 0#16 ++ post) seed
  have hzero := osum_eq_zero (pre ++ be16 0#16 ++ post) seed
  rw [wordSum_field h, BitVec.toNat_ofNat] at hmod hzero
  apply osum_eq_allOnes
  · rw [wordSum_field h]
    omega
  · rw [wordSum_field h]
    omega

/-- Settles O15: the two zero bytes are the field that the checksum is then stored in. -/
theorem storedChecksumVerifies : Obligations.StoredChecksumVerifies :=
  fun _ post seed h => osum_stored_cks h post seed

/-! ### The checksums of a frame -/

section Frame

variable (p : Params) (x : Context) (dir : Dir) (fl : Flags) (ident : BitVec 16) (pay : List Byte)

theorem drop_linkLen_frameBytes : (frameBytes p x dir fl ident pay).drop x.linkLen =
    networkHeader p x dir ident pay.length ++ transportSegment p x dir fl pay := by
  rw [frameBytes, List.append_assoc, List.drop_left' (length_linkHeader x dir)]

/-- The bytes of the network header before its addresses: 12 for IPv4 (R160), 8 for IPv6 (R164). -/
def addressesAt (ver : IpVer) : Nat :=
  match ver with
  | .v4 => 12
  | .v6 => 8

/-- The network header ends with the addresses (R160, R164). -/
theorem drop_networkHeader (n : Nat) :
    (networkHeader p x dir ident n).drop (addressesAt x.ipver) = addressBytes x dir := by
  unfold networkHeader
  cases x.ipver with
  | v4 => exact List.drop_left' rfl
  | v6 => exact List.drop_left' rfl

theorem length_addressBytes_even : (addressBytes x dir).length % 2 = 0 := by
  rw [length_addressBytes]
  cases x.ipver <;> rfl

/-- The IPv4 header's checksum field is at offset 10 (R160). -/
theorem osum_ipv4Header (n : Nat) : osum (ipv4Header p x dir ident n) 0 = 0xFFFF :=
  osum_stored_cks (by simp) (addressBytes x dir) 0

/-- The addresses through the end of the segment, the checksum field 16 bytes into it (R175). -/
theorem osum_tcpSegment :
    osum (addressBytes x dir ++ tcpSegment p x dir fl pay) (6 + (20 + pay.length)) = 0xFFFF := by
  have heven := length_addressBytes_even x dir
  have hsum := osum_stored_cks (pre := addressBytes x dir ++ (be16 (x.sender dir).port ++ be16 (x.receiver dir).port
    ++ be32 (x.sender dir).seq ++ be32 (ackNumber x dir fl) ++ [0x50#8, flagByte fl] ++ be16 p.tcpWindow))
    (by simp; omega) (be16 0#16 ++ pay) (6 + (20 + pay.length))
  simpa only [tcpSegment, tcpChecksum, tcpSegmentWith, List.append_assoc] using hsum

/-- The IPv4 header stands right after the link header (R179). -/
theorem slice_ipv4Header (h : x.ipver = .v4) :
    slice (frameBytes p x dir fl ident pay) x.linkLen (x.linkLen + 20) = ipv4Header p x dir ident pay.length := by
  have hlen : (ipv4Header p x dir ident pay.length).length = 20 := length_ipv4HeaderWith p x dir ident _ _ h
  rw [slice, drop_linkLen_frameBytes, networkHeader, h, Nat.add_sub_cancel_left]
  exact List.take_left' hlen

/-- From the addresses on, a TCP frame is the range its checksum covers (R175). -/
theorem drop_addressesAt_frameBytes (h : x.transport = .tcp) :
    (frameBytes p x dir fl ident pay).drop (x.linkLen + addressesAt x.ipver) =
      addressBytes x dir ++ tcpSegment p x dir fl pay := by
  have hle : addressesAt x.ipver ≤ (networkHeader p x dir ident pay.length).length := by
    rw [length_networkHeader, Context.ipHeaderLen]
    cases x.ipver <;> decide
  rw [← List.drop_drop, drop_linkLen_frameBytes, List.drop_append_of_le_length hle, drop_networkHeader,
    transportSegment, h]

end Frame

/-- Settles O16: the ranges are the IPv4 header, and the addresses with the TCP segment, each with its checksum stored. -/
theorem deliveredFramesVerify : Obligations.DeliveredFramesVerify := by
  intro p x dir fl ident pay
  refine ⟨fun hv4 => ?_, fun htcp => ?_⟩
  · rw [slice_ipv4Header p x dir fl ident pay hv4]
    exact osum_ipv4Header p x dir ident pay.length
  · have hrange := drop_addressesAt_frameBytes p x dir fl ident pay htcp
    have hsum := osum_tcpSegment p x dir fl pay
    rw [← hrange] at hsum
    cases hver : x.ipver with
    | v4 => rwa [hver] at hsum
    | v6 => rwa [hver] at hsum

end Sys2Proof.Proofs

/-! The connection commands' checks and what is left past them, for each transport (O35, O33, O38): R120, R121, R125,
R127, R133, R135, R136. -/

namespace Sys2Proof.Proofs

open Sys2Proof Sys2Proof.Machine Sys2Proof.Laws

section Commands

variable {c : CtxIdx} {s : State}

theorem exec_create (hc : c.val < s.params.nctx) : exec (.create c) s = finish 0x10#8 s (createContext c s) := by
  rw [exec, execCreate, withCtx, if_pos hc]

theorem exec_close (hc : c.val < s.params.nctx) : exec (.close c) s = finish 0x13#8 s (closeContext c s) := by
  rw [exec, execClose, withCtx, if_pos hc]

theorem exec_reset (hc : c.val < s.params.nctx) : exec (.reset c) s = finish 0x14#8 s (resetContext c s) := by
  rw [exec, execReset, withCtx, if_pos hc]

/-! ### The checks (R120, R121, R127) -/

theorem createContext_in_use (hi : (s.ctx c).lstate ≠ .init) (hcl : (s.ctx c).lstate ≠ .closed) :
    createContext c s = .error .badState :=
  if_pos ⟨hi, hcl⟩

theorem validate_valid (ho : s.optionsOk) (ha : s.addressesOk) : validate s = none := by
  rcases validate_cases s with ⟨-, -, hv⟩ | ⟨hno, -⟩ | ⟨-, hna, -⟩
  · exact hv
  · exact absurd ho hno
  · exact absurd ha hna

theorem validate_optionInvalid (hno : ¬ s.optionsOk) : validate s = some .optionInvalid := by
  rcases validate_cases s with ⟨ho, -, -⟩ | ⟨-, hv⟩ | ⟨ho, -, -⟩
  · exact absurd ho hno
  · exact hv
  · exact absurd ho hno

theorem validate_addressFormat (ho : s.optionsOk) (hna : ¬ s.addressesOk) : validate s = some .addressFormat := by
  rcases validate_cases s with ⟨-, ha, -⟩ | ⟨hno, -⟩ | ⟨-, -, hv⟩
  · exact absurd ha hna
  · exact absurd ho hno
  · exact hv

theorem createContext_invalid {e : FaultCode} (hl : (s.ctx c).lstate = .init ∨ (s.ctx c).lstate = .closed)
    (hv : validate s = some e) : createContext c s = .error e := by
  rw [createContext, if_neg (by tauto), hv]

theorem createContext_valid (hl : (s.ctx c).lstate = .init ∨ (s.ctx c).lstate = .closed) (ho : s.optionsOk)
    (ha : s.addressesOk) : createContext c s = openContext c s := by
  rw [createContext, if_neg (by tauto), validate_valid ho ha]

theorem closeContext_not_open (hl : (s.ctx c).lstate ≠ .established) : closeContext c s = .error .badState :=
  if_pos hl

theorem resetContext_not_open (hl : (s.ctx c).lstate ≠ .established) : resetContext c s = .error .badState :=
  if_pos hl

theorem emitPayload_not_open {dir : Dir} {fl : Flags} (hlen : s.plen.toNat ≤ s.params.payloadMax)
    (hl : (s.ctx c).lstate ≠ .established) : emitPayload c dir fl s = .error .badState := by
  have hfits : ¬ s.payloadTooLong = true := by simpa [State.payloadTooLong] using hlen
  rw [emitPayload, if_neg hfits, if_pos hl]

/-! ### Past the checks, for each transport (R125, R133, R135, R136) -/

theorem openContext_udp (ht : (newContext s).1.transport = .udp) :
    openContext c s = .ok (((newContext s).2.setCtx c (newContext s).1).setLstate c .established) := by
  simp only [openContext, ht]

theorem openContext_tcp (ht : (newContext s).1.transport = .tcp) :
    openContext c s = andThen (handshake c (((newContext s).2.setCtx c (newContext s).1).setLstate c .handshaking))
      fun t => .ok (t.setLstate c .established) := by
  simp only [openContext, ht]

theorem closeContext_udp (hl : (s.ctx c).lstate = .established) (ht : (s.ctx c).transport = .udp) :
    closeContext c s = .ok (s.setLstate c .closed) := by
  simp [closeContext, hl, ht]

theorem closeContext_tcp (hl : (s.ctx c).lstate = .established) (ht : (s.ctx c).transport = .tcp) :
    closeContext c s = andThen (closeFrames c (s.setLstate c .closing)) fun t => .ok (t.setLstate c .closed) := by
  simp [closeContext, hl, ht]

theorem resetContext_udp (hl : (s.ctx c).lstate = .established) (ht : (s.ctx c).transport = .udp) :
    resetContext c s = .ok (s.setLstate c .closed) := by
  simp [resetContext, hl, ht]

theorem resetContext_tcp (hl : (s.ctx c).lstate = .established) (ht : (s.ctx c).transport = .tcp) :
    resetContext c s = andThen (emit c .client .RST [] (s.setLstate c .reset)) fun t => .ok (t.setLstate c .closed) := by
  simp [resetContext, hl, ht]

/-- An MTU below the overhead cannot carry any frame (R154 d). -/
theorem emit_nil_impossible (dir : Dir) (fl : Flags) (h : (s.ctx c).mtu.toNat < (s.ctx c).overhead) :
    emit c dir fl [] s = .error .segImpossible := by
  have hseg : segments (s.ctx c).overhead (s.ctx c).mtu.toNat [] = .error .segImpossible := by
    rw [segments, if_neg (by simpa using h), if_pos h.le]
  rw [emit, hseg]

/-- The context that CREATE's handshake starts from. -/
theorem ctx_loaded (c : CtxIdx) (s : State) (l : LState) :
    ((((newContext s).2.setCtx c (newContext s).1).setLstate c l).ctx c) = { (newContext s).1 with lstate := l } := by
  rw [setLstate_eq, ctx_setCtx_self, ctx_setCtx_self]

theorem openContext_impossible (ht : (newContext s).1.transport = .tcp)
    (hmtu : (newContext s).1.mtu.toNat < (newContext s).1.overhead) :
    openContext c s = .error .segImpossible := by
  rw [openContext_tcp ht, handshake, emit_nil_impossible .client .SYN (by rw [ctx_loaded]; exact hmtu)]
  rfl

theorem newContext_tcp (h : s.cfgCtrl.getLsbD 0 = false) : (newContext s).1.transport = .tcp := by
  rw [newContext_transport, h]; rfl

theorem newContext_udp (h : s.cfgCtrl.getLsbD 0 = true) : (newContext s).1.transport = .udp := by
  rw [newContext_transport, h]; rfl

end Commands

/-- Settles O35: the faults of `createContext`, raised in the state before the command. -/
theorem createFaultsInOrder : Obligations.CreateFaultsInOrder := by
  intro c s hc
  rw [exec_create hc]
  refine ⟨fun hi hcl => ?_, fun hl => ⟨fun hno => ?_, fun ho hna => ?_, fun ho ha hk hmtu => ?_⟩⟩
  · rw [createContext_in_use hi hcl]; rfl
  · rw [createContext_invalid hl (validate_optionInvalid hno)]; rfl
  · rw [createContext_invalid hl (validate_addressFormat ho hna)]; rfl
  · rw [createContext_valid hl ho ha, openContext_impossible (newContext_tcp hk) hmtu]; rfl

/-- Settles O33: the loaded context and the streams are all that changes. -/
theorem createUdpEmitsNothing : Obligations.CreateUdpEmitsNothing := by
  intro c s hc hl ho ha hk
  rw [exec_create hc, createContext_valid hl ho ha, openContext_udp (newContext_udp hk), setLstate_eq, ctx_setCtx_self,
    setCtx_setCtx, newContext_state]
  rfl

/-- Settles O38: past the check that the context is open, the lifecycle state is all that is written. -/
theorem udpCloseAndResetOnlyClose : Obligations.UdpCloseAndResetOnlyClose := by
  intro c s hc hest hudp
  rw [exec_close hc, exec_reset hc, closeContext_udp hest hudp, resetContext_udp hest hudp]
  exact ⟨rfl, rfl⟩

end Sys2Proof.Proofs

/-! The fields of a new context (O34): each is given, or the next value of its class's stream (R125, R126). -/

namespace Sys2Proof.Proofs

open Sys2Proof Sys2Proof.Machine Sys2Proof.Laws

/-! ### What resolving a field does to the streams -/

section Resolve

variable (given : Bool) {w : Nat} (v : BitVec w) (k : StreamIdx) (a : BitVec 128) (s : State)

/-- The stream of a resolved field of at most 64 bits moves on by one where the field is drawn (R111, R126). -/
@[simp] theorem resolve_gen_self (hw : w ≤ 64) :
    (resolve given v k s).2.gen.get k = if given then s.gen.get k else lcgNext s.params (s.gen.get k) := by
  rw [resolve_gen given v k k s hw]
  cases given <;> simp

@[simp] theorem resolve_gen_ne {j : StreamIdx} (h : k ≠ j) (hw : w ≤ 64) :
    (resolve given v k s).2.gen.get j = s.gen.get j := by
  rw [resolve_gen given v k j s hw, if_neg fun hj => h hj.2]

@[simp] theorem resolveAddr_v4_gen_self :
    (resolveAddr .v4 given a s).2.gen.get 1 = if given then s.gen.get 1 else lcgNext s.params (s.gen.get 1) := by
  rw [resolveAddr_v4_gen]
  cases given <;> simp

/-- An IPv6 address takes two outputs (R111). -/
@[simp] theorem resolveAddr_v6_gen_self :
    (resolveAddr .v6 given a s).2.gen.get 1 =
      if given then s.gen.get 1 else lcgNext s.params (lcgNext s.params (s.gen.get 1)) := by
  rw [resolveAddr_v6_gen]
  cases given <;> simp

@[simp] theorem resolveAddr_gen_ne (ver : IpVer) {j : StreamIdx} (h : 1 ≠ j) :
    (resolveAddr ver given a s).2.gen.get j = s.gen.get j := by
  cases ver with
  | v4 => rw [resolveAddr_v4_gen, if_neg fun hj => h hj.2]
  | v6 => rw [resolveAddr_v6_gen, if_neg fun hj => h hj.2]

end Resolve

/-! ### The new context -/

/-- A version that passes CREATE's check is told by its low bit (R127). -/
theorem newContext_ipver {s : State} (ha : s.addressesOk) :
    (newContext s).1.ipver = if s.cfgCtrl.getLsbD 1 then .v6 else .v4 := by
  obtain ⟨hver, -, -⟩ := ha
  have hfield : (s.cfgCtrl.extractLsb' 1 2 == 1#2) = s.cfgCtrl.getLsbD 1 := by
    rw [Bool.eq_iff_iff, beq_iff_eq, ← BitVec.toNat_inj, field_toNat, getLsbD_iff]
    change _ = 1 ↔ _
    omega
  rw [← hfield]
  rfl

/-- CREATE draws no identification and nothing for later use (R112, R126). -/
theorem newContext_gen_of_ge {s : State} {j : StreamIdx} (hj : 4 ≤ j.val) :
    (newContext s).2.gen.get j = s.gen.get j := by
  have hne (k : StreamIdx) (hk : k.val < 4) : k ≠ j := fun h => by rw [h] at hk; omega
  have h0 := hne 0 (by decide)
  have h1 := hne 1 (by decide)
  have h2 := hne 2 (by decide)
  have h3 := hne 3 (by decide)
  simp [newContext, h0, h1, h2, h3]

/-- Settles O34: a field reads its class's stream as the fields before it left it, and those of other classes leave it
alone. -/
theorem newContextFieldsGivenOrDrawn : Obligations.NewContextFieldsGivenOrDrawn := by
  intro s
  have hver : (newContext s).1.ipver = if s.cfgCtrl.extractLsb' 1 2 == 1#2 then .v6 else .v4 := rfl
  refine ⟨rfl, newContext_ipver, rfl, rfl, fun i => copyTags_get .., ?cliMac, ?srvMac, fun h => ?addr4, fun h => ?addr6,
    ?cliPort, ?srvPort, ?cliSeq, ?srvSeq, fun j hj => newContext_gen_of_ge hj, fun h => ?gen4, fun h => ?gen6, ?gen0,
    ?gen2, ?gen3, newContext_state s⟩
  case addr4 =>
    rw [hver] at h
    simp only [newContext, h]
    simp [resolveAddr_v4, BitVec.setWidth_eq_extractLsb']
  case addr6 =>
    rw [hver] at h
    simp only [newContext, h]
    simp [resolveAddr_v6]
  case gen4 | gen6 =>
    rw [hver] at h
    simp only [newContext, h]
    simp
  case cliMac | srvMac | cliPort | srvPort | cliSeq | srvSeq =>
    simp [newContext, resolve_value, BitVec.setWidth_eq_extractLsb']
  case gen0 | gen2 | gen3 => simp [newContext]

end Sys2Proof.Proofs

/-! A sequence of empty frames, as CREATE, CLOSE and RESET of a TCP connection emit them (R128, R133, R135): the state it
leaves, in one equation (`afterEach_eq`), and the records it appends (O59). -/

namespace Sys2Proof.Proofs

open Sys2Proof Sys2Proof.Machine Sys2Proof.Laws

/-! ### The emissions in sequence -/

/-- A client frame and a server frame with a flag each, then a plain `ACK` of the client: the form of the handshake and of
the close. -/
def threeFrames (fl fl' : Flags) : List (Dir × Flags) := [(.client, fl), (.server, fl'), (.client, .none)]

/-- The frames of the handshake (R128). -/
def handshakeFrames : List (Dir × Flags) := threeFrames .SYN .SYN_ACK

/-- The frames of a close (R133). -/
def teardownFrames : List (Dir × Flags) := threeFrames .FIN .FIN

/-- The frame of a reset (R135). -/
def resetFrames : List (Dir × Flags) := [(.client, .RST)]

/-- Emissions of the empty payload, each from where the one before it ended. -/
def emitEach (c : CtxIdx) : List (Dir × Flags) → Except FaultCode State → Except FaultCode State
  | [], r => r
  | (dir, fl) :: rest, r => emitEach c rest (andThen r (emit c dir fl []))

/-- The state after a sequence of empty frames. -/
def afterEach (c : CtxIdx) : List (Dir × Flags) → State → State
  | [], s => s
  | (dir, fl) :: rest, s => afterEach c rest (afterFrame c dir fl [] s)

theorem handshake_eq (c : CtxIdx) (s : State) : handshake c s = emitEach c handshakeFrames (.ok s) := rfl

theorem closeFrames_eq (c : CtxIdx) (s : State) : closeFrames c s = emitEach c teardownFrames (.ok s) := rfl

theorem emit_rst_eq (c : CtxIdx) (s : State) : emit c .client .RST [] s = emitEach c resetFrames (.ok s) := rfl

theorem emitEach_error (c : CtxIdx) (fs : List (Dir × Flags)) (e : FaultCode) :
    emitEach c fs (.error e) = .error e := by
  induction fs with
  | nil => rfl
  | cons f rest ih => exact ih

/-- Emissions that complete are their frames, in sequence. -/
theorem emitEach_ok {c : CtxIdx} {fs : List (Dir × Flags)} {s t : State} (h : emitEach c fs (.ok s) = .ok t) :
    t = afterEach c fs s := by
  induction fs generalizing s with
  | nil =>
    cases h
    rfl
  | cons f rest ih =>
    obtain ⟨dir, fl⟩ := f
    change emitEach c rest (emit c dir fl [] s) = .ok t at h
    cases hemit : emit c dir fl [] s with
    | error e =>
      rw [hemit, emitEach_error] at h
      cases h
    | ok u =>
      obtain ⟨pays, hseg, rfl⟩ := emit_ok hemit
      rw [segments_nil (emit_sends hemit).carried] at hseg
      cases hseg
      rw [hemit] at h
      exact ih h

/-- Where the MTU carries an empty frame and the records fit, every frame is emitted. -/
theorem emitEach_room {c : CtxIdx} {fs : List (Dir × Flags)} {s : State} (hmtu : (s.ctx c).overhead ≤ (s.ctx c).mtu.toNat)
    (hroom : s.room (fs.length * (16 + (s.ctx c).overhead))) : emitEach c fs (.ok s) = .ok (afterEach c fs s) := by
  induction fs generalizing s with
  | nil => rfl
  | cons f rest ih =>
    obtain ⟨dir, fl⟩ := f
    rw [List.length_cons, Nat.succ_mul] at hroom
    have hemit : emit c dir fl [] s = .ok (afterFrame c dir fl [] s) := by
      rw [emit_nil c dir fl s hmtu, outFull_of_room hroom (Nat.le_add_left ..)]
      rfl
    change emitEach c rest (emit c dir fl [] s) = _
    rw [hemit]
    refine ih ?_ fun m hm => ?_
    · rwa [afterFrame_ctx, overhead_advance, advance_mtu]
    · have := hroom m hm
      rw [length_afterFrame_out, afterFrame_ctx, overhead_advance, List.length_nil]
      omega

/-! ### The context after each frame (R172) -/

/-- A context after a sequence of empty frames. -/
def contextAfter : List (Dir × Flags) → Context → Context
  | [], x => x
  | (dir, fl) :: rest, x => contextAfter rest (x.advance dir fl 0)

theorem advance_setLstate (x : Context) (l : LState) (dir : Dir) (fl : Flags) (n : Nat) :
    { x with lstate := l }.advance dir fl n = { x.advance dir fl n with lstate := l } := by
  obtain ⟨transport⟩ := x
  cases transport <;> cases dir <;> rfl

theorem contextAfter_setLstate (fs : List (Dir × Flags)) (x : Context) (l : LState) :
    contextAfter fs { x with lstate := l } = { contextAfter fs x with lstate := l } := by
  induction fs generalizing x with
  | nil => rfl
  | cons f rest ih => rw [contextAfter, advance_setLstate, ih, contextAfter]

/-! ### The records -/

/-- The `j`-th frame a command emits from `s`, without a payload. -/
def frameAt (s : State) (j : Nat) (x : Context) (dir : Dir) (fl : Flags) : List Byte :=
  frameBytes s.params x dir fl (identAfter s.params (s.gen.get 4) j) []

/-- A sequence of empty frames from context `x`, the first the `j`-th that the command emits from `s`. -/
def framesFrom (s : State) : Nat → Context → List (Dir × Flags) → List (List Byte)
  | _, _, [] => []
  | j, x, (dir, fl) :: rest => frameAt s j x dir fl :: framesFrom s (j + 1) (x.advance dir fl 0) rest

/-- The records of `framesFrom`, one after the other (R181, R182). -/
def recordsFrom (s : State) : Nat → Context → List (Dir × Flags) → List Byte
  | _, _, [] => []
  | j, x, (dir, fl) :: rest => s.recordAt j x dir fl [] ++ recordsFrom s (j + 1) (x.advance dir fl 0) rest

theorem recordsFrom_setLstate (s : State) (fs : List (Dir × Flags)) (j : Nat) (x : Context) (l : LState) :
    recordsFrom s j { x with lstate := l } fs = recordsFrom s j x fs := by
  induction fs generalizing j x with
  | nil => rfl
  | cons f rest ih => rw [recordsFrom, recordAt_lstate, advance_setLstate, ih, recordsFrom]

theorem recordsFrom_afterFrame {c : CtxIdx} {s : State} (dir : Dir) (fl : Flags) (fs : List (Dir × Flags)) (j : Nat)
    {x : Context} (hx : x.ipver = (s.ctx c).ipver) :
    recordsFrom (afterFrame c dir fl [] s) j x fs = recordsFrom s (j + 1) x fs := by
  induction fs generalizing j x with
  | nil => rfl
  | cons f rest ih =>
    rw [recordsFrom, recordAt_afterFrame hx, ih _ ((advance_ipver ..).trans hx), recordsFrom]

theorem overhead_le (x : Context) : x.overhead ≤ 134 := by
  have hcnt := x.vlanCnt.isLt
  have hip : x.ipHeaderLen ≤ 40 := by unfold Context.ipHeaderLen; split <;> decide
  have hth : x.transportHeaderLen ≤ 20 := by unfold Context.transportHeaderLen; split <;> decide
  unfold Context.overhead Context.linkLen
  omega

theorem length_frameAt (s : State) (j : Nat) (x : Context) (dir : Dir) (fl : Flags) :
    (frameAt s j x dir fl).length = x.overhead := by
  simp only [frameAt, frameBytes, List.length_append, length_linkHeader, length_networkHeader, length_transportSegment,
    Context.overhead, List.length_nil, Nat.add_zero]

/-- The records split into their frames (R200). -/
theorem framesOf_recordsFrom (s : State) (j : Nat) (x : Context) (fs : List (Dir × Flags)) :
    framesOf (recordsFrom s j x fs) = some (framesFrom s j x fs) := by
  induction fs generalizing j x with
  | nil => exact framesOf_nil
  | cons f rest ih =>
    obtain ⟨dir, fl⟩ := f
    have hlen := length_frameAt s j x dir fl
    have hle := overhead_le x
    exact framesOf_append (framesOf_record _ (frameAt s j x dir fl) (by omega)) (ih ..)

/-! ### The state after the frames -/

theorem gensAfterFrames_zero (p : Params) (x : Context) (g : Vector Dword 8) : gensAfterFrames p x g 0 = g := by
  unfold gensAfterFrames
  cases x.ipver with
  | v4 => simp [streamAfter, Vector.get]
  | v6 => rfl

theorem gensAfterFrames_succ (p : Params) (x : Context) (g : Vector Dword 8) (n : Nat) :
    gensAfterFrames p x (gensAfterFrames p x g 1) n = gensAfterFrames p x g (n + 1) := by
  unfold gensAfterFrames
  cases x.ipver with
  | v4 =>
    have hget : (g.set 4 (lcgNext p (g.get 4))).get 4 = lcgNext p (g.get 4) := vector_get_set_self g 4 _
    simp only [streamAfter, Vector.set_set, hget, streamAfter_next]
  | v6 => rfl

theorem gensAfterFrames_advance (p : Params) (x : Context) (dir : Dir) (fl : Flags) (k : Nat) (g : Vector Dword 8)
    (n : Nat) : gensAfterFrames p (x.advance dir fl k) g n = gensAfterFrames p x g n := by
  simp only [gensAfterFrames, advance_ipver]

theorem afterFrame_gen (c : CtxIdx) (dir : Dir) (fl : Flags) (pay : List Byte) (s : State) :
    (afterFrame c dir fl pay s).gen = gensAfterFrames s.params (s.ctx c) s.gen 1 :=
  afterFrames_gen c dir fl [pay] s

/-- Everything a sequence of empty frames does (R162, R172, R181 to R183). -/
theorem afterEach_eq (c : CtxIdx) (fs : List (Dir × Flags)) (s : State) :
    afterEach c fs s = { s with
      gen := gensAfterFrames s.params (s.ctx c) s.gen fs.length
      ctxs := s.ctxs.set c.val (contextAfter fs (s.ctx c)) c.isLt
      clkUs := s.clkUs + BitVec.ofNat 64 fs.length * s.delayUs
      out := s.out ++ recordsFrom s 0 (s.ctx c) fs
      recCount := s.recCount + BitVec.ofNat 64 fs.length } := by
  induction fs generalizing s with
  | nil =>
    have hctxs : s.ctxs.set c.val (s.ctx c) c.isLt = s.ctxs := congrArg State.ctxs (setCtx_ctx s c)
    simp [afterEach, contextAfter, recordsFrom, gensAfterFrames_zero, hctxs]
  | cons f rest ih =>
    obtain ⟨dir, fl⟩ := f
    have hout : (afterFrame c dir fl [] s).out = s.out ++ s.recordAt 0 (s.ctx c) dir fl [] := by
      rw [← recordBytes_frameOf]
      rfl
    have hctxs : (afterFrame c dir fl [] s).ctxs = s.ctxs.set c.val ((s.ctx c).advance dir fl 0) c.isLt := rfl
    have hcount : BitVec.ofNat 64 (rest.length + 1) = 1#64 + BitVec.ofNat 64 rest.length := by
      rw [Nat.add_comm, BitVec.ofNat_add]
    rw [afterEach, ih]
    simp only [afterFrame_ctx, afterFrame_gen, afterFrame_params, gensAfterFrames_advance, gensAfterFrames_succ, hctxs,
      Vector.set_set, afterFrame_clkUs, afterFrame_delayUs, afterFrame_recCount, hout,
      recordsFrom_afterFrame dir fl rest 0 (advance_ipver ..), List.append_assoc, List.length_cons, List.length_nil,
      hcount, BitVec.add_mul, BitVec.one_mul, BitVec.add_assoc, contextAfter, recordsFrom]
    rfl

end Sys2Proof.Proofs

/-! CREATE, CLOSE and RESET of a TCP connection complete, with everything they do (O32, O36, O37, O39, O59): the next state
of each is `afterExchange` of its frames (R125, R128, R133, R135). -/

namespace Sys2Proof.Proofs

open Sys2Proof Sys2Proof.Machine Sys2Proof.Laws

/-! ### The next state -/

/-- The state a command with opcode `o` answers that emits the empty frames `fs` of context `x` from `s`, the streams at
`g`, and leaves the context in the lifecycle state `l`. -/
def afterExchange (c : CtxIdx) (fs : List (Dir × Flags)) (l : LState) (o : Byte) (x : Context) (g : Vector Dword 8)
    (s : State) : State :=
  { s with
    status := statusOk s.status o
    gen := gensAfterFrames s.params x g fs.length
    ctxs := s.ctxs.set c.val { contextAfter fs x with lstate := l } c.isLt
    clkUs := s.clkUs + BitVec.ofNat 64 fs.length * s.delayUs
    out := s.out ++ recordsFrom s 0 x fs
    recCount := s.recCount + BitVec.ofNat 64 fs.length }

section Exchange

variable {c : CtxIdx} {s : State}

/-- Of the streams a record depends on the identifications' alone. -/
theorem recordsFrom_load {g : Vector Dword 8} (hg : g.get 4 = s.gen.get 4) (y : Context) (j : Nat) (x : Context)
    (fs : List (Dir × Flags)) : recordsFrom ({ s with gen := g }.setCtx c y) j x fs = recordsFrom s j x fs := by
  induction fs generalizing j x with
  | nil => rfl
  | cons f rest ih =>
    simp only [recordsFrom, ih, State.recordAt, setCtx_clkUs, setCtx_delayUs, setCtx_params, setCtx_gen, hg]

/-- Frames between two writes of the lifecycle state: they do not look at it. -/
theorem finish_exchange {fs : List (Dir × Flags)} {l l' : LState} {o : Byte} {x : Context} {g : Vector Dword 8}
    (hg : g.get 4 = s.gen.get 4) (hmtu : x.overhead ≤ x.mtu.toNat)
    (hroom : s.room (fs.length * (16 + x.overhead))) :
    finish o s (andThen (emitEach c fs (.ok ({ s with gen := g }.setCtx c { x with lstate := l })))
      fun t => .ok (t.setLstate c l')) = .next (afterExchange c fs l' o x g s) := by
  have hctx := ctx_setCtx_self { s with gen := g } c { x with lstate := l }
  rw [emitEach_room (by rw [hctx]; exact hmtu) (by rw [hctx]; exact hroom), afterEach_eq, hctx, contextAfter_setLstate,
    recordsFrom_setLstate, recordsFrom_load hg]
  simp only [andThen, finish, State.setLstate, State.setCtx, State.ctx, State.complete, vector_get_set_self,
    Vector.set_set]
  rfl

theorem exec_create_tcp (hc : c.val < s.params.nctx) (hl : (s.ctx c).lstate = .init ∨ (s.ctx c).lstate = .closed)
    (ho : s.optionsOk) (ha : s.addressesOk) (hk : s.cfgCtrl.getLsbD 0 = false)
    (hmtu : (newContext s).1.overhead ≤ (newContext s).1.mtu.toNat)
    (hroom : s.room (3 * (16 + (newContext s).1.overhead))) :
    exec (.create c) s =
      .next (afterExchange c handshakeFrames .established 0x10#8 (newContext s).1 (newContext s).2.gen s) := by
  rw [exec_create hc, createContext_valid hl ho ha, openContext_tcp (newContext_tcp hk), handshake_eq, setLstate_eq,
    ctx_setCtx_self, setCtx_setCtx]
  nth_rewrite 1 [newContext_state]
  exact finish_exchange (newContext_gen_of_ge (by decide)) hmtu hroom

theorem exec_close_tcp (hc : c.val < s.params.nctx) (hest : (s.ctx c).lstate = .established)
    (ht : (s.ctx c).transport = .tcp) (hmtu : (s.ctx c).overhead ≤ (s.ctx c).mtu.toNat)
    (hroom : s.room (3 * (16 + (s.ctx c).overhead))) :
    exec (.close c) s = .next (afterExchange c teardownFrames .closed 0x13#8 (s.ctx c) s.gen s) := by
  rw [exec_close hc, closeContext_tcp hest ht, closeFrames_eq]
  exact finish_exchange rfl hmtu hroom

theorem exec_reset_tcp (hc : c.val < s.params.nctx) (hest : (s.ctx c).lstate = .established)
    (ht : (s.ctx c).transport = .tcp) (hmtu : (s.ctx c).overhead ≤ (s.ctx c).mtu.toNat)
    (hroom : s.room (16 + (s.ctx c).overhead)) :
    exec (.reset c) s = .next (afterExchange c resetFrames .closed 0x14#8 (s.ctx c) s.gen s) := by
  rw [exec_reset hc, resetContext_tcp hest ht, emit_rst_eq]
  exact finish_exchange rfl hmtu (by rwa [resetFrames, List.length_singleton, Nat.one_mul])

end Exchange

section AfterExchange

variable (c : CtxIdx) (fs : List (Dir × Flags)) (l : LState) (o : Byte) (x : Context) (g : Vector Dword 8) (s : State)

theorem afterExchange_ctx_self : (afterExchange c fs l o x g s).ctx c = { contextAfter fs x with lstate := l } :=
  vector_get_set_self s.ctxs c _

theorem afterExchange_ctx_ne {d : CtxIdx} (h : d ≠ c) : (afterExchange c fs l o x g s).ctx d = s.ctx d :=
  vector_get_set_ne s.ctxs _ h.symm

theorem prefix_afterExchange_out : s.out <+: (afterExchange c fs l o x g s).out := List.prefix_append ..

/-- The bytes appended split into the frames (R200). -/
theorem framesOf_afterExchange :
    framesOf ((afterExchange c fs l o x g s).out.drop s.out.length) = some (framesFrom s 0 x fs) := by
  rw [afterExchange, List.drop_left, framesOf_recordsFrom]

end AfterExchange

/-! ### The fields of a frame (R170) -/

theorem be32dec_be32 (v : BitVec 32) (rest : List Byte) : be32dec (be32 v ++ rest) = v.toNat := by
  have := v.isLt
  simp only [be32, be32dec, byteAt, List.cons_append, List.getD_cons_zero, List.getD_cons_succ, BitVec.extractLsb'_toNat,
    Nat.shiftRight_eq_div_pow]
  omega

section Fields

variable {x y : Context} (hat : x.transportAt = y.transportAt) (htcp : y.transport = .tcp) (s : State) (j : Nat)
  (dir : Dir) (fl : Flags)

include hat htcp

/-- Context `x`, whose frames have the layout of `y`'s, finds the segment of a frame of `y`. -/
theorem drop_transportAt_frameAt (i : Nat) :
    (frameAt s j y dir fl).drop (x.transportAt + i) = (tcpSegment s.params y dir fl []).drop i := by
  have hlen : (linkHeader y dir ++ networkHeader s.params y dir (identAfter s.params (s.gen.get 4) j)
      ([] : List Byte).length).length = y.transportAt := by
    rw [List.length_append, length_linkHeader, length_networkHeader, Context.transportAt]
  rw [hat, ← List.drop_drop]
  change List.drop i (List.drop _ (_ ++ _ ++ transportSegment s.params y dir fl [])) = _
  rw [List.drop_left' hlen, transportSegment, htcp]

theorem frameSeq_frameAt : x.frameSeq (frameAt s j y dir fl) = (y.sender dir).seq.toNat := by
  rw [Context.frameSeq, drop_transportAt_frameAt hat htcp]
  exact be32dec_be32 ..

theorem frameAck_frameAt : x.frameAck (frameAt s j y dir fl) = (ackNumber y dir fl).toNat := by
  rw [Context.frameAck, drop_transportAt_frameAt hat htcp]
  exact be32dec_be32 ..

theorem frameFlags_frameAt : x.frameFlags (frameAt s j y dir fl) = (flagByte fl).toNat := by
  have hbyte : x.frameFlags (frameAt s j y dir fl) = byteAt ((frameAt s j y dir fl).drop (x.transportAt + 13)) 0 := by
    simp [Context.frameFlags, byteAt, List.getD_eq_getElem?_getD, List.getElem?_drop]
  rw [hbyte, drop_transportAt_frameAt hat htcp]
  rfl

end Fields

/-! ### The contexts of the three frames (R129, R134) -/

/-- A context whose client has advanced by a flag's increment. -/
def clientAdvanced (x : Context) : Context := { x with client := { x.client with seq := x.client.seq + 1#32 } }

/-- A context whose client and server have both advanced by a flag's increment. -/
def bothAdvanced (x : Context) : Context :=
  { clientAdvanced x with server := { x.server with seq := x.server.seq + 1#32 } }

section ThreeFrames

variable {x : Context} (htcp : x.transport = .tcp) {fl fl' : Flags}

include htcp

theorem advance_client (hfl : seqIncrement fl = 1) : x.advance .client fl 0 = clientAdvanced x := by
  simp [Context.advance, htcp, Context.setSender, Context.sender, seqAfter, hfl, clientAdvanced]

theorem advance_server (hfl : seqIncrement fl = 1) :
    x.advance .server fl 0 = { x with server := { x.server with seq := x.server.seq + 1#32 } } := by
  simp [Context.advance, htcp, Context.setSender, Context.sender, seqAfter, hfl]

theorem advance_unflagged (dir : Dir) (hfl : seqIncrement fl = 0) : x.advance dir fl 0 = x := by
  obtain ⟨transport⟩ := x
  cases htcp
  cases dir <;> simp [Context.advance, Context.setSender, Context.sender, seqAfter, hfl]

variable (hfl : seqIncrement fl = 1) (hfl' : seqIncrement fl' = 1)

include hfl hfl'

theorem contextAfter_three : contextAfter (threeFrames fl fl') x = bothAdvanced x := by
  have hclient : (clientAdvanced x).transport = .tcp := htcp
  have hboth : (bothAdvanced x).transport = .tcp := htcp
  simp only [threeFrames, contextAfter, advance_client htcp hfl, advance_server hclient hfl']
  exact advance_unflagged hboth .client rfl

theorem framesFrom_three (s : State) : framesFrom s 0 x (threeFrames fl fl') =
    [frameAt s 0 x .client fl, frameAt s 1 (clientAdvanced x) .server fl', frameAt s 2 (bothAdvanced x) .client .none] := by
  have hclient : (clientAdvanced x).transport = .tcp := htcp
  simp only [threeFrames, framesFrom, advance_client htcp hfl, advance_server hclient hfl']
  rfl

theorem append_recordsFrom_three (s : State) (pre : List Byte) : pre ++ recordsFrom s 0 x (threeFrames fl fl') =
    pre ++ s.recordAt 0 x .client fl [] ++ s.recordAt 1 (clientAdvanced x) .server fl' []
      ++ s.recordAt 2 (bothAdvanced x) .client .none [] := by
  have hclient : (clientAdvanced x).transport = .tcp := htcp
  simp only [threeFrames, recordsFrom, advance_client htcp hfl, advance_server hclient hfl', List.append_nil,
    List.append_assoc]
  rfl

/-- What the host finds after a command of three frames: their fields, and the state they leave. -/
theorem afterExchange_three (c : CtxIdx) (l : LState) (o : Byte) (g : Vector Dword 8) (s : State) :
    let t := afterExchange c (threeFrames fl fl') l o x g s
    ∃ f1 f2 f3, framesOf (t.out.drop s.out.length) = some [f1, f2, f3] ∧ s.out <+: t.out ∧
      f1.length = x.overhead ∧ f2.length = x.overhead ∧ f3.length = x.overhead ∧
      x.frameFlags f1 = (flagByte fl).toNat ∧ x.frameSeq f1 = x.client.seq.toNat ∧
      x.frameAck f1 = (ackNumber x .client fl).toNat ∧
      x.frameFlags f2 = (flagByte fl').toNat ∧ x.frameSeq f2 = x.server.seq.toNat ∧
      x.frameAck f2 = (ackNumber (clientAdvanced x) .server fl').toNat ∧
      x.frameFlags f3 = 0x10 ∧ x.frameSeq f3 = (x.client.seq + 1#32).toNat ∧
      x.frameAck f3 = (x.server.seq + 1#32).toNat ∧
      t.ctx c = { bothAdvanced x with lstate := l } ∧ (∀ d, d ≠ c → t.ctx d = s.ctx d) ∧
      t.status = statusOk s.status o ∧ t.recCount = s.recCount + 3#64 ∧ t.clkUs = s.clkUs + 3#64 * s.delayUs ∧
      t.gen = gensAfterFrames s.params x g 3 ∧
      t = { s with status := t.status, recCount := t.recCount, clkUs := t.clkUs, out := t.out, gen := t.gen,
                   ctxs := t.ctxs } := by
  have hframes := framesOf_afterExchange c (threeFrames fl fl') l o x g s
  have hctx := afterExchange_ctx_self c (threeFrames fl fl') l o x g s
  rw [framesFrom_three htcp hfl hfl'] at hframes
  rw [contextAfter_three htcp hfl hfl'] at hctx
  have hclient : (clientAdvanced x).transport = .tcp := htcp
  have hboth : (bothAdvanced x).transport = .tcp := htcp
  exact ⟨_, _, _, hframes, prefix_afterExchange_out .., length_frameAt .., length_frameAt .., length_frameAt ..,
    frameFlags_frameAt rfl htcp .., frameSeq_frameAt rfl htcp .., frameAck_frameAt rfl htcp ..,
    frameFlags_frameAt rfl hclient .., frameSeq_frameAt rfl hclient .., frameAck_frameAt rfl hclient ..,
    frameFlags_frameAt rfl hboth .., frameSeq_frameAt rfl hboth .., frameAck_frameAt rfl hboth ..,
    hctx, fun d hd => afterExchange_ctx_ne _ _ _ _ _ _ _ hd, rfl, rfl, rfl, rfl, rfl⟩

end ThreeFrames

/-! ### The obligations -/

/-- Settles O32: the handshake is the three frames of SYN and SYN_ACK. -/
theorem createTcpEmitsTheHandshake : Obligations.CreateTcpEmitsTheHandshake := by
  intro c s hc hl ho ha hk hmtu hroom
  obtain ⟨f1, f2, f3, h⟩ := afterExchange_three (newContext_tcp hk) (fl := .SYN) (fl' := .SYN_ACK) rfl rfl c .established
    0x10#8 (newContext s).2.gen s
  exact ⟨_, f1, f2, f3, exec_create_tcp hc hl ho ha hk hmtu hroom, h⟩

/-- Settles O36: the close is the three frames of FIN and FIN. -/
theorem closeTcpEmitsTheTeardown : Obligations.CloseTcpEmitsTheTeardown := by
  intro c s hc hest htcp hmtu hroom
  obtain ⟨f1, f2, f3, h⟩ := afterExchange_three htcp (fl := .FIN) (fl' := .FIN) rfl rfl c .closed 0x13#8 s.gen s
  exact ⟨_, f1, f2, f3, exec_close_tcp hc hest htcp hmtu hroom, h⟩

/-- Settles O37: the one frame advances nothing. -/
theorem resetTcpEmitsOneRst : Obligations.ResetTcpEmitsOneRst := by
  intro c s hc hest htcp hmtu hroom
  have hframes := framesOf_afterExchange c resetFrames .closed 0x14#8 (s.ctx c) s.gen s
  have hctx := afterExchange_ctx_self c resetFrames .closed 0x14#8 (s.ctx c) s.gen s
  rw [resetFrames, contextAfter, advance_unflagged htcp .client rfl] at hctx
  exact ⟨_, _, exec_reset_tcp hc hest htcp hmtu hroom, hframes, prefix_afterExchange_out .., length_frameAt ..,
    frameFlags_frameAt rfl htcp .., frameSeq_frameAt rfl htcp .., frameAck_frameAt rfl htcp .., hctx,
    fun d hd => afterExchange_ctx_ne _ _ _ _ _ _ _ hd, rfl, rfl, congrArg (s.clkUs + ·) (BitVec.one_mul _), rfl, rfl⟩

/-- Settles O59: the records are those of `afterExchange`. -/
theorem connectionRecordsInOrder : Obligations.ConnectionRecordsInOrder := by
  intro c s hc
  refine ⟨fun hl ho ha hk hmtu hroom => ⟨_, exec_create_tcp hc hl ho ha hk hmtu hroom, ?_⟩, fun hest htcp hmtu =>
    ⟨fun hroom => ⟨_, exec_close_tcp hc hest htcp hmtu hroom, ?_⟩,
      fun hroom => ⟨_, exec_reset_tcp hc hest htcp hmtu hroom, ?_⟩⟩⟩
  · exact append_recordsFrom_three (newContext_tcp hk) rfl rfl s s.out
  · exact append_recordsFrom_three htcp rfl rfl s s.out
  · exact congrArg (s.out ++ ·) (List.append_nil _)

/-- Settles O39: the invariant gives an open TCP context the MTU that O36 and O37 ask for, and a UDP context emits no
frame (O38). -/
theorem closeAndResetOfAnOpenContextComplete : Obligations.CloseAndResetOfAnOpenContextComplete := by
  intro c s hinv hc hest hroom
  cases ht : (s.ctx c).transport with
  | udp =>
    obtain ⟨hclose, hreset⟩ := udpCloseAndResetOnlyClose c s hc hest ht
    exact ⟨_, _, hclose, statusCode_statusOk .., congrArg Context.lstate (vector_get_set_self s.ctxs c _), hreset,
      statusCode_statusOk .., congrArg Context.lstate (vector_get_set_self s.ctxs c _)⟩
  | tcp =>
    obtain ⟨-, -, -, -, hctx, -⟩ := hinv
    obtain ⟨-, -, -, -, -, hmtu⟩ := hctx c
    have hroom1 : s.room (16 + (s.ctx c).overhead) := fun m hm => by have := hroom m hm; omega
    exact ⟨_, _, exec_close_tcp hc hest ht (hmtu hest ht) hroom, statusCode_statusOk ..,
      congrArg Context.lstate (afterExchange_ctx_self ..), exec_reset_tcp hc hest ht (hmtu hest ht) hroom1,
      statusCode_statusOk .., congrArg Context.lstate (afterExchange_ctx_self ..)⟩

end Sys2Proof.Proofs

/-! The payload commands complete (O27), and the lifecycle table: where each command is legal, how many frames it emits, and
where it leads (O40). -/

namespace Sys2Proof.Proofs

open Sys2Proof Sys2Proof.Machine Sys2Proof.Laws

/-! ### The payload commands -/

/-- Each chunk's frame fits the MTU, a 16-bit field, so the length fields of its record hold its length (R26, R182). -/
theorem frame_small_of_segments {x : Context} {data : List Byte} {pays : List (List Byte)}
    (h : segments x.overhead x.mtu.toNat data = .ok pays) : ∀ pay ∈ pays, x.overhead + pay.length < 2 ^ 32 := by
  obtain ⟨-, hfit, -, -⟩ := segments_ok h
  intro pay hpay
  have := hfit pay hpay
  have := x.mtu.isLt
  omega

/-- Settles O27: the next state is `afterFrames` of the payload's chunks, `frameCount` of them. -/
theorem payloadCommandsComplete : Obligations.PayloadCommandsComplete := by
  intro i c dir fl s hi hc hlen hest hcar hroom
  obtain ⟨pays, hseg, hexec⟩ := exec_emitsPayload_room hi hc hlen hest hcar hroom
  obtain ⟨hflat, -, hcount, -⟩ := segments_ok hseg
  obtain ⟨recs, hout, hrecs, -⟩ := afterFrames_out c dir fl pays s (frame_small_of_segments hseg)
  have hctx := afterFrames_ctx c dir fl pays s
  rw [hflat, hcount, length_payload] at hctx
  rw [recordsLength, hflat, hcount, length_payload] at hrecs
  rw [length_payload] at hcount
  refine ⟨_, hexec, ?status, ?recCount, ?clkUs, ?outPrefix, ?length, ?gen,
    fun d hd => afterFrames_ctx_ne c d hd dir fl pays s, hctx, ?rest⟩
  case status => rw [complete_status, afterFrames_status]
  case recCount => rw [complete_recCount, afterFrames_recCount, hcount]
  case clkUs => rw [complete_clkUs, afterFrames_clkUs, hcount]
  case outPrefix => rw [complete_out, hout]; exact List.prefix_append ..
  case length => rw [complete_out, hout, List.length_append, hrecs, Nat.add_assoc]
  case gen => rw [complete_gen, afterFrames_gen, hcount]
  case rest => rw [afterFrames_frame]; rfl

/-! ### Commands that complete -/

section Completion

variable {c : CtxIdx} {s u : State}

/-- A command whose code is `OK` has completed (R210, R213). -/
theorem finish_ok {o : Byte} {t : State} {r : Except FaultCode State} (h : finish o s r = .next t)
    (hcode : statusCode t.status = 0x00#8) : ∃ u, r = .ok u ∧ t = u.complete o := by
  rcases finish_cases h with hu | ⟨e, -, rfl⟩
  · exact hu
  · rw [raise_status, statusCode_statusFault] at hcode
    exact absurd hcode (faultByte_ne_ok e)

theorem createContext_ok (h : createContext c s = .ok u) :
    ((s.ctx c).lstate = .init ∨ (s.ctx c).lstate = .closed) ∧ openContext c s = .ok u := by
  unfold createContext at h
  split at h
  · cases h
  · next hl =>
    split at h
    · cases h
    · exact ⟨by tauto, h⟩

theorem emitPayload_ok {dir : Dir} {fl : Flags} (h : emitPayload c dir fl s = .ok u) :
    emit c dir fl s.payload s = .ok u := by
  unfold emitPayload at h
  split at h
  · cases h
  · split at h
    · cases h
    · exact h

/-- Frames between two writes of the lifecycle state count one record each (R181). -/
theorem exchange_recCount {fs : List (Dir × Flags)} {l : LState}
    (h : andThen (emitEach c fs (.ok s)) (fun t => .ok (t.setLstate c l)) = .ok u) :
    u.recCount = s.recCount + BitVec.ofNat 64 fs.length := by
  obtain ⟨v, hv, hend⟩ := andThen_ok.1 h
  cases hend
  rw [setLstate_recCount, emitEach_ok hv, afterEach_eq]

/-- The records a command counts that emits `n` frames of a TCP connection and none of a UDP one. -/
def tcpRecords (n : Dword) : Transport → Dword
  | .tcp => n
  | .udp => 0#64

theorem openContext_recCount (h : openContext c s = .ok u) :
    u.recCount = s.recCount + tcpRecords 3#64 (newContext s).1.transport := by
  cases ht : (newContext s).1.transport with
  | tcp =>
    rw [openContext_tcp ht, handshake_eq] at h
    rw [exchange_recCount h, setLstate_recCount, setCtx_recCount, newContext_recCount]
    rfl
  | udp =>
    rw [openContext_udp ht] at h
    cases h
    simp [tcpRecords]

theorem closeContext_recCount (h : closeContext c s = .ok u) :
    u.recCount = s.recCount + tcpRecords 3#64 (s.ctx c).transport := by
  have hest := (closeContext_closes h).established
  cases ht : (s.ctx c).transport with
  | tcp =>
    rw [closeContext_tcp hest ht, closeFrames_eq] at h
    exact exchange_recCount h
  | udp =>
    rw [closeContext_udp hest ht] at h
    cases h
    simp [tcpRecords]

theorem resetContext_recCount (h : resetContext c s = .ok u) :
    u.recCount = s.recCount + tcpRecords 1#64 (s.ctx c).transport := by
  have hest := (resetContext_closes h).established
  cases ht : (s.ctx c).transport with
  | tcp =>
    rw [resetContext_tcp hest ht, emit_rst_eq] at h
    exact exchange_recCount h
  | udp =>
    rw [resetContext_udp hest ht] at h
    cases h
    simp [tcpRecords]

end Completion

/-- Settles O40: a command that answers `OK` has completed by its own rule, and outside its states it faults before any
other check. -/
theorem lifecycleFollowsTheTable : Obligations.LifecycleFollowsTheTable := by
  intro c s hc
  rw [exec_create hc, exec_close hc, exec_reset hc]
  refine ⟨fun t h hcode => ?_, fun i dir fl t hi h hcode => ?_, fun t h hcode => ?_, fun t h hcode => ?_,
    fun hi hcl => ?_, fun hl => ⟨?_, ?_, fun hlen i dir fl hi => ?_⟩⟩
  · obtain ⟨u, hu, rfl⟩ := finish_ok h hcode
    obtain ⟨hl, hopen⟩ := createContext_ok hu
    have hopens := createContext_opens hu
    refine ⟨hl, hopens.lstate, ?_⟩
    rw [complete_recCount, ctx_complete, hopens.identity.transport, openContext_recCount hopen]
    cases (newContext s).1.transport <;> rfl
  · rw [exec_emitsPayload hi] at h
    obtain ⟨u, hu, rfl⟩ := finish_ok h hcode
    obtain ⟨-, hu⟩ := withCtx_ok.1 hu
    obtain ⟨hest, hsends⟩ := emitPayload_sends hu
    obtain ⟨pays, hseg, rfl⟩ := emit_ok (emitPayload_ok hu)
    obtain ⟨-, -, hcount, hpos⟩ := segments_ok hseg
    rw [length_payload] at hcount
    rw [complete_recCount, afterFrames_recCount, ← hcount]
    exact ⟨hest, hsends.lstate.trans hest, hpos, rfl⟩
  · obtain ⟨u, hu, rfl⟩ := finish_ok h hcode
    have hcloses := closeContext_closes hu
    refine ⟨hcloses.established, hcloses.lstate, ?_⟩
    rw [complete_recCount, closeContext_recCount hu]
    cases (s.ctx c).transport <;> rfl
  · obtain ⟨u, hu, rfl⟩ := finish_ok h hcode
    have hcloses := resetContext_closes hu
    refine ⟨hcloses.established, hcloses.lstate, ?_⟩
    rw [complete_recCount, resetContext_recCount hu]
    cases (s.ctx c).transport <;> rfl
  · rw [createContext_in_use hi hcl]; rfl
  · rw [closeContext_not_open hl]; rfl
  · rw [resetContext_not_open hl]; rfl
  · rw [exec_emitsPayload hi, withCtx, if_pos hc, emitPayload_not_open hlen hl]; rfl

end Sys2Proof.Proofs

/-! The parts of a frame and the fields of its headers and its record header (O17 to O24): each part is found at R179's
offset, and a field is read where it was written (R100, R158, R160, R164, R170, R177, R182). -/

namespace Sys2Proof.Proofs

open Sys2Proof Sys2Proof.Machine Sys2Proof.Laws

/-! ### Reading bytes -/

theorem be16dec_be16 (v : BitVec 16) (rest : List Byte) : be16dec (be16 v ++ rest) = v.toNat := by
  have := v.isLt
  simp only [be16, be16dec, byteAt, List.cons_append, List.getD_cons_zero, List.getD_cons_succ,
    BitVec.extractLsb'_toNat, Nat.shiftRight_eq_div_pow]
  omega

theorem byteAt_drop (b : List Byte) (i j : Nat) : byteAt (b.drop i) j = byteAt b (i + j) := by
  simp [byteAt, List.getD_eq_getElem?_getD, List.getElem?_drop]

/-! ### The parts of a frame (R179) -/

section Parts

variable (p : Params) (x : Context) (dir : Dir) (fl : Flags) (ident : BitVec 16) (pay : List Byte)

theorem length_frameBytes : (frameBytes p x dir fl ident pay).length = x.overhead + pay.length := by
  simp only [frameBytes, List.length_append, length_linkHeader, length_networkHeader, length_transportSegment,
    Context.overhead]
  omega

theorem overhead_eq_transportAt_add (x : Context) : x.overhead = x.transportAt + x.transportHeaderLen := rfl

theorem take_linkLen_frameBytes : (frameBytes p x dir fl ident pay).take x.linkLen = linkHeader x dir := by
  rw [frameBytes, List.append_assoc, List.take_left' (length_linkHeader x dir)]

theorem slice_networkHeader : slice (frameBytes p x dir fl ident pay) x.linkLen x.transportAt =
    networkHeader p x dir ident pay.length := by
  rw [slice, drop_linkLen_frameBytes, Context.transportAt, Nat.add_sub_cancel_left,
    List.take_left' (length_networkHeader ..)]

theorem drop_transportAt_frameBytes :
    (frameBytes p x dir fl ident pay).drop x.transportAt = transportSegment p x dir fl pay := by
  rw [Context.transportAt, ← List.drop_drop, drop_linkLen_frameBytes, List.drop_left' (length_networkHeader ..)]

/-- The payload follows the transport header (R170, R177). -/
theorem drop_transportSegment : (transportSegment p x dir fl pay).drop x.transportHeaderLen = pay := by
  unfold transportSegment Context.transportHeaderLen
  cases x.transport with
  | tcp => rfl
  | udp => rfl

theorem framePayload_frameBytes : x.framePayload (frameBytes p x dir fl ident pay) = pay := by
  rw [Context.framePayload, overhead_eq_transportAt_add, ← List.drop_drop, drop_transportAt_frameBytes,
    drop_transportSegment]

end Parts

/-- Settles O17: the parts are appended in this order, and each has its length. -/
theorem frameIsItsPartsAtTheirOffsets : Obligations.FrameIsItsPartsAtTheirOffsets := by
  intro p x dir fl ident pay
  exact ⟨length_frameBytes .., rfl, rfl, rfl, take_linkLen_frameBytes .., slice_networkHeader ..,
    drop_transportAt_frameBytes .., framePayload_frameBytes ..⟩

/-! ### The link header (R158) -/

/-- Where every item takes four bytes, item `i` starts at `4·i`. -/
theorem drop_flatMap_four {α : Type} {g : α → List Byte} (hg : ∀ a, (g a).length = 4) (us : List α) (i : Nat) :
    (us.flatMap g).drop (4 * i) = (us.drop i).flatMap g := by
  induction us generalizing i with
  | nil => simp
  | cons u us ih =>
    cases i with
    | zero => rfl
    | succ i =>
      rw [List.flatMap_cons, show 4 * (i + 1) = 4 + 4 * i by omega, ← List.drop_drop, List.drop_left' (hg u), ih,
        List.drop_succ_cons]

/-- Tag `i`: its identifier, then its value (R158). -/
theorem drop_tagBytes {ts : List (BitVec 16)} {i : Nat} (h : i < ts.length) : ∃ rest,
    (tagBytes ts).drop (4 * i) = be16 (if i = 0 then 0x8100#16 else 0x9100#16) ++ (be16 ts[i] ++ rest) := by
  cases ts with
  | nil => cases h
  | cons t ts =>
    cases i with
    | zero => exact ⟨_, rfl⟩
    | succ i =>
      have hi : i < ts.length := Nat.lt_of_succ_lt_succ h
      refine ⟨(ts.drop (i + 1)).flatMap fun u => be16 0x9100#16 ++ be16 u, ?_⟩
      rw [show 4 * (i + 1) = 4 + 4 * i by omega, ← List.drop_drop]
      change ((ts.flatMap fun u => be16 0x9100#16 ++ be16 u).drop (4 * i)) = _
      rw [drop_flatMap_four (fun _ => rfl), List.drop_eq_getElem_cons hi]
      rfl

section Link

variable (p : Params) (x : Context) (dir : Dir) (fl : Flags) (ident : BitVec 16) (pay : List Byte)

/-- After the MAC pair of 12 bytes come the tags, and after them the EtherType. -/
theorem drop_macs_frameBytes : ∃ rest, (frameBytes p x dir fl ident pay).drop 12 =
    tagBytes x.tags ++ (be16 x.etherType ++ rest) := by
  have hmacs : (beN (x.receiver dir).mac 6 ++ beN (x.sender dir).mac 6).length = 12 := by
    rw [List.length_append, length_beN, length_beN]
  simp only [frameBytes, linkHeader, List.append_assoc]
  rw [← List.append_assoc, List.drop_left' hmacs]
  exact ⟨_, rfl⟩

theorem drop_tag_frameBytes {i : Fin 15} (hi : i.val < x.vlanCnt.toNat) : ∃ rest,
    (frameBytes p x dir fl ident pay).drop (12 + 4 * i.val) =
      be16 (if i.val = 0 then 0x8100#16 else 0x9100#16) ++ (be16 (x.vlan.get i) ++ rest) := by
  have hlen : i.val < x.tags.length := by rwa [length_tags]
  obtain ⟨rest, hrest⟩ := drop_macs_frameBytes p x dir fl ident pay
  obtain ⟨rest', htag⟩ := drop_tagBytes hlen
  have hget : x.tags[i.val] = x.vlan.get i := by simp [Context.tags, Vector.get]
  rw [← List.drop_drop, hrest, List.drop_append_of_le_length (by rw [length_tagBytes]; omega), htag, hget,
    List.append_assoc, List.append_assoc]
  exact ⟨_, rfl⟩

theorem drop_etherType_frameBytes : ∃ rest,
    (frameBytes p x dir fl ident pay).drop (x.linkLen - 2) = be16 x.etherType ++ rest := by
  obtain ⟨rest, hrest⟩ := drop_macs_frameBytes p x dir fl ident pay
  have hlen : (tagBytes x.tags).length = 4 * x.vlanCnt.toNat := by rw [length_tagBytes, length_tags]
  have hoff : x.linkLen - 2 = 12 + 4 * x.vlanCnt.toNat := by unfold Context.linkLen; omega
  exact ⟨rest, by rw [hoff, ← List.drop_drop, hrest, List.drop_left' hlen]⟩

end Link

/-- Settles O18: the MAC pair stands first, then the tags, then the EtherType. -/
theorem linkHeaderFieldsAsSpecified : Obligations.LinkHeaderFieldsAsSpecified := by
  intro p x dir fl ident pay
  refine ⟨?dst, ?src, fun i hi => ?tag, ?etherType⟩
  case dst =>
    simp only [frameBytes, linkHeader, List.append_assoc]
    exact List.take_left' (length_beN ..)
  case src =>
    simp only [frameBytes, linkHeader, List.append_assoc]
    rw [slice, List.drop_left' (length_beN ..)]
    exact List.take_left' (length_beN ..)
  case tag =>
    obtain ⟨rest, htag⟩ := drop_tag_frameBytes p x dir fl ident pay hi
    constructor
    · rw [htag, be16dec_be16]
      split <;> rfl
    · rw [show 14 + 4 * i.val = 12 + 4 * i.val + 2 by omega, ← List.drop_drop, htag, List.drop_left' (length_be16 _),
        be16dec_be16]
  case etherType =>
    obtain ⟨rest, htype⟩ := drop_etherType_frameBytes p x dir fl ident pay
    rw [htype, be16dec_be16, Context.etherType]
    cases x.ipver with
    | v4 => rfl
    | v6 => rfl

/-! ### The network header (R160, R164) -/

theorem protocol_toNat (x : Context) :
    x.protocol.toNat = match x.transport with | .tcp => 6 | .udp => 17 := by
  unfold Context.protocol
  cases x.transport with
  | tcp => rfl
  | udp => rfl

/-- The identification is the top 16 bits of stream 4's next output (R111, R162). -/
theorem drawIdent_toNat {x : Context} (h : x.ipver = .v4) (s : State) :
    (drawIdent x s).1.toNat = (lcgNext s.params (s.gen.get 4)).toNat / 2 ^ 48 := by
  have hdraw : (drawIdent x s).1 = (lcgNext s.params (s.gen.get 4)).extractLsb' 48 16 := by
    simp [drawIdent, h, fieldDraw, draw]
  have := (lcgNext s.params (s.gen.get 4)).isLt
  rw [hdraw, BitVec.extractLsb'_toNat, Nat.shiftRight_eq_div_pow]
  omega

theorem addressBytes_v4 {x : Context} (h : x.ipver = .v4) (dir : Dir) :
    addressBytes x dir = be32 ((x.sender dir).addr.setWidth 32) ++ be32 ((x.receiver dir).addr.setWidth 32) := by
  rw [addressBytes, h]

theorem addressBytes_v6 {x : Context} (h : x.ipver = .v6) (dir : Dir) :
    addressBytes x dir = beN (x.sender dir).addr 16 ++ beN (x.receiver dir).addr 16 := by
  rw [addressBytes, h]

/-- The IPv4 header without the checksum is the delivered one with its bytes 10 and 11 at 0 (R160). -/
theorem ipv4Header_zeroed (p : Params) (x : Context) (dir : Dir) (ident : BitVec 16) (n : Nat) :
    (ipv4Header p x dir ident n).take 10 ++ [0#8, 0#8] ++ (ipv4Header p x dir ident n).drop 12 =
      ipv4HeaderWith p x dir ident n 0#16 := rfl

/-- Settles O19: the header is `ipv4Header`, each field read where it was written. -/
theorem ipv4HeaderFieldsAsSpecified : Obligations.Ipv4HeaderFieldsAsSpecified := by
  intro s x dir fl pay hv4 hlen
  have hip : x.ipHeaderLen = 20 := by rw [Context.ipHeaderLen, hv4]
  rw [overhead_eq_transportAt_add, Context.transportAt, hip] at hlen
  simp only [slice_ipv4Header s.params x dir fl _ pay hv4]
  refine ⟨rfl, rfl, ?total, ?ident, be16dec_be16 0#16 _, rfl, protocol_toNat x, ?checksum, ?src, ?dst⟩
  case total =>
    change be16dec (be16 _ ++ _) = 20 + x.transportHeaderLen + pay.length
    rw [be16dec_be16, BitVec.toNat_ofNat]
    omega
  case ident => exact (be16dec_be16 ..).trans (drawIdent_toNat hv4 s)
  case checksum =>
    rw [ipv4Header_zeroed]
    exact be16dec_be16 ..
  case src =>
    change be32dec (addressBytes x dir) = _
    rw [addressBytes_v4 hv4, be32dec_be32, BitVec.toNat_setWidth]
  case dst =>
    change be32dec ((addressBytes x dir).drop 4) = _
    rw [addressBytes_v4 hv4, List.drop_left' (length_be32 _), ← List.append_nil (be32 _), be32dec_be32,
      BitVec.toNat_setWidth]

theorem slice_ipv6Header (p : Params) {x : Context} (dir : Dir) (fl : Flags) (ident : BitVec 16) (pay : List Byte)
    (h : x.ipver = .v6) :
    slice (frameBytes p x dir fl ident pay) x.linkLen (x.linkLen + 40) = ipv6Header p x dir pay.length := by
  have hat : x.linkLen + 40 = x.transportAt := by rw [Context.transportAt, Context.ipHeaderLen, h]
  rw [hat, slice_networkHeader, networkHeader, h]

/-- Settles O20: the header is `ipv6Header`, each field read where it was written. -/
theorem ipv6HeaderFieldsAsSpecified : Obligations.Ipv6HeaderFieldsAsSpecified := by
  intro s x dir fl pay hv6 hlen
  have hip : x.ipHeaderLen = 40 := by rw [Context.ipHeaderLen, hv6]
  rw [overhead_eq_transportAt_add, Context.transportAt, hip] at hlen
  simp only [slice_ipv6Header s.params dir fl _ pay hv6]
  refine ⟨?noDraw, be32dec_be32 0x60000000#32 _, ?payloadLength, protocol_toNat x, rfl, ?src, ?dst⟩
  case noDraw => rw [drawIdent, hv6]
  case payloadLength =>
    change be16dec (be16 _ ++ _) = x.transportHeaderLen + pay.length
    rw [be16dec_be16, BitVec.toNat_ofNat]
    omega
  case src =>
    change (addressBytes x dir).take 16 = _
    rw [addressBytes_v6 hv6, List.take_left' (length_beN ..)]
  case dst =>
    change ((addressBytes x dir).drop 16).take 16 = _
    rw [addressBytes_v6 hv6, List.drop_left' (length_beN ..), List.take_of_length_le (length_beN ..).le]

/-! ### The transport header (R170, R177) -/

theorem ackNumber_toNat (x : Context) (dir : Dir) (fl : Flags) :
    (ackNumber x dir fl).toNat = if fl.syn then 0 else (x.receiver dir).seq.toNat := by
  unfold ackNumber
  cases fl.syn with
  | true => rfl
  | false => rfl

/-- The TCP segment without the checksum is the delivered one with its bytes 16 and 17 at 0 (R175). -/
theorem tcpSegment_zeroed (p : Params) (x : Context) (dir : Dir) (fl : Flags) (pay : List Byte) :
    (tcpSegment p x dir fl pay).take 16 ++ [0#8, 0#8] ++ (tcpSegment p x dir fl pay).drop 18 =
      tcpSegmentWith p x dir fl pay 0#16 := rfl

theorem drop_transportAt_add_frameBytes {x : Context} (h : x.transport = .tcp) (p : Params) (dir : Dir) (fl : Flags)
    (ident : BitVec 16) (pay : List Byte) (i : Nat) :
    (frameBytes p x dir fl ident pay).drop (x.transportAt + i) = (tcpSegment p x dir fl pay).drop i := by
  rw [← List.drop_drop, drop_transportAt_frameBytes, transportSegment, h]

/-- R175's range up to the checksum field: the addresses and the first 16 bytes of the segment. -/
theorem slice_to_tcpChecksum {x : Context} (h : x.transport = .tcp) (p : Params) (dir : Dir) (fl : Flags)
    (ident : BitVec 16) (pay : List Byte) :
    slice (frameBytes p x dir fl ident pay) (x.linkLen + addressesAt x.ipver) (x.transportAt + 16) =
      addressBytes x dir ++ (tcpSegment p x dir fl pay).take 16 := by
  have hlen : x.transportAt + 16 - (x.linkLen + addressesAt x.ipver) = (addressBytes x dir).length + 16 := by
    rw [length_addressBytes, Context.transportAt, Context.ipHeaderLen]
    unfold addressesAt
    cases x.ipver with
    | v4 => dsimp only; omega
    | v6 => dsimp only; omega
  rw [slice, drop_addressesAt_frameBytes p x dir fl ident pay h, hlen, List.take_length_add_append]

/-- Settles O21: the segment is `tcpSegment`, each field read where it was written. -/
theorem tcpHeaderFieldsAsSpecified : Obligations.TcpHeaderFieldsAsSpecified := by
  intro p x dir fl ident pay htcp f g a0 atField
  have hg : g = tcpSegment p x dir fl pay := drop_transportAt_add_frameBytes htcp p dir fl ident pay 0
  have ha0 : a0 = x.linkLen + addressesAt x.ipver := by
    unfold a0 addressesAt
    cases x.ipver <;> rfl
  have hafter : f.drop (atField + 2) = (tcpSegment p x dir fl pay).drop 18 :=
    drop_transportAt_add_frameBytes htcp p dir fl ident pay 18
  have hrange : slice f a0 atField ++ [0#8, 0#8] ++ f.drop (atField + 2) =
      addressBytes x dir ++ tcpSegmentWith p x dir fl pay 0#16 := by
    rw [ha0, slice_to_tcpChecksum htcp, hafter, ← tcpSegment_zeroed]
    simp only [List.append_assoc]
  rw [hrange, hg]
  exact ⟨be16dec_be16 .., be16dec_be16 .., be32dec_be32 .., (be32dec_be32 ..).trans (ackNumber_toNat x dir fl), rfl,
    rfl, be16dec_be16 .., be16dec_be16 .., be16dec_be16 0#16 _, rfl⟩

/-- Settles O22: the segment is `udpSegment`, each field read where it was written, and no flag reaches it. -/
theorem udpHeaderFieldsAsSpecified : Obligations.UdpHeaderFieldsAsSpecified := by
  intro p x dir fl fl' ident pay hudp hlen f g
  have hsegment (fl : Flags) : transportSegment p x dir fl pay = udpSegment x dir pay := by
    rw [transportSegment, hudp]
  have hg : g = udpSegment x dir pay := (drop_transportAt_frameBytes ..).trans (hsegment fl)
  have hth : x.transportHeaderLen = 8 := by rw [Context.transportHeaderLen, hudp]
  rw [overhead_eq_transportAt_add, hth] at hlen
  rw [hg]
  refine ⟨be16dec_be16 .., be16dec_be16 .., ?length, be16dec_be16 0#16 _, rfl, ?flags, ?context⟩
  case length =>
    change be16dec (be16 _ ++ _) = 8 + pay.length
    rw [be16dec_be16, BitVec.toNat_ofNat]
    omega
  case flags => unfold f; rw [frameBytes, frameBytes, hsegment, hsegment]
  case context => rw [Context.advance, hudp]

/-! ### The flag byte (R173) -/

/-- Settles O23: no sum of the flags' contributions reaches 2^8, for each of the sixteen flag sets. -/
theorem flagByteAndItsTable : Obligations.FlagByteAndItsTable := by
  refine ⟨fun fl => ?sum, by decide⟩
  obtain ⟨syn, synAck, fin, rst⟩ := fl
  revert syn synAck fin rst
  decide

/-! ### The record header (R182) -/

theorem emitRecord_ok {f : List Byte} {s t : State} (h : emitRecord f s = .ok t) :
    t = { s with
      clkUs := s.clkUs + s.delayUs
      out := s.out ++ recordBytes (s.clkUs + s.delayUs) f
      recCount := s.recCount + 1#64 } := by
  unfold emitRecord outAppend at h
  split at h
  · cases h
  · next u hu =>
    split at hu
    · cases hu
    · cases hu
      cases h
      rfl

/-- Settles O24: the header is four `le32` fields, and the append is made at the clock after the advance. -/
theorem recordHeaderFieldsAsSpecified : Obligations.RecordHeaderFieldsAsSpecified := by
  refine ⟨fun clk f hlen => ?_, fun f s t h => by rw [emitRecord_ok h]; exact ⟨rfl, rfl⟩⟩
  have hlength : (BitVec.ofNat 32 f.length).toNat = f.length := by rw [BitVec.toNat_ofNat, Nat.mod_eq_of_lt hlen]
  refine ⟨?seconds, ?microseconds, ?captured, ?original, rfl⟩
  case seconds => exact (le32dec_le32 ..).trans (BitVec.toNat_ofNat ..)
  case microseconds =>
    have hlt : clk.toNat % 1000000 < 2 ^ 32 := by omega
    exact (le32dec_le32 (BitVec.ofNat 32 (clk.toNat % 1000000)) _).trans
      (by rw [BitVec.toNat_ofNat, Nat.mod_eq_of_lt hlt])
  case captured => exact (le32dec_le32 (BitVec.ofNat 32 f.length) _).trans hlength
  case original => exact (le32dec_le32 (BitVec.ofNat 32 f.length) _).trans hlength

end Sys2Proof.Proofs

/-! Segmentation and the emissions of the payload commands (O25, O26, O28 to O31, O58): R152 to R155, R171, R172, R181
to R186. -/

namespace Sys2Proof.Proofs

open Sys2Proof Sys2Proof.Machine Sys2Proof.Laws

/-! ### Segmentation (R153, R154) -/

/-- The chunks of `a·k + r` bytes: `a` full ones, and then one of `r` bytes (R153). -/
theorem chunks_of_length {k a r : Nat} (hpos : 1 ≤ r) (hle : r ≤ k) {data : List Byte}
    (hlen : data.length = a * k + r) : ∃ pays last, chunks k data = pays ++ [last] ∧ pays.length = a ∧
      (∀ pay ∈ pays, pay.length = k) ∧ last.length = r := by
  have hk : 0 < k := by omega
  induction a generalizing data with
  | zero =>
    have hfit : data.length ≤ k := by omega
    rw [chunks_cons k hk data (List.ne_nil_of_length_pos (by omega)), List.drop_of_length_le hfit,
      List.take_of_length_le hfit, chunks_nil k hk]
    exact ⟨[], data, rfl, rfl, by simp, by omega⟩
  | succ a ih =>
    rw [Nat.succ_mul] at hlen
    have hrest : (data.drop k).length = a * k + r := by rw [List.length_drop]; omega
    obtain ⟨pays, last, hchunks, hcount, hfull, hlast⟩ := ih hrest
    rw [chunks_cons k hk data (List.ne_nil_of_length_pos (by omega)), hchunks]
    refine ⟨data.take k :: pays, last, rfl, by rw [List.length_cons, hcount], ?_, hlast⟩
    rw [List.forall_mem_cons]
    exact ⟨List.length_take_of_le (by omega), hfull⟩

theorem segments_of_lt {oh m : Nat} {data : List Byte} (hoh : oh < m) (hm : m < oh + data.length) :
    segments oh m data = .ok (chunks (m - oh) data) := by
  rw [segments, if_neg (by omega), if_neg (by omega)]

/-- Settles O25: `n` bytes are `((n - 1) / k)·k` and between 1 and `k` more. -/
theorem segmentationCutsFullChunksFirst : Obligations.SegmentationCutsFullChunksFirst := by
  intro oh m data hoh hm
  have hk : 0 < m - oh := by omega
  have hmod := Nat.mod_lt (data.length - 1) hk
  have hlen : data.length = (data.length - 1) / (m - oh) * (m - oh) + ((data.length - 1) % (m - oh) + 1) := by
    have := Nat.div_add_mod' (data.length - 1) (m - oh)
    omega
  obtain ⟨pays, last, hchunks, hcount, hfull, hlast⟩ := chunks_of_length (by omega) (by omega) hlen
  rw [← hlast, ← hcount] at hlen
  refine ⟨pays, last, by rw [segments_of_lt hoh hm, hchunks], ?count, hfull, by omega, by omega, by omega, ?flatten⟩
  case count => rw [← hchunks, length_chunks]
  case flatten => rw [← hchunks, flatten_chunks _ hk]

/-- Settles O26: `j·k` bytes are `j - 1` full chunks and a last one of `k` bytes, and `k + 1` bytes a full chunk and one
byte more. -/
theorem segmentationCornerCases : Obligations.SegmentationCornerCases := by
  intro oh m data
  refine ⟨segments_nil, fun j hj hoh hlen => ?multiple, fun hoh hlen => ?oneMore, fun hoh hm => ?impossible,
    segments_nil (Nat.le_refl oh)⟩
  case multiple =>
    obtain ⟨a, rfl⟩ := Nat.exists_eq_add_of_le' (show 1 ≤ j by omega)
    have hm : m - oh ≤ a * (m - oh) := Nat.le_mul_of_pos_left _ (by omega)
    rw [Nat.mul_comm, Nat.succ_mul] at hlen
    obtain ⟨pays, last, hchunks, hcount, hfull, hlast⟩ := chunks_of_length (by omega) (Nat.le_refl _) hlen
    refine ⟨pays ++ [last], by rw [segments_of_lt hoh (by omega), hchunks], by simp [hcount], ?_⟩
    rw [List.forall_mem_append, List.forall_mem_singleton]
    exact ⟨hfull, hlast⟩
  case oneMore =>
    obtain ⟨pays, last, hchunks, hcount, hfull, hlast⟩ :=
      chunks_of_length (k := m - oh) (a := 1) (data := data) (Nat.le_refl 1) (by omega) (by omega)
    obtain ⟨pay, rfl⟩ := List.length_eq_one_iff.1 hcount
    exact ⟨pay, last, by rw [segments_of_lt hoh (by omega), hchunks]; rfl, hfull pay List.mem_cons_self, hlast⟩
  case impossible => rw [segments, if_neg (by omega), if_pos hoh]

/-! ### The frames of an emission (R155, R171, R172) -/

@[simp] theorem advance_transportAt (x : Context) (dir : Dir) (fl : Flags) (n : Nat) :
    (x.advance dir fl n).transportAt = x.transportAt := by
  unfold Context.advance
  cases x.transport <;> cases dir <;> rfl

/-- Where a frame's fields are found does not change from frame to frame. -/
@[simp] theorem advance_frameSeq (x : Context) (dir : Dir) (fl : Flags) (n : Nat) :
    (x.advance dir fl n).frameSeq = x.frameSeq := by
  funext f
  rw [Context.frameSeq, Context.frameSeq, advance_transportAt]

@[simp] theorem advance_frameAck (x : Context) (dir : Dir) (fl : Flags) (n : Nat) :
    (x.advance dir fl n).frameAck = x.frameAck := by
  funext f
  rw [Context.frameAck, Context.frameAck, advance_transportAt]

@[simp] theorem advance_frameFlags (x : Context) (dir : Dir) (fl : Flags) (n : Nat) :
    (x.advance dir fl n).frameFlags = x.frameFlags := by
  funext f
  rw [Context.frameFlags, Context.frameFlags, advance_transportAt]

@[simp] theorem advance_framePayload (x : Context) (dir : Dir) (fl : Flags) (n : Nat) :
    (x.advance dir fl n).framePayload = x.framePayload := by
  funext f
  rw [Context.framePayload, Context.framePayload, overhead_advance]

/-- A frame moves its sender's sequence number alone (R172). -/
@[simp] theorem advance_receiver (x : Context) (dir : Dir) (fl : Flags) (n : Nat) :
    (x.advance dir fl n).receiver dir = x.receiver dir := by
  unfold Context.advance
  cases x.transport <;> cases dir <;> rfl

theorem advance_sender_seq {x : Context} (h : x.transport = .tcp) (dir : Dir) (fl : Flags) (n : Nat) :
    ((x.advance dir fl n).sender dir).seq = seqAfter (x.sender dir).seq fl n := by
  rw [Context.advance, h]
  cases dir <;> rfl

theorem seqAfter_toNat (seq : Word) (fl : Flags) (n : Nat) :
    (seqAfter seq fl n).toNat = (seq.toNat + n + seqIncrement fl) % 2 ^ 32 := by
  simp only [seqAfter, BitVec.toNat_add, BitVec.toNat_ofNat]
  omega

section Fields

variable {x : Context} (htcp : x.transport = .tcp) (p : Params) (dir : Dir) (fl : Flags) (ident : BitVec 16)
  (pay : List Byte)

include htcp

theorem frameSeq_frameBytes : x.frameSeq (frameBytes p x dir fl ident pay) = (x.sender dir).seq.toNat := by
  rw [Context.frameSeq, drop_transportAt_add_frameBytes htcp]
  exact be32dec_be32 ..

theorem frameAck_frameBytes : x.frameAck (frameBytes p x dir fl ident pay) = (ackNumber x dir fl).toNat := by
  rw [Context.frameAck, drop_transportAt_add_frameBytes htcp]
  exact be32dec_be32 ..

theorem frameFlags_frameBytes : x.frameFlags (frameBytes p x dir fl ident pay) = (flagByte fl).toNat := by
  rw [Context.frameFlags, ← byteAt_drop, drop_transportAt_frameBytes, transportSegment, htcp]
  rfl

end Fields

section Frames

variable {c : CtxIdx} {dir : Dir} {fl : Flags}

@[simp] theorem framePayload_frameOf (pay : List Byte) (s : State) :
    (s.ctx c).framePayload (frameOf c dir fl pay s) = pay :=
  framePayload_frameBytes ..

@[simp] theorem length_framesFor (pays : List (List Byte)) (s : State) :
    (framesFor c dir fl pays s).length = pays.length := by
  induction pays generalizing s with
  | nil => rfl
  | cons pay rest ih => exact congrArg (· + 1) (ih _)

/-- The frames' payload fields are the chunks, in order (R186). -/
theorem map_framePayload_framesFor (pays : List (List Byte)) (s : State) :
    (framesFor c dir fl pays s).map (s.ctx c).framePayload = pays := by
  induction pays generalizing s with
  | nil => rfl
  | cons pay rest ih =>
    have hrest := ih (afterFrame c dir fl pay s)
    rw [afterFrame_ctx, advance_framePayload] at hrest
    rw [framesFor, List.map_cons, framePayload_frameOf, hrest]

/-- What holds of the next frame of a context, and of its later frames as of those of the context it becomes, holds of
every frame of an emission. -/
theorem forall_mem_framesFor {P : Context → List Byte → Prop}
    (hframe : ∀ (pay : List Byte) (s : State), P (s.ctx c) (frameOf c dir fl pay s))
    (hadvance : ∀ x n f, P (x.advance dir fl n) f → P x f) {pays : List (List Byte)} {s : State} :
    ∀ f ∈ framesFor c dir fl pays s, P (s.ctx c) f := by
  induction pays generalizing s with
  | nil => exact fun f hf => absurd hf List.not_mem_nil
  | cons pay rest ih =>
    rw [framesFor, List.forall_mem_cons]
    exact ⟨hframe pay s, fun f hf => hadvance _ _ f (afterFrame_ctx c dir fl pay s ▸ ih f hf)⟩

theorem length_mem_framesFor {pays : List (List Byte)} {s : State} : ∀ f ∈ framesFor c dir fl pays s,
    f.length = (s.ctx c).overhead + ((s.ctx c).framePayload f).length := by
  apply forall_mem_framesFor (P := fun x f => f.length = x.overhead + (x.framePayload f).length)
  · intro pay s
    rw [length_frameOf, framePayload_frameOf]
  · intro x n f h
    rwa [overhead_advance, advance_framePayload] at h

theorem frameFlags_mem_framesFor {pays : List (List Byte)} {s : State} (htcp : (s.ctx c).transport = .tcp) :
    ∀ f ∈ framesFor c dir fl pays s, (s.ctx c).frameFlags f = (flagByte fl).toNat := by
  refine fun f hf => forall_mem_framesFor
    (P := fun x f => x.transport = .tcp → x.frameFlags f = (flagByte fl).toNat) ?_ ?_ f hf htcp
  · exact fun pay s h => frameFlags_frameBytes h ..
  · intro x n f h
    rwa [advance_transport, advance_frameFlags] at h

/-- The receiver does not move, so every frame acknowledges the same number (R171). -/
theorem frameAck_mem_framesFor {pays : List (List Byte)} {s : State} (htcp : (s.ctx c).transport = .tcp) :
    ∀ f ∈ framesFor c dir fl pays s, (s.ctx c).frameAck f = (ackNumber (s.ctx c) dir fl).toNat := by
  refine fun f hf => forall_mem_framesFor
    (P := fun x f => x.transport = .tcp → x.frameAck f = (ackNumber x dir fl).toNat) ?_ ?_ f hf htcp
  · exact fun pay s h => frameAck_frameBytes h ..
  · intro x n f h
    rwa [advance_transport, advance_frameAck, ackNumber, advance_receiver] at h

/-- The first frame carries the sender's sequence number (R170). -/
theorem frameSeq_head_framesFor {pays : List (List Byte)} {s : State} (htcp : (s.ctx c).transport = .tcp)
    {f : List Byte} (hf : (framesFor c dir fl pays s)[0]? = some f) :
    (s.ctx c).frameSeq f = ((s.ctx c).sender dir).seq.toNat := by
  cases pays with
  | nil => cases hf
  | cons pay rest =>
    cases hf
    exact frameSeq_frameBytes htcp ..

/-- Each frame's sequence number is the one before, past its payload and the flags' increment (R172). -/
theorem frameSeq_succ_framesFor {pays : List (List Byte)} {s : State} (htcp : (s.ctx c).transport = .tcp) {j : Nat}
    {f g : List Byte} (hf : (framesFor c dir fl pays s)[j]? = some f)
    (hg : (framesFor c dir fl pays s)[j + 1]? = some g) :
    (s.ctx c).frameSeq g =
      ((s.ctx c).frameSeq f + ((s.ctx c).framePayload f).length + seqIncrement fl) % 2 ^ 32 := by
  induction pays generalizing s j with
  | nil => cases hf
  | cons pay rest ih =>
    rw [framesFor, List.getElem?_cons_succ] at hg
    have hnext : ((afterFrame c dir fl pay s).ctx c).transport = .tcp := by
      rw [afterFrame_ctx, advance_transport, htcp]
    cases j with
    | zero =>
      have hhead := frameSeq_head_framesFor hnext hg
      rw [afterFrame_ctx, advance_frameSeq, advance_sender_seq htcp, seqAfter_toNat] at hhead
      cases hf
      rw [hhead, framePayload_frameOf, frameOf, frameSeq_frameBytes htcp]
    | succ j =>
      rw [framesFor, List.getElem?_cons_succ] at hf
      have hrest := ih hnext hf hg
      rwa [afterFrame_ctx, advance_frameSeq, advance_framePayload] at hrest

end Frames

/-! ### The payload commands -/

/-- Where a payload command completes, the bytes it appends split into the frames of the payload's chunks (R186,
R200). -/
theorem exec_emitsPayload_frames {i : Instr} {c : CtxIdx} {dir : Dir} {fl : Flags} {s : State}
    (hi : i.emitsPayload c dir fl) (hc : c.val < s.params.nctx) (hlen : s.plen.toNat ≤ s.params.payloadMax)
    (hest : (s.ctx c).lstate = .established) (hcar : carries (s.ctx c) s.plen.toNat)
    (hroom : s.room (frameCount (s.ctx c).overhead (s.ctx c).mtu.toNat s.plen.toNat * (16 + (s.ctx c).overhead)
      + s.plen.toNat)) :
    ∃ t pays, exec i s = .next t ∧ segments (s.ctx c).overhead (s.ctx c).mtu.toNat s.payload = .ok pays ∧
      framesOf (t.out.drop s.out.length) = some (framesFor c dir fl pays s) := by
  obtain ⟨pays, hseg, hexec⟩ := exec_emitsPayload_room hi hc hlen hest hcar hroom
  obtain ⟨recs, hout, -, hframes⟩ := afterFrames_out c dir fl pays s (frame_small_of_segments hseg)
  refine ⟨_, pays, hexec, hseg, ?_⟩
  rw [complete_out, hout, List.drop_left, hframes]

/-- Settles O28: the frames carry the payload's chunks, one each. -/
theorem emittedFramesCarryThePayload : Obligations.EmittedFramesCarryThePayload := by
  intro i c dir fl s hi hc hlen hest hcar hroom
  obtain ⟨t, pays, hexec, hseg, hframes⟩ := exec_emitsPayload_frames hi hc hlen hest hcar hroom
  obtain ⟨hflat, hfit, hcount, -⟩ := segments_ok hseg
  have hmap := map_framePayload_framesFor (c := c) (dir := dir) (fl := fl) pays s
  refine ⟨t, _, hexec, hframes, ?count, fun f hf => ?mtu, by rw [hmap, hflat]⟩
  case count =>
    rw [length_framesFor, hcount, length_payload, frameCount]
    split
    · rw [if_neg (by omega)]
    · rw [if_pos (by omega)]
  case mtu =>
    rw [length_mem_framesFor f hf]
    exact hfit _ (hmap ▸ List.mem_map_of_mem hf)

/-- Settles O29: the fields of the frames of the payload's chunks. -/
theorem everySegmentRepeatsTheFlags : Obligations.EverySegmentRepeatsTheFlags := by
  intro i c dir fl s hi hc hlen hest htcp hcar hroom
  obtain ⟨t, pays, hexec, -, hframes⟩ := exec_emitsPayload_frames hi hc hlen hest hcar hroom
  refine ⟨t, _, hexec, hframes, fun f hf => ⟨frameFlags_mem_framesFor htcp f hf, ?ack⟩, fun f hf => ?first,
    fun j f g hf hg => frameSeq_succ_framesFor htcp hf hg⟩
  case ack => rw [frameAck_mem_framesFor htcp f hf, ackNumber_toNat]
  case first => exact frameSeq_head_framesFor htcp (by rwa [← List.head?_eq_getElem?])

/-- Settles O58: chunk `j` follows `j` chunks of `k` bytes, so its frame is made on the context they left. -/
theorem emittedRecordsInOrder : Obligations.EmittedRecordsInOrder := by
  intro i c dir fl s hi hc hlen hest hcar hroom
  obtain ⟨pays, hseg, hexec⟩ := exec_emitsPayload_room hi hc hlen hest hcar hroom
  obtain ⟨-, -, hcount, -⟩ := segments_ok hseg
  rw [length_payload] at hcount
  refine ⟨_, hexec, ?_⟩
  dsimp only
  rw [complete_out, afterFrames_records, ← hcount]
  congr 1
  refine List.flatMap_congr fun j hj => ?_
  obtain ⟨hpay, hbefore⟩ := segments_getD hseg (List.mem_range.1 hj)
  rw [length_payload] at hpay hbefore
  rw [hpay, hbefore]

/-- Settles O30: a payload that fits is one chunk, and its frame is `afterFrame`. -/
theorem oneFrameEmissionInFull : Obligations.OneFrameEmissionInFull := by
  intro i c dir fl s hi hc hlen hest hfit hroom
  have hcount : frameCount (s.ctx c).overhead (s.ctx c).mtu.toNat s.plen.toNat = 1 := if_pos hfit
  obtain ⟨pays, hseg, hexec⟩ :=
    exec_emitsPayload_room hi hc hlen hest (.inl hfit) (by rwa [hcount, Nat.one_mul])
  rw [segments, length_payload, if_pos hfit] at hseg
  cases hseg
  rw [hexec, ← length_payload]
  rfl

/-- Two commands that run the same operation differ in the opcode that `STATUS` records, and in nothing else (R36,
R213). -/
theorem finish_opc (o o' : Byte) (s : State) (r : Except FaultCode State) : ∃ a b,
    finish o s r = .next a ∧ finish o' s r = .next b ∧ a = { b with status := a.status } ∧
      statusCode a.status = statusCode b.status ∧ statusSticky a.status = statusSticky b.status := by
  cases r with
  | ok t =>
    refine ⟨t.complete o, t.complete o', rfl, rfl, rfl, ?_⟩
    simp only [complete_status, statusOk, statusCode_statusWord, statusSticky_statusWord, and_self]
  | error e =>
    refine ⟨s.raise o e, s.raise o' e, rfl, rfl, rfl, ?_⟩
    simp only [raise_status, statusFault, statusCode_statusWord, statusSticky_statusWord, and_self]

/-- Settles O31: without flags BUILD runs what EMIT_CLIENT and EMIT_SERVER run, under its own opcode. -/
theorem buildWithoutFlagsIsEmit : Obligations.BuildWithoutFlagsIsEmit := by
  intro c s
  obtain ⟨a, b, ha, hb, hframe, hcode, hsticky⟩ :=
    finish_opc 0x15#8 0x11#8 s (withCtx c s (emitPayload c .client .none s))
  obtain ⟨u, v, hu, hv, hserver⟩ := finish_opc 0x15#8 0x12#8 s (withCtx c s (emitPayload c .server .none s))
  exact ⟨a, b, u, v, ha, hb, hu, hv, hframe, hcode, hsticky, hserver⟩

end Sys2Proof.Proofs

/-! The session family (O51, O8 to O12): every step keeps the container splitting into its records (R200), and what each
session command does (R195 to R199). -/

namespace Sys2Proof.Proofs

open Sys2Proof Sys2Proof.Machine Sys2Proof.Laws

/-! ### The container property -/

/-- The container property speaks of `OUT` and `REC_COUNT` only: the header is always its 24 bytes (R199). -/
theorem containerSplits_iff {s : State} : s.containerSplits ↔
    ∃ fs, framesOf s.out = some fs ∧ BitVec.ofNat 64 fs.length = s.recCount ∧ ∀ f ∈ fs, f.length ≤ 0xFFFF := by
  have hlen : globalHeader.length = 24 := rfl
  have hdrop : s.container.drop 24 = s.out := List.drop_left (l₁ := globalHeader)
  have hcontainer : s.container.length = 24 + s.out.length := by rw [State.container, List.length_append, hlen]
  rw [State.containerSplits, hdrop]
  exact and_iff_right hcontainer

theorem containerSplits_of_unchanged {s t : State} (h : s.containerSplits) (hout : t.out = s.out)
    (hcount : t.recCount = s.recCount) : t.containerSplits := by
  rw [containerSplits_iff] at h ⊢
  rwa [hout, hcount]

/-- An empty `OUT` with no record counted splits into no frame. -/
theorem containerSplits_of_empty {s : State} (hout : s.out = []) (hcount : s.recCount = 0#64) : s.containerSplits :=
  containerSplits_iff.2 ⟨[], by rw [hout, framesOf_nil], hcount.symm, fun _ hf => absurd hf List.not_mem_nil⟩

/-- Records appended to `OUT`, each counted and within the snap length, keep the property. -/
theorem containerSplits_append {s t : State} {recs : List Byte} {fs : List (List Byte)} (h : s.containerSplits)
    (hout : t.out = s.out ++ recs) (hframes : framesOf recs = some fs)
    (hcount : t.recCount = s.recCount + BitVec.ofNat 64 fs.length) (hsnap : ∀ f ∈ fs, f.length ≤ 0xFFFF) :
    t.containerSplits := by
  rw [containerSplits_iff] at h ⊢
  obtain ⟨gs, hgs, hrec, hle⟩ := h
  refine ⟨gs ++ fs, ?_, ?_, List.forall_mem_append.2 ⟨hle, hsnap⟩⟩
  · rw [hout]
    exact framesOf_append hgs hframes
  · rw [hcount, ← hrec, List.length_append, BitVec.ofNat_add]

/-! ### The emissions -/

/-- A command's part that keeps the container property where it completes. -/
def KeepsSplitting (f : State → Except FaultCode State) : Prop :=
  ∀ s u, s.containerSplits → f s = .ok u → u.containerSplits

/-- A frame of an emission is no longer than the MTU, which is a 16-bit field (R26, R152). -/
theorem length_mem_framesFor_le {c : CtxIdx} {dir : Dir} {fl : Flags} {data : List Byte} {pays : List (List Byte)}
    {s : State} (h : segments (s.ctx c).overhead (s.ctx c).mtu.toNat data = .ok pays) :
    ∀ f ∈ framesFor c dir fl pays s, f.length ≤ 0xFFFF := by
  intro f hf
  obtain ⟨-, hfit, -, -⟩ := segments_ok h
  have hpay : (s.ctx c).framePayload f ∈ pays := map_framePayload_framesFor pays s ▸ List.mem_map_of_mem hf
  calc f.length = (s.ctx c).overhead + ((s.ctx c).framePayload f).length := length_mem_framesFor f hf
    _ ≤ (s.ctx c).mtu.toNat := hfit _ hpay
    _ ≤ 0xFFFF := Nat.le_of_lt_succ (s.ctx c).mtu.isLt

theorem emit_keepsSplitting {c : CtxIdx} {dir : Dir} {fl : Flags} {data : List Byte} :
    KeepsSplitting (emit c dir fl data) := by
  intro s u hs h
  obtain ⟨pays, hseg, rfl⟩ := emit_ok h
  obtain ⟨recs, hout, -, hframes⟩ := afterFrames_out c dir fl pays s (frame_small_of_segments hseg)
  exact containerSplits_append hs hout hframes (by rw [afterFrames_recCount, length_framesFor])
    (length_mem_framesFor_le hseg)

theorem KeepsSplitting.andThen {f g : State → Except FaultCode State} (hf : KeepsSplitting f) (hg : KeepsSplitting g) :
    KeepsSplitting (fun s => andThen (f s) g) := by
  intro s u hs h
  obtain ⟨v, hv, hu⟩ := andThen_ok.1 h
  exact hg v u (hf s v hs hv) hu

theorem handshake_keepsSplitting (c : CtxIdx) : KeepsSplitting (handshake c) :=
  (emit_keepsSplitting.andThen emit_keepsSplitting).andThen emit_keepsSplitting

theorem closeFrames_keepsSplitting (c : CtxIdx) : KeepsSplitting (closeFrames c) :=
  (emit_keepsSplitting.andThen emit_keepsSplitting).andThen emit_keepsSplitting

/-! ### The connection commands -/

section Connection

variable (c : CtxIdx)

theorem setLstate_containerSplits {s : State} (h : s.containerSplits) (l : LState) :
    (s.setLstate c l).containerSplits :=
  containerSplits_of_unchanged h rfl rfl

/-- The lifecycle state around an emission of a command (R125, R133, R135). -/
theorem KeepsSplitting.between {f : State → Except FaultCode State} (hf : KeepsSplitting f) (l l' : LState) :
    KeepsSplitting (fun s => Machine.andThen (f (s.setLstate c l)) fun t => .ok (t.setLstate c l')) := by
  intro s u hs h
  obtain ⟨v, hv, hend⟩ := andThen_ok.1 h
  cases hend
  exact setLstate_containerSplits c (hf _ v (setLstate_containerSplits c hs l) hv) l'

theorem openContext_keepsSplitting : KeepsSplitting (openContext c) := by
  intro s u hs h
  have hload : ((newContext s).2.setCtx c (newContext s).1).containerSplits :=
    containerSplits_of_unchanged hs (newContext_out s) (newContext_recCount s)
  cases ht : (newContext s).1.transport with
  | tcp =>
    rw [openContext_tcp ht] at h
    exact (handshake_keepsSplitting c).between c .handshaking .established _ u hload h
  | udp =>
    rw [openContext_udp ht] at h
    cases h
    exact setLstate_containerSplits c hload .established

theorem createContext_keepsSplitting : KeepsSplitting (createContext c) :=
  fun s u hs h => openContext_keepsSplitting c s u hs (createContext_ok h).2

theorem emitPayload_keepsSplitting (dir : Dir) (fl : Flags) : KeepsSplitting (emitPayload c dir fl) :=
  fun s u hs h => emit_keepsSplitting s u hs (emitPayload_ok h)

theorem closeContext_keepsSplitting : KeepsSplitting (closeContext c) := by
  intro s u hs h
  have hest := (closeContext_closes h).established
  cases ht : (s.ctx c).transport with
  | tcp =>
    rw [closeContext_tcp hest ht] at h
    exact (closeFrames_keepsSplitting c).between c .closing .closed s u hs h
  | udp =>
    rw [closeContext_udp hest ht] at h
    cases h
    exact setLstate_containerSplits c hs .closed

theorem resetContext_keepsSplitting : KeepsSplitting (resetContext c) := by
  intro s u hs h
  have hest := (resetContext_closes h).established
  cases ht : (s.ctx c).transport with
  | tcp =>
    rw [resetContext_tcp hest ht] at h
    exact emit_keepsSplitting.between c .reset .closed s u hs h
  | udp =>
    rw [resetContext_udp hest ht] at h
    cases h
    exact setLstate_containerSplits c hs .closed

theorem KeepsSplitting.withCtx {f : State → Except FaultCode State} (hf : KeepsSplitting f) :
    KeepsSplitting (fun s => withCtx c s (f s)) :=
  fun s u hs h => hf s u hs (withCtx_ok.1 h).2

end Connection

/-! ### Every command and every host move -/

/-- A command keeps the property however it ends, completed or faulted: neither writes `OUT` (R213). -/
theorem KeepsSplitting.finish {f : State → Except FaultCode State} (hf : KeepsSplitting f) {o : Byte} {s t : State}
    (hs : s.containerSplits) (h : finish o s (f s) = .next t) : t.containerSplits := by
  rcases finish_cases h with ⟨u, hu, rfl⟩ | ⟨e, -, rfl⟩
  · exact containerSplits_of_unchanged (hf s u hs hu) rfl rfl
  · exact containerSplits_of_unchanged hs rfl rfl

theorem newSession_containerSplits (s : State) : s.newSession.containerSplits :=
  containerSplits_of_empty (newSession_out s) rfl

theorem exec_containerSplits {i : Instr} {s t : State} (hs : s.containerSplits) (h : exec i s = .next t) :
    t.containerSplits := by
  cases i with
  | sessionInit =>
    rcases finish_cases h with ⟨u, hu, rfl⟩ | ⟨e, -, rfl⟩
    · split at hu
      · cases hu
      · cases hu
        exact containerSplits_of_unchanged (newSession_containerSplits s) rfl rfl
    · exact containerSplits_of_unchanged hs rfl rfl
  | seed | draw | insertDelay | render =>
    cases h
    exact containerSplits_of_unchanged hs rfl rfl
  | create c => exact ((createContext_keepsSplitting c).withCtx c).finish hs h
  | emitClient c => exact ((emitPayload_keepsSplitting c .client .none).withCtx c).finish hs h
  | emitServer c => exact ((emitPayload_keepsSplitting c .server .none).withCtx c).finish hs h
  | close c => exact ((closeContext_keepsSplitting c).withCtx c).finish hs h
  | reset c => exact ((resetContext_keepsSplitting c).withCtx c).finish hs h
  | build c dir fl => exact ((emitPayload_keepsSplitting c dir fl).withCtx c).finish hs h

theorem issue_containerSplits {w : Word} {s t : State} (hs : s.containerSplits) (h : issue w s = .next t) :
    t.containerSplits := by
  unfold issue at h
  split at h
  · exact exec_containerSplits hs h
  · cases h
    exact containerSplits_of_unchanged hs rfl rfl

theorem write_out (r : Reg) (v : BitVec 128) (s : State) : (r.write v s).out = s.out := by cases r <;> rfl

theorem write_recCount (r : Reg) (v : BitVec 128) (s : State) : (r.write v s).recCount = s.recCount := by
  cases r <;> rfl

/-- Of the host's moves, only a command and the reset input write `OUT` or `REC_COUNT` (R34, R44, R62, R230). -/
theorem hostMove_out {m : HostMove} {s t : State} (h : hostMove m s = .next t) :
    (∃ w, issue w s = .next t) ∨ (t.out = [] ∧ t.recCount = 0#64) ∨ (t.out = s.out ∧ t.recCount = s.recCount) := by
  cases m with
  | write addr n v =>
    rcases hostWrite_cases h with ⟨-, hissue⟩ | ⟨r, rfl⟩ | rfl
    · exact .inl ⟨_, hissue⟩
    · exact .inr (.inr ⟨write_out r v s, write_recCount r v s⟩)
    · exact .inr (.inr ⟨rfl, rfl⟩)
  | read addr n =>
    rw [hostRead_next h]
    exact .inr (.inr ⟨rfl, rfl⟩)
  | writePbuf a b =>
    simp only [hostMove] at h
    split at h
    · cases h
      exact .inr (.inr ⟨rfl, rfl⟩)
    · cases h
  | readPbuf a =>
    rw [hostMove_readPbuf_next h]
    exact .inr (.inr ⟨rfl, rfl⟩)
  | readOut a =>
    cases h
    exact .inr (.inr ⟨rfl, rfl⟩)
  | reset =>
    cases h
    exact .inr (.inl ⟨rfl, rfl⟩)

theorem hostMove_containerSplits {m : HostMove} {s t : State} (hs : s.containerSplits) (h : hostMove m s = .next t) :
    t.containerSplits := by
  rcases hostMove_out h with ⟨w, hissue⟩ | ⟨hout, hcount⟩ | ⟨hout, hcount⟩
  · exact issue_containerSplits hs hissue
  · exact containerSplits_of_empty hout hcount
  · exact containerSplits_of_unchanged hs hout hcount

/-- Settles O51: the records of an emission are counted one by one and each splits into its frame, and no other move
writes `OUT` but to empty it. -/
theorem everyStepKeepsTheContainerSplitting : Obligations.EveryStepKeepsTheContainerSplitting := by
  intro s t hs h
  unfold step at h
  split at h
  · cases h
    exact hs
  · next m rest _ =>
    exact hostMove_containerSplits (s := { s with moves := rest }) (containerSplits_of_unchanged hs rfl rfl) h

/-! ### The session commands -/

section Session

variable (s : State)

/-- The clock at the start of a session does not wrap: both counts are 32-bit (R195). -/
theorem newSession_clkUs_toNat : s.newSession.clkUs.toNat = s.cfgTsSec.toNat * 1000000 + s.cfgTsUsec.toNat := by
  have hsec := s.cfgTsSec.isLt
  have husec := s.cfgTsUsec.isLt
  rw [State.newSession, BitVec.toNat_add, BitVec.toNat_mul, BitVec.toNat_setWidth, BitVec.toNat_setWidth]
  simp only [BitVec.toNat_ofNat]
  omega

theorem exec_sessionInit_valid (h : s.cfgTsUsec.toNat < 1000000) :
    exec .sessionInit s = .next (s.newSession.complete 0x01#8) := by
  rw [exec, execSessionInit, if_neg (Nat.not_le.2 h), finish]

theorem exec_sessionInit_invalid (h : 1000000 ≤ s.cfgTsUsec.toNat) :
    exec .sessionInit s = .next (s.raise 0x01#8 .optionInvalid) := by
  rw [exec, execSessionInit, if_pos h, finish]

end Session

/-- What reset leaves is already a session's start, so that SESSION_INIT writes STATUS alone (R195, R230). -/
theorem newSession_reset : State.reset.newSession = State.reset := rfl

theorem statusOk_sessionInit_reset : statusOk State.reset.status 0x01#8 = 0x00010000#32 := by decide

/-- Settles O8: a valid timestamp leads to `newSession`, which is the reset state where that is what it starts from. -/
theorem sessionInitStartsASession : Obligations.SessionInitStartsASession := by
  intro s
  refine ⟨fun h => ⟨_, exec_sessionInit_valid s h, newSession_clkUs_toNat s, rfl, newSession_out s, rfl, rfl,
    fun c => ?ctx, fun _ => rfl, ?status, ?rest⟩, exec_sessionInit_invalid s, ?reset⟩
  case ctx => rw [ctx_complete, newSession_ctx]
  case status => rw [complete_status, newSession_status]
  case rest => rw [State.complete, State.newSession]
  case reset =>
    rintro rfl
    have hvalid : State.reset.cfgTsUsec.toNat < 1000000 := by decide
    rw [exec_sessionInit_valid _ hvalid, newSession_reset, State.complete, statusOk_sessionInit_reset]

/-- A slot after a write of a slot, the slot read first. -/
theorem get_set_eq_ite {α : Type} {n : Nat} (v : Vector α n) (i j : Fin n) (x : α) :
    (v.set i.val x i.isLt).get j = if j = i then x else v.get j := by
  rw [vector_get_set]
  simp only [eq_comm]

/-- Settles O9: a stream's seed and its state are each one slot of a register file (R196). -/
theorem seedRestartsOneStream : Obligations.SeedRestartsOneStream :=
  fun k s => ⟨_, rfl, (get_set_eq_ite s.seed k · s.arg), (get_set_eq_ite s.gen k · s.arg), rfl, rfl⟩

/-- The generator's step on integers (R110). -/
theorem lcgNext_toNat (p : Params) (g : Dword) :
    (lcgNext p g).toNat = (p.lcgA.toNat * g.toNat + p.lcgC.toNat) % 2 ^ 64 := by
  rw [lcgNext, BitVec.toNat_add, BitVec.toNat_mul, Nat.mod_add_mod]

/-- Settles O10: RESULT and the stream's slot get the same draw (R197). -/
theorem drawReturnsTheNextOutput : Obligations.DrawReturnsTheNextOutput :=
  fun k s => ⟨_, rfl, lcgNext_toNat .., (get_set_eq_ite s.gen k · _), rfl, rfl⟩

/-- Settles O11: the clock register wraps modulo 2^64 (R198). -/
theorem insertDelayAdvancesTheClock : Obligations.InsertDelayAdvancesTheClock :=
  fun s => ⟨_, rfl, BitVec.toNat_add s.clkUs s.arg, rfl, rfl⟩

/-- The container's header, byte by byte (R199). -/
theorem globalHeader_bytes : globalHeader = [0xD4#8, 0xC3#8, 0xB2#8, 0xA1#8, 0x02#8, 0x00#8, 0x04#8, 0x00#8, 0#8, 0#8, 0#8,
    0#8, 0#8, 0#8, 0#8, 0#8, 0xFF#8, 0xFF#8, 0#8, 0#8, 0x01#8, 0#8, 0#8, 0#8] := by decide

/-- Settles O12: RENDER answers with the container, whose header is constant. -/
theorem renderDeliversHeaderAndRecords : Obligations.RenderDeliversHeaderAndRecords := by
  intro s
  rw [← globalHeader_bytes]
  rfl

end Sys2Proof.Proofs

/-! Faults (O41, O43, O45, O46): which faults a command can raise, said once (`exec_raises`, R211), the payload
commands' checks in their order (R215), and the overflow of `OUT` inside a connection command (R63). -/

namespace Sys2Proof.Proofs

open Sys2Proof Sys2Proof.Machine Sys2Proof.Laws

section Faults

variable {c : CtxIdx} {dir : Dir} {fl : Flags} {i : Instr} {s t : State} {e : FaultCode}

/-! ### The payload commands' checks (R154, R210, R215) -/

theorem withCtx_absent (r : Except FaultCode State) (hc : s.params.nctx ≤ c.val) :
    withCtx c s r = .error .badCtx :=
  if_neg (Nat.not_lt.2 hc)

theorem emitPayload_tooLong (hlen : s.params.payloadMax < s.plen.toNat) : emitPayload c dir fl s = .error .payloadLen :=
  if_pos (decide_eq_true hlen)

/-- A payload that does not fit one frame, under an MTU that leaves no byte for a chunk (R154 d). -/
theorem emit_impossible {data : List Byte} (hmtu : (s.ctx c).mtu.toNat ≤ (s.ctx c).overhead)
    (hfit : (s.ctx c).mtu.toNat < (s.ctx c).overhead + data.length) :
    emit c dir fl data s = .error .segImpossible := by
  rw [emit, segments, if_neg (Nat.not_le.2 hfit), if_pos hmtu]

/-! ### Overflow of `OUT` by a sequence of empty frames (R63) -/

/-- Where the records together exceed `OUT_MAX`, one of the frames does. -/
theorem emitEach_overflow {fs : List (Dir × Flags)} {m : Nat} (hne : fs ≠ [])
    (hmtu : (s.ctx c).overhead ≤ (s.ctx c).mtu.toNat) (hm : s.params.outMax = some m)
    (hover : m < s.out.length + fs.length * (16 + (s.ctx c).overhead)) :
    emitEach c fs (.ok s) = .error .outOverflow := by
  induction fs generalizing s with
  | nil => exact absurd rfl hne
  | cons f rest ih =>
    obtain ⟨dir, fl⟩ := f
    change emitEach c rest (emit c dir fl [] s) = _
    rw [emit_nil c dir fl s hmtu]
    by_cases hfull : s.outFull (16 + (s.ctx c).overhead) = true
    · rw [if_pos hfull, emitEach_error]
    · rw [if_neg hfull]
      have hle : s.out.length + (16 + (s.ctx c).overhead) ≤ m := by simpa [State.outFull, hm] using hfull
      rw [List.length_cons, Nat.succ_mul] at hover
      refine ih ?_ ?_ hm ?_
      · rintro rfl
        rw [List.length_nil, Nat.zero_mul] at hover
        omega
      · rwa [afterFrame_ctx, overhead_advance, advance_mtu]
      · rw [length_afterFrame_out, afterFrame_ctx, overhead_advance, List.length_nil]
        omega

/-- The fault is raised in the state before the command, whatever the context and the streams were loaded with
(R213). -/
theorem finish_exchange_overflow {fs : List (Dir × Flags)} {l l' : LState} {o : Byte} {x : Context}
    {g : Vector Dword 8} {m : Nat} (hne : fs ≠ []) (hmtu : x.overhead ≤ x.mtu.toNat) (hm : s.params.outMax = some m)
    (hover : m < s.out.length + fs.length * (16 + x.overhead)) :
    finish o s (andThen (emitEach c fs (.ok ({ s with gen := g }.setCtx c { x with lstate := l })))
      fun t => .ok (t.setLstate c l')) = .next (s.raise o .outOverflow) := by
  have hctx := ctx_setCtx_self { s with gen := g } c { x with lstate := l }
  rw [emitEach_overflow hne (by rw [hctx]; exact hmtu) (by exact hm) (by rw [hctx]; exact hover)]
  rfl

/-! ### The faults of the commands (R211) -/

/-- The faults that an emission reports (R154 d, R63). -/
def IsEmissionFault (e : FaultCode) : Prop := e = .segImpossible ∨ e = .outOverflow

/-- Whether a command that passes its checks emits frames: CREATE, CLOSE and RESET do for a TCP connection (R125,
R136). -/
def EmitsFrames (s : State) : Instr → Prop
  | .create _ => s.cfgCtrl.getLsbD 0 = false
  | .close c | .reset c => (s.ctx c).transport = .tcp
  | .emitClient _ | .emitServer _ | .build _ _ _ => True
  | .sessionInit | .seed _ | .draw _ | .insertDelay | .render => False

/-- The faults that a command `i` issued in `s` can raise, each with the command and the state it takes. -/
inductive Raises (s : State) (i : Instr) : FaultCode → Prop
  | noContext {c : CtxIdx} (hi : i.ctx? = some c) (hc : s.params.nctx ≤ c.val) : Raises s i .badCtx
  | wrongState {c : CtxIdx} (hi : i.ctx? = some c) : Raises s i .badState
  | timestamp (hi : i = .sessionInit) : Raises s i .optionInvalid
  | config {c : CtxIdx} {e : FaultCode} (hi : i = .create c) (he : e = .optionInvalid ∨ e = .addressFormat) :
      Raises s i e
  | payloadLen {c : CtxIdx} {dir : Dir} {fl : Flags} (hi : i.emitsPayload c dir fl) : Raises s i .payloadLen
  | emission {e : FaultCode} (hi : EmitsFrames s i) (he : IsEmissionFault e) : Raises s i e

theorem emitsFrames_of_emitsPayload (h : i.emitsPayload c dir fl) : EmitsFrames s i := by
  rcases h with ⟨rfl, -, -⟩ | ⟨rfl, -, -⟩ | rfl <;> trivial

theorem emit_error {data : List Byte} (h : emit c dir fl data s = .error e) : IsEmissionFault e := by
  rcases emit_cases h with ⟨hseg, -⟩ | ⟨_, -, hover | hok⟩
  · cases hseg
    exact .inl rfl
  · cases hover
    exact .inr rfl
  · cases hok

theorem emitEach_fault {fs : List (Dir × Flags)} (h : emitEach c fs (.ok s) = .error e) : IsEmissionFault e := by
  induction fs generalizing s with
  | nil => cases h
  | cons f rest ih =>
    obtain ⟨dir, fl⟩ := f
    change emitEach c rest (emit c dir fl [] s) = .error e at h
    cases hemit : emit c dir fl [] s with
    | error e' =>
      rw [hemit, emitEach_error] at h
      cases h
      exact emit_error hemit
    | ok u =>
      rw [hemit] at h
      exact ih h

/-- The write of the lifecycle state after the frames cannot fault. -/
theorem exchange_fault {fs : List (Dir × Flags)} {l : LState}
    (h : andThen (emitEach c fs (.ok s)) (fun t => .ok (t.setLstate c l)) = .error e) : IsEmissionFault e := by
  cases hframes : emitEach c fs (.ok s) with
  | error e' =>
    rw [hframes] at h
    cases h
    exact emitEach_fault hframes
  | ok u =>
    rw [hframes] at h
    cases h

theorem emitPayload_raises (hi : i.emitsPayload c dir fl) (h : emitPayload c dir fl s = .error e) : Raises s i e := by
  unfold emitPayload at h
  split at h
  · cases h
    exact .payloadLen hi
  · split at h
    · cases h
      exact .wrongState (ctx?_of_emitsPayload hi)
    · exact .emission (emitsFrames_of_emitsPayload hi) (emit_error h)

theorem openContext_error (h : openContext c s = .error e) : s.cfgCtrl.getLsbD 0 = false ∧ IsEmissionFault e := by
  cases hk : s.cfgCtrl.getLsbD 0 with
  | false =>
    rw [openContext_tcp (newContext_tcp hk), handshake_eq] at h
    exact ⟨rfl, exchange_fault h⟩
  | true =>
    rw [openContext_udp (newContext_udp hk)] at h
    cases h

theorem createContext_raises (h : createContext c s = .error e) : Raises s (.create c) e := by
  unfold createContext at h
  split at h
  · cases h
    exact .wrongState rfl
  · rcases validate_cases s with ⟨-, -, hv⟩ | ⟨-, hv⟩ | ⟨-, -, hv⟩
    · rw [hv] at h
      obtain ⟨hk, he⟩ := openContext_error h
      exact .emission hk he
    · rw [hv] at h
      cases h
      exact .config rfl (.inl rfl)
    · rw [hv] at h
      cases h
      exact .config rfl (.inr rfl)

theorem closeContext_raises (h : closeContext c s = .error e) : Raises s (.close c) e := by
  by_cases hl : (s.ctx c).lstate = .established
  · cases ht : (s.ctx c).transport with
    | tcp =>
      rw [closeContext_tcp hl ht, closeFrames_eq] at h
      exact .emission ht (exchange_fault h)
    | udp =>
      rw [closeContext_udp hl ht] at h
      cases h
  · rw [closeContext_not_open hl] at h
    cases h
    exact .wrongState rfl

theorem resetContext_raises (h : resetContext c s = .error e) : Raises s (.reset c) e := by
  by_cases hl : (s.ctx c).lstate = .established
  · cases ht : (s.ctx c).transport with
    | tcp =>
      rw [resetContext_tcp hl ht, emit_rst_eq] at h
      exact .emission ht (exchange_fault h)
    | udp =>
      rw [resetContext_udp hl ht] at h
      cases h
  · rw [resetContext_not_open hl] at h
    cases h
    exact .wrongState rfl

/-- A command whose code is not `OK` has faulted, in the state before it (R210, R213). -/
theorem finish_fault {o : Byte} {r : Except FaultCode State} (h : finish o s r = .next t)
    (hcode : statusCode t.status ≠ 0x00#8) : ∃ e, r = .error e ∧ t = s.raise o e := by
  rcases finish_cases h with ⟨u, -, rfl⟩ | he
  · exact absurd (statusCode_statusOk u.status o) hcode
  · exact he

/-- A command that names a context raises `BAD_CTX` or a fault of its own rule (R83). -/
theorem finish_withCtx_raises {r : Except FaultCode State} (hi : i.ctx? = some c)
    (hr : ∀ e, r = .error e → Raises s i e) (h : finish i.opc s (withCtx c s r) = .next t)
    (hcode : statusCode t.status ≠ 0x00#8) : ∃ e, Raises s i e ∧ t = s.raise i.opc e := by
  obtain ⟨e, he, rfl⟩ := finish_fault h hcode
  refine ⟨e, ?_, rfl⟩
  rcases Nat.lt_or_ge c.val s.params.nctx with hc | hc
  · rw [withCtx, if_pos hc] at he
    exact hr e he
  · rw [withCtx_absent r hc] at he
    cases he
    exact .noContext hi hc

theorem exec_emitsPayload_raises (hi : i.emitsPayload c dir fl) (h : exec i s = .next t)
    (hcode : statusCode t.status ≠ 0x00#8) : ∃ e, Raises s i e ∧ t = s.raise i.opc e := by
  rw [exec_emitsPayload hi] at h
  exact finish_withCtx_raises (ctx?_of_emitsPayload hi) (fun _ => emitPayload_raises hi) h hcode

/-- Everything a faulting command does: it raises one of its faults in the state before it (R211, R213). -/
theorem exec_raises (h : exec i s = .next t) (hcode : statusCode t.status ≠ 0x00#8) :
    ∃ e, Raises s i e ∧ t = s.raise i.opc e := by
  cases i with
  | sessionInit =>
    obtain ⟨e, he, rfl⟩ := finish_fault h hcode
    refine ⟨e, ?_, rfl⟩
    split at he
    · cases he
      exact .timestamp rfl
    · cases he
  | seed _ | draw _ | insertDelay | render =>
    cases h
    exact absurd (statusCode_statusOk ..) hcode
  | create c => exact finish_withCtx_raises rfl (fun _ => createContext_raises) h hcode
  | emitClient c => exact exec_emitsPayload_raises (.inl ⟨rfl, rfl, rfl⟩) h hcode
  | emitServer c => exact exec_emitsPayload_raises (.inr (.inl ⟨rfl, rfl, rfl⟩)) h hcode
  | close c => exact finish_withCtx_raises rfl (fun _ => closeContext_raises) h hcode
  | reset c => exact finish_withCtx_raises rfl (fun _ => resetContext_raises) h hcode
  | build c dir fl => exact exec_emitsPayload_raises (.inr (.inr rfl)) h hcode

/-! ### The rows of R211 -/

theorem mem_faults_of_ctx? (hi : i.ctx? = some c) : .badCtx ∈ i.faults ∧ .badState ∈ i.faults := by
  cases i <;> cases hi <;> simp [Instr.faults]

theorem mem_faults_of_emitsFrames (hi : EmitsFrames s i) (he : IsEmissionFault e) : e ∈ i.faults := by
  cases i with
  | sessionInit | seed _ | draw _ | insertDelay | render => exact hi.elim
  | _ => rcases he with rfl | rfl <;> simp [Instr.faults]

theorem Raises.mem_faults (h : Raises s i e) : e ∈ i.faults := by
  cases h with
  | noContext hi _ => exact (mem_faults_of_ctx? hi).1
  | wrongState hi => exact (mem_faults_of_ctx? hi).2
  | timestamp hi => simp [hi, Instr.faults]
  | config hi he => rcases he with rfl | rfl <;> simp [hi, Instr.faults]
  | payloadLen hi => rcases hi with ⟨rfl, -, -⟩ | ⟨rfl, -, -⟩ | rfl <;> simp [Instr.faults]
  | emission hi he => exact mem_faults_of_emitsFrames hi he

/-- A decoded command's context exists (R83). -/
theorem Raises.ne_badCtx (h : Raises s i e) (hwf : i.wf s.params = true) : e ≠ .badCtx := by
  rintro rfl
  cases h with
  | noContext hi hc =>
    rw [Instr.wf, hi, decide_eq_true_iff] at hwf
    exact absurd hwf (Nat.not_lt.2 hc)
  | config _ he => rcases he with he | he <;> cases he
  | emission _ he => rcases he with he | he <;> cases he

/-- A command that emits no frame raises no emission's fault (R136, R211). -/
theorem Raises.not_isEmissionFault (h : Raises s i e) (hi : ¬ EmitsFrames s i) : ¬ IsEmissionFault e := by
  cases h with
  | noContext | wrongState | timestamp | payloadLen => rintro (he | he) <;> cases he
  | config _ he => rcases he with rfl | rfl <;> rintro (he | he) <;> cases he
  | emission hframes _ => exact absurd hframes hi

end Faults

/-! ### The obligations -/

/-- Settles O46: a faulting command raises one of the faults of `Raises`, and over UDP these commands emit no frame. -/
theorem eachCommandRaisesOnlyItsFaults : Obligations.EachCommandRaisesOnlyItsFaults := by
  intro i s t h hcode
  obtain ⟨e, hraises, rfl⟩ := exec_raises h hcode
  refine ⟨e, hraises.mem_faults, statusCode_statusFault .., hraises.ne_badCtx, fun c hudp => ?_⟩
  have hframes : ¬ EmitsFrames s i := by
    rcases hudp with ⟨rfl, hk⟩ | ⟨rfl | rfl, ht⟩
    · simp [EmitsFrames, hk]
    · simp [EmitsFrames, ht]
    · simp [EmitsFrames, ht]
  exact not_or.1 (hraises.not_isEmissionFault hframes)

/-- Settles O41: the fault is raised in the state before the command. -/
theorem faultingCommandWritesOnlyStatus : Obligations.FaultingCommandWritesOnlyStatus := by
  intro i s t h hcode
  obtain ⟨e, -, rfl⟩ := exec_raises h hcode
  exact ⟨e, rfl⟩

/-- Settles O45: the frames overflow between the two writes of the lifecycle state, and the fault discards all of
them. -/
theorem overflowUndoesAConnectionCommand : Obligations.OverflowUndoesAConnectionCommand := by
  intro c s m hc hm
  rw [exec_create hc, exec_close hc, exec_reset hc]
  refine ⟨fun hl ho ha hk hmtu hover => ?create, fun hest ht hmtu => ⟨fun hover => ?close, fun hover => ?reset⟩⟩
  case create =>
    rw [createContext_valid hl ho ha, openContext_tcp (newContext_tcp hk), handshake_eq, setLstate_eq, ctx_setCtx_self,
      setCtx_setCtx]
    nth_rewrite 1 [newContext_state]
    exact finish_exchange_overflow (by decide) hmtu hm hover
  case close =>
    rw [closeContext_tcp hest ht, closeFrames_eq]
    exact finish_exchange_overflow (by decide) hmtu hm hover
  case reset =>
    rw [resetContext_tcp hest ht, emit_rst_eq]
    exact finish_exchange_overflow (by decide) hmtu hm (by rwa [resetFrames, List.length_singleton, Nat.one_mul])

/-- Settles O43: each check is reached past the checks before it. -/
theorem payloadCommandFaultPriority : Obligations.PayloadCommandFaultPriority := by
  intro i c dir fl s hi
  rw [exec_emitsPayload hi]
  refine ⟨fun hc => ?_, fun hc hlen => ?_, fun hc hlen hl => ?_, fun hc hlen hest hmtu hfit => ?_⟩
  · rw [withCtx_absent _ hc]; rfl
  · rw [withCtx, if_pos hc, emitPayload_tooLong hlen]; rfl
  · rw [withCtx, if_pos hc, emitPayload_not_open hlen hl]; rfl
  · rw [withCtx, if_pos hc, emitPayload_established hlen hest, emit_impossible hmtu (by rwa [length_payload])]; rfl

end Sys2Proof.Proofs

/-! Reset (O6): the values R230 lists, said of `State.resetWith` at every epoch, so that power-on and the reset input
share them, and the idle step (R225). -/

namespace Sys2Proof.Proofs

open Sys2Proof Sys2Proof.Machine Sys2Proof.Laws

/-- With no move of the host left a step changes nothing (R225). -/
theorem step_of_no_moves {s : State} (h : s.moves = []) : step s = .next s := by
  simp only [step, h]

/-- R31: stream `k` is seeded with `k`. -/
theorem seedDefault_get (k : StreamIdx) : Params.default.seedDefault.get k = BitVec.ofNat 64 k.val := by
  revert k
  decide

theorem resetWith_ctx (p : Params) (epoch : Nat) (c : CtxIdx) : (State.resetWith p epoch).ctx c = .zero :=
  vector_get_replicate _ c

/-- What R230 lists does not depend on how many resets came before: only the bytes of `PBUF` do, which it leaves
unspecified. -/
theorem resetWith_default_isReset (epoch : Nat) : (State.resetWith .default epoch).isReset := by
  unfold State.isReset
  refine ⟨rfl, rfl, rfl, rfl, rfl, rfl, rfl, rfl, rfl, rfl, rfl, rfl, ?streams,
    rfl, rfl, rfl, rfl, rfl, rfl, rfl, rfl, rfl, ?tags, resetWith_ctx _ epoch⟩
  case streams => exact fun k => ⟨seedDefault_get k, seedDefault_get k⟩
  case tags => exact fun i => vector_get_replicate _ i

/-- The host's moves and its last answer, which the reset input keeps, are not among the values R230 lists. -/
theorem hostReset_isReset {s : State} (hp : s.params = .default) : (hostReset s).isReset := by
  rw [hostReset, hp]
  exact resetWith_default_isReset (s.epoch + 1)

/-- Settles O6: power-on and the reset input are both `State.resetWith` with the decided parameters, and the reset state
has no move to take. -/
theorem resetLeavesTheSpecifiedValues : Obligations.ResetLeavesTheSpecifiedValues := by
  refine ⟨resetWith_default_isReset 0, fun s rest hp hmoves => ?input, ?session, step_of_no_moves rfl⟩
  case input => exact ⟨_, step_of_moves hmoves, hostReset_isReset (s := { s with moves := rest }) hp, rfl, rfl⟩
  case session =>
    obtain ⟨-, -, hreset⟩ := sessionInitStartsASession State.reset
    exact hreset rfl

end Sys2Proof.Proofs

/-! The base case (O7) of the two step lemmas: both properties hold after any reset with valid parameters, and the
parameters R8 decides are valid. -/

namespace Sys2Proof.Proofs

open Sys2Proof Sys2Proof.Machine Sys2Proof.Laws

theorem default_valid : Params.default.valid = true := by decide

/-- A reset empties `OUT` and clears `REC_COUNT` (R230): the container is its header alone, with no record. -/
theorem resetWith_containerSplits (p : Params) (epoch : Nat) : (State.resetWith p epoch).containerSplits :=
  containerSplits_of_empty rfl rfl

/-- Settles O7: the reset state is `State.resetWith` at the decided parameters and epoch 0. -/
theorem invariantHoldsAtReset : Obligations.InvariantHoldsAtReset :=
  ⟨resetWith_inv default_valid 0, resetWith_containerSplits .default 0⟩

end Sys2Proof.Proofs
